-- ==== Sys2Proof/Word.lean ====
section
/-! DEFINITION. The word types of the AFE-Q core (00_scope.md R8, R9, R13): plain bit vectors. -/

namespace Sys2Proof

/-- One byte of DMEM or of the state window. -/
abbrev Byte := BitVec 8

/-- A register, a command word, or an int32 element (10_state.md R22). -/
abbrev Word := BitVec 32

end Sys2Proof
end

