-- ==== Sys2Proof/Syntax.lean ====
section
/-! DEFINITION. The command set AFEQ-CMD (30_encoding.md R82, R84): one constructor per row of spec/opcode_table.json.
A word that is no command has no term here: it is illegal (R87). -/

namespace Sys2Proof

/-- A command of the AFE-Q core. SHAMT is the only operand a command word carries (30_encoding.md R85). -/
inductive Instr where
  /-- INIT, 0x00000001 -/
  | init
  /-- PROCESS_HOP, 0x00000002 -/
  | processHop
  /-- RESET, 0x00000003 -/
  | reset
  /-- FREE, 0x00000004 -/
  | free
  /-- SAT16, FUNC 0x01 -/
  | sat16
  /-- SAT32, FUNC 0x02 -/
  | sat32
  /-- WIDEN, FUNC 0x03 -/
  | widen
  /-- NARROW, FUNC 0x04 -/
  | narrow
  /-- MULQ15, FUNC 0x05 -/
  | mulq15
  /-- MULQ31, FUNC 0x06 -/
  | mulq31
  /-- MULW, FUNC 0x07 -/
  | mulw
  /-- MAC2, FUNC 0x08 -/
  | mac2
  /-- MSU2, FUNC 0x09 -/
  | msu2
  /-- ADDS32, FUNC 0x0A -/
  | adds32
  /-- SUBS32, FUNC 0x0B -/
  | subs32
  /-- NEGS32, FUNC 0x0C -/
  | negs32
  /-- ADDS16, FUNC 0x0D -/
  | adds16
  /-- SUBS16, FUNC 0x0E -/
  | subs16
  /-- ASR32, FUNC 0x0F, with its shift amount -/
  | asr32 (shamt : Nat)
  /-- SHLS32, FUNC 0x10, with its shift amount -/
  | shls32 (shamt : Nat)
  /-- MULG, FUNC 0x11 -/
  | mulg
  /-- DIVG, FUNC 0x12 -/
  | divg
  /-- POWQ31, FUNC 0x13 -/
  | powq31
deriving DecidableEq, Repr

end Sys2Proof
end

