-- ==== Sys2Proof/WellFormed.lean ====
section
/-! DEFINITION. Which commands have an encoding: SHAMT is a five-bit field (30_encoding.md R81, R85), so a shift of 32
or more cannot be encoded (95_test_vectors.md 3.1.2). -/

namespace Sys2Proof

/-- The shift amount a command carries; 0 for a command whose SHAMT field must be 0 (30_encoding.md R81). -/
def Instr.shamt : Instr → Nat
  | .asr32 s => s
  | .shls32 s => s
  | .init => 0
  | .processHop => 0
  | .reset => 0
  | .free => 0
  | .sat16 => 0
  | .sat32 => 0
  | .widen => 0
  | .narrow => 0
  | .mulq15 => 0
  | .mulq31 => 0
  | .mulw => 0
  | .mac2 => 0
  | .msu2 => 0
  | .adds32 => 0
  | .subs32 => 0
  | .negs32 => 0
  | .adds16 => 0
  | .subs16 => 0
  | .mulg => 0
  | .divg => 0
  | .powq31 => 0

/-- A command is well formed when its shift amount fits SHAMT, `0 ≤ s ≤ 31` (30_encoding.md R85). -/
abbrev Instr.WellFormed (i : Instr) : Prop := i.shamt ≤ 31

end Sys2Proof
end

