-- ==== Sys2Proof/Decode.lean ====
section
/-! DEFINITION. Decoding and encoding of command words (30_encoding.md R81 to R88). The decoder is total on words and
rejects by name; the engine turns every rejection into ERR_ILLEGAL_CMD (R87). -/

namespace Sys2Proof

/-- Why a command word is illegal (30_encoding.md R87), in the order the tests of R86 are made. -/
inductive DecodeError where
  /-- RSVD is not 0 -/
  | reservedBits
  /-- OPCODE 0x01 to 0x04 with FUNC or SHAMT not 0 -/
  | lifecycleField
  /-- OPCODE 0x10 with FUNC 0x00 or 0x14 to 0xFF -/
  | unknownFunction
  /-- OPCODE 0x10 with SHAMT not 0 on a function that does not shift -/
  | unusedShamt
  /-- an OPCODE outside the map of R82 -/
  | unknownOpcode
deriving DecidableEq, Repr

/-- OPCODE, bits 7:0 (30_encoding.md R81). -/
def opcodeOf (w : Word) : Nat := (w.extractLsb' 0 8).toNat

/-- FUNC, bits 15:8 (30_encoding.md R81). -/
def funcOf (w : Word) : Nat := (w.extractLsb' 8 8).toNat

/-- SHAMT, bits 20:16, zero-extended (30_encoding.md R81, R85). -/
def shamtOf (w : Word) : Nat := (w.extractLsb' 16 5).toNat

/-- RSVD, bits 31:21 (30_encoding.md R81). -/
def rsvdOf (w : Word) : Nat := (w.extractLsb' 21 11).toNat

/-- The command of a lifecycle OPCODE (30_encoding.md R82). -/
def lifecycleOf (op : Nat) : Option Instr :=
  match op with
  | 0x01 => some .init
  | 0x02 => some .processHop
  | 0x03 => some .reset
  | 0x04 => some .free
  | _ => none

/-- The ALU function of a FUNC value with SHAMT `sh` (30_encoding.md R84). -/
def functionOf (fn sh : Nat) : Option Instr :=
  match fn with
  | 0x01 => some .sat16
  | 0x02 => some .sat32
  | 0x03 => some .widen
  | 0x04 => some .narrow
  | 0x05 => some .mulq15
  | 0x06 => some .mulq31
  | 0x07 => some .mulw
  | 0x08 => some .mac2
  | 0x09 => some .msu2
  | 0x0A => some .adds32
  | 0x0B => some .subs32
  | 0x0C => some .negs32
  | 0x0D => some .adds16
  | 0x0E => some .subs16
  | 0x0F => some (.asr32 sh)
  | 0x10 => some (.shls32 sh)
  | 0x11 => some .mulg
  | 0x12 => some .divg
  | 0x13 => some .powq31
  | _ => none

/-- Decoding (30_encoding.md R86), with its tests in that rule's order. The decision depends on the word alone. -/
def decode (w : Word) : Except DecodeError Instr :=
  if rsvdOf w ≠ 0 then .error .reservedBits
  else
    match lifecycleOf (opcodeOf w) with
    | some i => if funcOf w ≠ 0 ∨ shamtOf w ≠ 0 then .error .lifecycleField else .ok i
    | none =>
      if opcodeOf w = 0x10 then
        match functionOf (funcOf w) (shamtOf w) with
        | none => .error .unknownFunction
        | some i =>
          if funcOf w ≠ 0x0F ∧ funcOf w ≠ 0x10 ∧ shamtOf w ≠ 0 then .error .unusedShamt else .ok i
      else .error .unknownOpcode

/-- The word of an ALU function, `0x00000010 | FUNC << 8 | SHAMT << 16` (30_encoding.md R84). -/
def aluWord (fn sh : Nat) : Word := 0x10#32 ||| (BitVec.ofNat 32 fn <<< 8) ||| (BitVec.ofNat 32 sh <<< 16)

/-- The word of a well-formed command (30_encoding.md R83, R84). -/
def encode : Instr → Word
  | .init => 0x00000001#32
  | .processHop => 0x00000002#32
  | .reset => 0x00000003#32
  | .free => 0x00000004#32
  | .sat16 => aluWord 0x01 0
  | .sat32 => aluWord 0x02 0
  | .widen => aluWord 0x03 0
  | .narrow => aluWord 0x04 0
  | .mulq15 => aluWord 0x05 0
  | .mulq31 => aluWord 0x06 0
  | .mulw => aluWord 0x07 0
  | .mac2 => aluWord 0x08 0
  | .msu2 => aluWord 0x09 0
  | .adds32 => aluWord 0x0A 0
  | .subs32 => aluWord 0x0B 0
  | .negs32 => aluWord 0x0C 0
  | .adds16 => aluWord 0x0D 0
  | .subs16 => aluWord 0x0E 0
  | .asr32 s => aluWord 0x0F s
  | .shls32 s => aluWord 0x10 s
  | .mulg => aluWord 0x11 0
  | .divg => aluWord 0x12 0
  | .powq31 => aluWord 0x13 0

/-- The command the decoder reads from a table row's bits `w`. Every command is one 32-bit word (30_encoding.md R80),
and bits above `nbits` are 0. -/
def decodeTableWord (nbits w : Nat) : Option Instr :=
  match decode (BitVec.ofNat 32 (w % 2 ^ nbits)) with
  | .ok i => some i
  | .error _ => none

end Sys2Proof
end

