-- ==== Sys2Proof/Config.lean ====
section
/-! DEFINITION. What an implementation fixes (the parameters of 00_scope.md R6, R7) and the free values the spec
leaves open (70_reset_and_hazards.md R341, R345, R346, R351). The free values are constants without a body: nothing
can evaluate them or prove a value of them. -/

namespace Sys2Proof

/-- The implementation parameters of 00_scope.md R6. A state of the machine carries them, and no step changes them
(log 1). -/
structure Params where
  /-- `P_MAX_FRAME_LEN` (`Fm`) -/
  maxFrameLen : Nat
  /-- `P_MAX_CHANNELS` (`Cm`) -/
  maxChannels : Nat
  /-- `P_DMEM_BYTES` -/
  dmemBytes : Nat
  /-- `P_VERSION`, MAJOR -/
  versionMajor : Byte
  /-- `P_VERSION`, MINOR -/
  versionMinor : Byte
  /-- `P_VERSION`, PATCH -/
  versionPatch : Byte
  /-- `P_BLOCK_BASE` -/
  blockBase : Nat
  /-- `P_SYM_SAT` (00_scope.md R14) -/
  symSat : Bool
deriving DecidableEq, Repr

/-- The size of the block of bus addresses a core occupies, 2 MiB (20_memory.md R60). -/
def blockBytes : Nat := 0x200000

/-- The number `Bm = Fm/2 + 1` of bins of the largest frame (10_state.md R53). -/
def Params.maxBins (p : Params) : Nat := p.maxFrameLen / 2 + 1

/-- STATE_BYTES (10_state.md R40): the size of the state window's layout. -/
def Params.stateBytes (p : Params) : Nat :=
  p.maxChannels * (24 + 6 * p.maxFrameLen + 8 * (p.maxFrameLen / 2 + 1))

/-- The legal values of the parameters (00_scope.md R6, R7). -/
abbrev Params.Legal (p : Params) : Prop :=
  2 ≤ p.maxFrameLen ∧ p.maxFrameLen ≤ 32768 ∧ 2 ^ p.maxFrameLen.log2 = p.maxFrameLen ∧
  1 ≤ p.maxChannels ∧ p.maxChannels ≤ 255 ∧
  4096 ≤ p.dmemBytes ∧ p.dmemBytes ≤ 1048576 ∧ 2 ^ p.dmemBytes.log2 = p.dmemBytes ∧
  p.blockBase % blockBytes = 0 ∧
  p.stateBytes ≤ 524288

/-- The parameters of the state after reset: the defaults of 00_scope.md R6. P_VERSION and P_BLOCK_BASE are OPEN in the
spec.
DESIGN CHOICE, unsafe: version 0.0.0 (log 2) and block base 0 (log 3). -/
def defaultParams : Params where
  maxFrameLen := 1024
  maxChannels := 4
  dmemBytes := 65536
  versionMajor := 0
  versionMinor := 0
  versionPatch := 0
  blockBase := 0
  symSat := false

/-- The nine arrays of the state window (10_state.md R53). -/
inductive WindowArray where
  | dcX | dcY | peX | nsCnt | nsTpa | buf | ola | min | est
deriving DecidableEq, Repr

/-- Free value: the duration of a command, in host bus operations (70_reset_and_hazards.md R351: "any finite number,
possibly zero"), by the number of the draw (log 8). -/
opaque Config.cmdDuration : Nat → Nat

/-- Free value: a register read while BUSY = 1 (70_reset_and_hazards.md R345), or a field of ACT after a POR
(R341), by the number of the draw and the register's offset (log 11, log 16). -/
opaque Config.freeReg : Nat → Nat → Word

/-- Free value: a byte of the state window read while BUSY = 1 (70_reset_and_hazards.md R345), by the number of the
draw and the byte's offset (log 11). -/
opaque Config.freeWindowByte : Nat → Nat → Byte

/-- Free value: a state-window element after a POR (10_state.md R55) or after a raced hop (70_reset_and_hazards.md
R346), by the number of the draw, the array and the element's index (log 13, log 16). -/
opaque Config.freeElem : Nat → WindowArray → Nat → BitVec 64

/-- Free value: a DMEM byte after a POR (20_memory.md R62), read while BUSY = 1 (70_reset_and_hazards.md R345) or
written by a raced hop (R346), by the number of the draw and the byte's offset (log 11, log 13, log 16). -/
opaque Config.freeDmemByte : Nat → Nat → Byte

end Sys2Proof
end

