-- ==== Sys2Proof/Machine/State.lean ====
section
/-! DEFINITION. The state of the machine as plain data: every register, the active configuration, the state window,
DMEM, the engine's progress and the host's pending operations (10_state.md, 20_memory.md R61, 70_reset_and_hazards.md
R341, R346), and the machine after reset. -/

namespace Sys2Proof.Machine

/-- The engine state ESTATE (10_state.md R43). The encoding 3 has no name: it is never held (R51). -/
inductive EState where
  | uninitialised | ready | freed
deriving DecidableEq, Repr

/-- The status codes of 60_exceptions.md R310. Codes 7 to 15 have no name: they are never written. -/
inductive StatusCode where
  /-- 0, OK -/
  | ok
  /-- 1, ERR_NULL_ARG -/
  | nullArg
  /-- 2, ERR_INVALID_CONFIG -/
  | invalidConfig
  /-- 3, ERR_SCRATCH_TOO_SMALL -/
  | scratchTooSmall
  /-- 4, ERR_NOT_INITIALISED -/
  | notInitialised
  /-- 5, ERR_BAD_REGION -/
  | badRegion
  /-- 6, ERR_ILLEGAL_CMD -/
  | illegalCmd
deriving DecidableEq, Repr

/-- The registers the host writes (10_state.md R26 to R39, R47). Only the stored bits of each are held: the reserved
bits read 0 and ignore writes (R58). -/
structure Regs where
  /-- CFG_CTRL[5:0]: NS_EN, AGC_EN, BF_EN, AEC_EN, FEAT_EN, OLA_NORM from bit 0 up (R26) -/
  cfgCtrl : BitVec 6
  /-- CFG_FRAME: FRAME_LEN in bits 15:0, HOP_LEN in bits 31:16 (R30) -/
  cfgFrame : Word
  /-- CFG_CHAN[7:0]: NUM_CHANNELS (R31) -/
  cfgChan : BitVec 8
  /-- CFG_FS: SAMPLE_RATE (R32) -/
  cfgFs : Word
  /-- DC_ALPHA (R33) -/
  dcAlpha : Word
  /-- PE_ALPHA[15:0] (R34) -/
  peAlpha : BitVec 16
  /-- NS_OVERSUB[15:0] (R35) -/
  nsOversub : BitVec 16
  /-- NS_FLOOR[30:0] (R36) -/
  nsFloor : BitVec 31
  /-- NS_MINTRACK[15:0] (R37) -/
  nsMintrack : BitVec 16
  /-- WIN_BASE[31:2] (R38) -/
  winBase : BitVec 30
  /-- TWC_BASE[31:2] (R38) -/
  twcBase : BitVec 30
  /-- TWS_BASE[31:2] (R38) -/
  twsBase : BitVec 30
  /-- SCRATCH_BASE[31:2] (R38) -/
  scratchBase : BitVec 30
  /-- SCRATCH_SIZE (R39) -/
  scratchSize : Word
  /-- IN_BASE[31:2] (R38) -/
  inBase : BitVec 30
  /-- OUT_BASE[31:2] (R38) -/
  outBase : BitVec 30
  /-- ALU_A_LO (R47) -/
  aluALo : Word
  /-- ALU_A_HI (R47) -/
  aluAHi : Word
  /-- ALU_B_LO (R47) -/
  aluBLo : Word
  /-- ALU_B_HI (R47) -/
  aluBHi : Word
  /-- ALU_C (R47) -/
  aluC : Word
  /-- ALU_D (R47) -/
  aluD : Word
deriving DecidableEq, Repr

/-- The active configuration ACT, latched by a successful INIT (10_state.md R44). -/
structure Act where
  frameLen : BitVec 16
  hopLen : BitVec 16
  numChannels : BitVec 8
  nsEn : Bool
  bfEn : Bool
  aecEn : Bool
  olaNorm : Bool
  sampleRate : Word
  dcAlpha : Word
  peAlpha : BitVec 16
  oversub : BitVec 16
  floor : BitVec 31
  mintrack : BitVec 16
  winBase : Word
  twcBase : Word
  twsBase : Word
  scratchBase : Word
deriving DecidableEq, Repr

/-- Data by index, in one canonical form: indices strictly rising, and no entry equal to the default that an unlisted
index reads as (Machine/Memory.lean). -/
abbrev Sparse (w : Nat) := List (Nat × BitVec w)

/-- DMEM (20_memory.md R61): a sparse list of bytes. -/
abbrev Memory := List Host.Cell

/-- The persistent per-channel state behind the state window (10_state.md R53): its nine arrays, each by element index.
An unlisted element has its post-init value (R54): MAXPOW for MIN, 0 for every other array. -/
structure Window where
  /-- DC_X[c], int32 -/
  dcX : Sparse 32
  /-- DC_Y[c], int32 -/
  dcY : Sparse 32
  /-- PE_X[c], int32 holding an int16 -/
  peX : Sparse 32
  /-- NS_CNT[c], uint32 -/
  nsCnt : Sparse 32
  /-- NS_TPA[c], uint64 -/
  nsTpa : Sparse 64
  /-- BUF[c][n] at index c*Fm + n, int16 -/
  buf : Sparse 16
  /-- OLA[c][n] at index c*Fm + n, int32 -/
  ola : Sparse 32
  /-- MIN[j], int32, at least 0 -/
  min : Sparse 32
  /-- EST[j], int32, at least 0 -/
  est : Sparse 32
deriving DecidableEq, Repr

/-- A running command: the engine's progress, hidden from the host (10_state.md R45). -/
structure Running where
  /-- the command word written to CMD (10_state.md R25) -/
  word : Word
  /-- the registers as they were at the CMD write (70_reset_and_hazards.md R346) -/
  snap : Regs
  /-- the host has written DMEM inside the command's regions (70_reset_and_hazards.md R346) -/
  raced : Bool
  /-- how many host operations are still performed before `finish` (70_reset_and_hazards.md R351) -/
  left : Nat
deriving DecidableEq, Repr

/-- The size of a host access (20_memory.md R60, R65). -/
inductive AccessSize where
  | byte | half | word
deriving DecidableEq, Repr

/-- What the host can do to the core (70_reset_and_hazards.md R354): the model's input (log 9). -/
inductive HostOp where
  /-- a bus read at an address -/
  | read (addr : Nat) (size : AccessSize)
  /-- a bus write of the low bytes of a value at an address -/
  | write (addr : Nat) (size : AccessSize) (value : Word)
  /-- the polling loop `wait` of 30_encoding.md R91 -/
  | wait
  /-- power-on reset (70_reset_and_hazards.md R340) -/
  | por
deriving DecidableEq, Repr

/-- The response to a bus access: an error response with data 0, or the data read (0 for a write) (20_memory.md R65). -/
structure BusResp where
  error : Bool
  data : Word
deriving DecidableEq, Repr

/-- The state of the machine. -/
structure State where
  /-- the implementation parameters (00_scope.md R6); no step changes them -/
  params : Params
  /-- the registers the host writes -/
  regs : Regs
  /-- STATUS.ESTATE (10_state.md R43) -/
  estate : EState
  /-- STATUS.LAST_STATUS (10_state.md R24) -/
  lastStatus : StatusCode
  /-- STATUS.OVR (10_state.md R24, R25) -/
  ovr : Bool
  /-- FFT_SHIFT[4:0] (10_state.md R42) -/
  fftShift : BitVec 5
  /-- ALU_R_LO (10_state.md R48) -/
  aluRLo : Word
  /-- ALU_R_HI (10_state.md R48) -/
  aluRHi : Word
  /-- ALU_FLAGS.SAT (10_state.md R49) -/
  aluSat : Bool
  /-- ALU_FLAGS.DZ (10_state.md R49) -/
  aluDz : Bool
  /-- the active configuration (10_state.md R44) -/
  act : Act
  /-- the persistent per-channel state (10_state.md R53) -/
  win : Window
  /-- the local data memory (20_memory.md R61) -/
  dmem : Memory
  /-- the running command; STATUS.BUSY is 1 exactly when there is one (10_state.md R24) -/
  run : Option Running
  /-- the model's own: the host's operations not yet performed, first first (log 9) -/
  host : List HostOp
  /-- the model's own: the response to the host's last bus access (log 15) -/
  resp : Option BusResp
  /-- the model's own: how many free values have been drawn (log 10) -/
  draws : Nat
deriving DecidableEq, Repr

/-- Why the machine stops with a fault. -/
inductive Fault where
  /-- Raised by PROCESS_HOP alone, when a region of ACT reaches outside DMEM. SAFE: INIT latches no such configuration
  (41_lifecycle.md R168), so no run reaches it; it is an access to an address that does not exist (log 12). -/
  | engineOutsideDmem
deriving DecidableEq, Repr

/-- Why an instruction has no meaning in the model. -/
inductive Refusal where
  /-- Raised by exec for a command without a meaning. SAFE. No arm of exec uses it. -/
  | notModelled (mnemonic : String)
deriving DecidableEq, Repr

/-- The registers after power-on reset (10_state.md R59): CFG_CTRL = 0x20 and every other 0. -/
def resetRegs : Regs where
  cfgCtrl := 0x20#6
  cfgFrame := 0
  cfgChan := 0
  cfgFs := 0
  dcAlpha := 0
  peAlpha := 0
  nsOversub := 0
  nsFloor := 0
  nsMintrack := 0
  winBase := 0
  twcBase := 0
  twsBase := 0
  scratchBase := 0
  scratchSize := 0
  inBase := 0
  outBase := 0
  aluALo := 0
  aluAHi := 0
  aluBLo := 0
  aluBHi := 0
  aluC := 0
  aluD := 0

/-- ACT in the state after reset. The spec leaves it unspecified and never reads it before a successful INIT
(10_state.md R44). DESIGN CHOICE, unsafe: 0 (log 4). -/
def resetAct : Act where
  frameLen := 0
  hopLen := 0
  numChannels := 0
  nsEn := false
  bfEn := false
  aecEn := false
  olaNorm := false
  sampleRate := 0
  dcAlpha := 0
  peAlpha := 0
  oversub := 0
  floor := 0
  mintrack := 0
  winBase := 0
  twcBase := 0
  twsBase := 0
  scratchBase := 0

/-- The post-init values of the state window (10_state.md R54): every element at the value an unlisted one has. -/
def postInit : Window where
  dcX := []
  dcY := []
  peX := []
  nsCnt := []
  nsTpa := []
  buf := []
  ola := []
  min := []
  est := []

/-- A machine with parameters `p` right after power-on reset (70_reset_and_hazards.md R341), with nothing pending.
The spec leaves ACT, the state window and DMEM unspecified. DESIGN CHOICE, unsafe: ACT 0 (log 4), the state window at
its post-init values (log 5), no DMEM byte listed, so that each reads 0 (log 6). -/
def State.powerOn (p : Params) : State where
  params := p
  regs := resetRegs
  estate := .uninitialised
  lastStatus := .ok
  ovr := false
  fftShift := 0
  aluRLo := 0
  aluRHi := 0
  aluSat := false
  aluDz := false
  act := resetAct
  win := postInit
  dmem := []
  run := none
  host := []
  resp := none
  draws := 0

/-- The machine right after reset, with the default parameters of 00_scope.md R6. -/
def State.reset : State := State.powerOn defaultParams

end Sys2Proof.Machine
end

