-- ==== Sys2Proof/Machine/Qformat.lean ====
section
/-! DEFINITION. The Q-format arithmetic unit (40_qformat_alu.md R100 to R129; 00_scope.md R9, R10, R14): functions on
integers. A saturating function is `sat16` or `sat32` of a RAW value, the exact value before the saturation: the raw
values have names of their own, because ALU_FLAGS.SAT compares the two (R103). `sym` is P_SYM_SAT. -/

namespace Sys2Proof.Machine

/-- `asr(v, s) = ⌊v / 2^s⌋` (00_scope.md R10). -/
def asr (v : Int) (s : Nat) : Int := v / ((2 ^ s : Nat) : Int)

/-- `fdiv(a, b) = ⌊a / b⌋` (00_scope.md R10). -/
def fdiv (a b : Int) : Int := Int.fdiv a b

/-- `tdiv(a, b)`: `a / b` rounded toward zero (00_scope.md R10). -/
def tdiv (a b : Int) : Int := Int.tdiv a b

/-- `clamp(v, lo, hi)` (00_scope.md R10). -/
def clamp (v lo hi : Int) : Int := max lo (min hi v)

/-- `lo_16` (00_scope.md R14). -/
def lo16 (sym : Bool) : Int := if sym then -32767 else -32768

/-- `hi_16` (00_scope.md R14). -/
def hi16 : Int := 32767

/-- `lo_32` (00_scope.md R14). -/
def lo32 (sym : Bool) : Int := if sym then -2147483647 else -2147483648

/-- `hi_32` (00_scope.md R14). -/
def hi32 : Int := 2147483647

/-- `MAXPOW = 2^31 − 1` (00_scope.md R15). -/
def maxPow : Int := 2147483647

/-- `sat16` (40_qformat_alu.md R101). -/
def sat16 (sym : Bool) (v : Int) : Int := clamp v (lo16 sym) hi16

/-- `sat32` (40_qformat_alu.md R102). -/
def sat32 (sym : Bool) (v : Int) : Int := clamp v (lo32 sym) hi32

/-- `widen` (40_qformat_alu.md R104). -/
def widen (x : Int) : Int := x * 65536

/-- The raw value of `narrow`: add half of the discarded weight, then floor (40_qformat_alu.md R107). -/
def narrowRaw (v : Int) : Int := asr (v + 32768) 16

/-- `narrow` (40_qformat_alu.md R107). -/
def narrow (sym : Bool) (v : Int) : Int := sat16 sym (narrowRaw v)

/-- The raw value of `mulq31` (40_qformat_alu.md R106). -/
def mulq31Raw (a b : Int) : Int := asr (a * b) 31

/-- `mulq31` (40_qformat_alu.md R106). -/
def mulq31 (sym : Bool) (a b : Int) : Int := sat32 sym (mulq31Raw a b)

/-- The raw value of `mulq15` (40_qformat_alu.md R108). -/
def mulq15Raw (a b : Int) : Int := asr (a * b) 15

/-- `mulq15` (40_qformat_alu.md R108). -/
def mulq15 (sym : Bool) (a b : Int) : Int := sat16 sym (mulq15Raw a b)

/-- The raw value of `mac2`: the exact sum, shifted once (40_qformat_alu.md R109). -/
def mac2Raw (a b c d : Int) : Int := asr (a * b + c * d) 31

/-- `mac2` (40_qformat_alu.md R109). -/
def mac2 (sym : Bool) (a b c d : Int) : Int := sat32 sym (mac2Raw a b c d)

/-- The raw value of `msu2` (40_qformat_alu.md R109). -/
def msu2Raw (a b c d : Int) : Int := asr (a * b - c * d) 31

/-- `msu2` (40_qformat_alu.md R109). -/
def msu2 (sym : Bool) (a b c d : Int) : Int := sat32 sym (msu2Raw a b c d)

/-- `adds32` (40_qformat_alu.md R120). -/
def adds32 (sym : Bool) (x y : Int) : Int := sat32 sym (x + y)

/-- `subs32` (40_qformat_alu.md R121). -/
def subs32 (sym : Bool) (x y : Int) : Int := sat32 sym (x - y)

/-- `negs32` (40_qformat_alu.md R122). -/
def negs32 (sym : Bool) (x : Int) : Int := sat32 sym (-x)

/-- `adds16` (40_qformat_alu.md R123). -/
def adds16 (sym : Bool) (x y : Int) : Int := sat16 sym (x + y)

/-- `subs16` (40_qformat_alu.md R124). -/
def subs16 (sym : Bool) (x y : Int) : Int := sat16 sym (x - y)

/-- The raw value of `shls32` (40_qformat_alu.md R126). -/
def shls32Raw (x : Int) (s : Nat) : Int := x * ((2 ^ s : Nat) : Int)

/-- `shls32` (40_qformat_alu.md R126). -/
def shls32 (sym : Bool) (x : Int) (s : Nat) : Int := sat32 sym (shls32Raw x s)

/-- The raw value of `mulg` (40_qformat_alu.md R127). -/
def mulgRaw (x g : Int) : Int := asr (x * g) 9

/-- `mulg` (40_qformat_alu.md R127). -/
def mulg (sym : Bool) (x g : Int) : Int := sat32 sym (mulgRaw x g)

/-- The raw value of `divg`, for a divisor that is not 0 (40_qformat_alu.md R128). -/
def divgRaw (x y : Int) : Int := fdiv (x * 512) y

/-- `divg`, for a divisor that is not 0 (40_qformat_alu.md R128). -/
def divg (sym : Bool) (x y : Int) : Int := sat16 sym (divgRaw x y)

/-- The raw value of `powq31` (40_qformat_alu.md R129). -/
def powq31Raw (re im : Int) : Int := asr (re * re) 31 + asr (im * im) 31

/-- `powq31` (40_qformat_alu.md R129). -/
def powq31 (re im : Int) : Int := min maxPow (powq31Raw re im)

/-- Storing an integer into a 32-bit signed field and reading it back (00_scope.md R9). -/
def stored32 (v : Int) : Int := (BitVec.ofInt 32 v).toInt

end Sys2Proof.Machine
end

