-- ==== Sys2Proof/Machine/Framing.lean ====
section
/-! DEFINITION. The sliding-window hop buffer and the analysis window (43_framing_window.md R210 to R216). -/

namespace Sys2Proof.Machine

/-- `buffer_step` (43_framing_window.md R211): the buffer moves left by `h` and takes the hop's outputs at its tail. -/
def bufferStep (h : Nat) (buf e : List Int) : List Int := buf.drop h ++ e

/-- `window_step` (43_framing_window.md R215): the product of buffer and window, sample by sample. -/
def windowStep (sym : Bool) (buf win : List Int) : List Int := List.zipWith (mulq15 sym) buf win

end Sys2Proof.Machine
end

