-- ==== Sys2Proof/Machine/Memory.lean ====
section
/-! DEFINITION. Sparse data in canonical form, and DMEM over it: one byte, little-endian elements, runs of elements
(00_scope.md R11, 20_memory.md R61, R64). -/

namespace Sys2Proof.Machine

/-- The value at index `a`, `d` where none is listed. -/
def sparseGet {w : Nat} (d : BitVec w) : Sparse w → Nat → BitVec w
  | [], _ => d
  | (k, v) :: rest, a => if k = a then v else sparseGet d rest a

/-- Writes `v` at index `a`, keeping the canonical form: an entry equal to the default is not listed. -/
def sparseSet {w : Nat} (d : BitVec w) : Sparse w → Nat → BitVec w → Sparse w
  | [], a, v => if v = d then [] else [(a, v)]
  | (k, u) :: rest, a, v =>
    if a < k then (if v = d then (k, u) :: rest else (a, v) :: (k, u) :: rest)
    else if a = k then (if v = d then rest else (a, v) :: rest)
    else (k, u) :: sparseSet d rest a v

/-- The canonical form below a bound: indices strictly rising, each under `n`, no entry equal to the default. -/
abbrev sparseWf {w : Nat} (d : BitVec w) (n : Nat) (m : Sparse w) : Prop :=
  m.Pairwise (fun x y => x.1 < y.1) ∧ ∀ c ∈ m, c.1 < n ∧ c.2 ≠ d

/-- The elements at indices `start .. start + n - 1`. -/
def sparseRun {w : Nat} (d : BitVec w) (m : Sparse w) (start n : Nat) : List (BitVec w) :=
  (List.range n).map fun i => sparseGet d m (start + i)

/-- Writes a list of elements from index `start` on. -/
def sparsePut {w : Nat} (d : BitVec w) : Sparse w → Nat → List (BitVec w) → Sparse w
  | m, _, [] => m
  | m, start, v :: vs => sparsePut d (sparseSet d m start v) (start + 1) vs

/-- What a DMEM byte that nothing has written reads as. The spec leaves it unspecified (20_memory.md R62).
DESIGN CHOICE, unsafe: 0 (log 6). -/
def unwrittenByte : Byte := 0

/-- The DMEM byte at offset `a`. -/
def Memory.byte (m : Memory) (a : Nat) : Byte := sparseGet unwrittenByte m a

/-- DMEM with one byte written. -/
def Memory.setByte (m : Memory) (a : Nat) (b : Byte) : Memory := sparseSet unwrittenByte m a b

/-- The canonical form of a DMEM of `n` bytes. -/
abbrev Memory.wf (n : Nat) (m : Memory) : Prop := sparseWf unwrittenByte n m

/-- `MemRead(a, n)` of 00_scope.md R11: the unsigned little-endian integer of `n` bytes. -/
def memRead (m : Memory) (a : Nat) : Nat → Nat
  | 0 => 0
  | n + 1 => (Memory.byte m a).toNat + 256 * memRead m (a + 1) n

/-- `MemWrite(a, n, v)` of 00_scope.md R11: the low `n` bytes of `v`, little-endian. -/
def memWrite (m : Memory) (a : Nat) : Nat → Nat → Memory
  | 0, _ => m
  | n + 1, v => memWrite (Memory.setByte m a (BitVec.ofNat 8 v)) (a + 1) n (v / 256)

/-- `RdI16` of 00_scope.md R11. -/
def rdI16 (m : Memory) (a : Nat) : Int := (BitVec.ofNat 16 (memRead m a 2)).toInt

/-- `RdI32` of 00_scope.md R11. -/
def rdI32 (m : Memory) (a : Nat) : Int := (BitVec.ofNat 32 (memRead m a 4)).toInt

/-- `WrI16` of 00_scope.md R11. -/
def wrI16 (m : Memory) (a : Nat) (v : Int) : Memory := memWrite m a 2 (BitVec.ofInt 16 v).toNat

/-- `WrI32` of 00_scope.md R11. -/
def wrI32 (m : Memory) (a : Nat) (v : Int) : Memory := memWrite m a 4 (BitVec.ofInt 32 v).toNat

/-- The `n` int16 elements of a table from offset `a` on (20_memory.md R66). -/
def rdI16s (m : Memory) (a n : Nat) : List Int := (List.range n).map fun i => rdI16 m (a + 2 * i)

/-- The `n` int32 elements of a table from offset `a` on (20_memory.md R66). -/
def rdI32s (m : Memory) (a n : Nat) : List Int := (List.range n).map fun i => rdI32 m (a + 4 * i)

/-- Writes int16 elements from offset `a` on (20_memory.md R66). -/
def wrI16s : Memory → Nat → List Int → Memory
  | m, _, [] => m
  | m, a, v :: vs => wrI16s (wrI16 m a v) (a + 2) vs

/-- Writes int32 elements from offset `a` on (20_memory.md R66). -/
def wrI32s : Memory → Nat → List Int → Memory
  | m, _, [] => m
  | m, a, v :: vs => wrI32s (wrI32 m a v) (a + 4) vs

/-- A DMEM region: first byte and length (41_lifecycle.md R168). -/
structure Region where
  base : Nat
  len : Nat
deriving DecidableEq, Repr

/-- `inside` of 41_lifecycle.md R168, in a DMEM of `n` bytes. -/
def Region.inside (r : Region) (n : Nat) : Bool := decide (r.base + r.len ≤ n)

/-- `disjoint` of 41_lifecycle.md R168. -/
def Region.disjoint (r q : Region) : Bool := decide (r.base + r.len ≤ q.base ∨ q.base + q.len ≤ r.base)

/-- The offset lies in the region. -/
def Region.has (r : Region) (a : Nat) : Bool := decide (r.base ≤ a ∧ a < r.base + r.len)

end Sys2Proof.Machine
end

