-- ==== Sys2Proof/Machine/Operands.lean ====
section
/-! DEFINITION. How commands read their operands: the ALU operands of 10_state.md R47, the fields of the configuration
registers (R26 to R39), and the shorthands over the active configuration (00_scope.md R15). -/

namespace Sys2Proof.Machine

/-- `A = sext_64({ALU_A_HI, ALU_A_LO})`. -/
def Regs.opA (r : Regs) : Int := (r.aluAHi ++ r.aluALo).toInt

/-- `a = sext_32(ALU_A_LO)`. -/
def Regs.opa (r : Regs) : Int := r.aluALo.toInt

/-- `a16 = sext_16(ALU_A_LO[15:0])`. -/
def Regs.opa16 (r : Regs) : Int := (r.aluALo.extractLsb' 0 16).toInt

/-- `B = sext_64({ALU_B_HI, ALU_B_LO})`; no function of this revision reads it (40_qformat_alu.md R110). -/
def Regs.opB (r : Regs) : Int := (r.aluBHi ++ r.aluBLo).toInt

/-- `b = sext_32(ALU_B_LO)`. -/
def Regs.opb (r : Regs) : Int := r.aluBLo.toInt

/-- `b16 = sext_16(ALU_B_LO[15:0])`. -/
def Regs.opb16 (r : Regs) : Int := (r.aluBLo.extractLsb' 0 16).toInt

/-- `bu16 = zext_16(ALU_B_LO[15:0])`. -/
def Regs.opbu16 (r : Regs) : Int := ((r.aluBLo.extractLsb' 0 16).toNat : Int)

/-- `c = sext_32(ALU_C)`. -/
def Regs.opc (r : Regs) : Int := r.aluC.toInt

/-- `d = sext_32(ALU_D)`. -/
def Regs.opd (r : Regs) : Int := r.aluD.toInt

/-- CFG_CTRL.NS_EN (10_state.md R26). -/
def Regs.nsEn (r : Regs) : Bool := r.cfgCtrl.getLsbD 0

/-- CFG_CTRL.AGC_EN (10_state.md R26, R28). -/
def Regs.agcEn (r : Regs) : Bool := r.cfgCtrl.getLsbD 1

/-- CFG_CTRL.BF_EN (10_state.md R26, R27). -/
def Regs.bfEn (r : Regs) : Bool := r.cfgCtrl.getLsbD 2

/-- CFG_CTRL.AEC_EN (10_state.md R26, R27). -/
def Regs.aecEn (r : Regs) : Bool := r.cfgCtrl.getLsbD 3

/-- CFG_CTRL.FEAT_EN (10_state.md R26, R28). -/
def Regs.featEn (r : Regs) : Bool := r.cfgCtrl.getLsbD 4

/-- CFG_CTRL.OLA_NORM (10_state.md R26, R29). -/
def Regs.olaNorm (r : Regs) : Bool := r.cfgCtrl.getLsbD 5

/-- CFG_FRAME.FRAME_LEN (10_state.md R30). -/
def Regs.frameLen (r : Regs) : BitVec 16 := r.cfgFrame.extractLsb' 0 16

/-- CFG_FRAME.HOP_LEN (10_state.md R30). -/
def Regs.hopLen (r : Regs) : BitVec 16 := r.cfgFrame.extractLsb' 16 16

/-- The value of a base register: bits 1:0 are hardwired 0 (10_state.md R38). -/
def baseValue (stored : BitVec 30) : Word := stored ++ 0#2

/-- `F = ACT.FRAME_LEN` (00_scope.md R15). -/
def Act.F (a : Act) : Nat := a.frameLen.toNat

/-- `H = ACT.HOP_LEN` (00_scope.md R15). -/
def Act.H (a : Act) : Nat := a.hopLen.toNat

/-- `C = ACT.NUM_CHANNELS` (00_scope.md R15). -/
def Act.C (a : Act) : Nat := a.numChannels.toNat

/-- `L = log2(F)` (00_scope.md R15). -/
def Act.L (a : Act) : Nat := a.F.log2

/-- `NB = F/2 + 1` (00_scope.md R15). -/
def Act.NB (a : Act) : Nat := a.F / 2 + 1

/-- `R = F/H` (00_scope.md R15). -/
def Act.R (a : Act) : Nat := a.F / a.H

/-- The normalisation shift `nsh` (46_synthesis_hop.md R292). -/
def Act.nsh (a : Act) : Nat := if a.olaNorm then a.R.log2 else 0

/-- P_SYM_SAT of the machine (00_scope.md R14). -/
def State.sym (s : State) : Bool := s.params.symSat

/-- STATUS.BUSY (10_state.md R24). -/
def State.busy (s : State) : Bool := s.run.isSome

/-- The host has raced the running command (70_reset_and_hazards.md R346). -/
def State.raced (s : State) : Bool :=
  match s.run with
  | some r => r.raced
  | none => false

end Sys2Proof.Machine
end

