-- ==== Sys2Proof/Machine/Ops.lean ====
section
/-! DEFINITION. The shared operations of commands: `finish` (00_scope.md R12), the ALU write-back (40_qformat_alu.md
R110), the memory planner and the region and configuration checks (41_lifecycle.md R163, R167, R168; 46_synthesis_hop.md
R296), the latch of ACT (10_state.md R44), and the start of a command (10_state.md R25, 70_reset_and_hazards.md R346).
The core takes no exception (60_exceptions.md R321): `finish` with an error code is all that an error does (R314). -/

namespace Sys2Proof.Machine

/-- What a meaning answers. -/
abbrev Result := Host.Outcome State Fault Refusal

/-- `finish(code)` (00_scope.md R12): LAST_STATUS takes the code and BUSY becomes 0. -/
def State.finish (code : StatusCode) (s : State) : State := { s with lastStatus := code, run := none }

/-- The common part of the ALU functions (40_qformat_alu.md R110): the result in two's complement, both flags, OK. -/
def aluResult (r : Int) (sat dz : Bool) (s : State) : Result :=
  .next (State.finish .ok
    { s with
      aluRLo := (BitVec.ofInt 64 r).extractLsb' 0 32
      aluRHi := (BitVec.ofInt 64 r).extractLsb' 32 32
      aluSat := sat
      aluDz := dz })

/-- `{ALU_R_HI, ALU_R_LO}` (10_state.md R48). -/
def State.aluR (s : State) : BitVec 64 := s.aluRHi ++ s.aluRLo

/-- The scratch requirement `SB(f, c, ns)` (41_lifecycle.md R163). -/
def scratchBytes (f c : Nat) (ns : Bool) : Nat :=
  2 * f + 2 * (4 * f) + (if ns then 4 * c * (f / 2 + 1) else 0)

/-- SCRATCH_BYTES of the current registers (10_state.md R41). -/
def Regs.scratchBytes (r : Regs) : Nat :=
  Sys2Proof.Machine.scratchBytes r.frameLen.toNat r.cfgChan.toNat r.nsEn

/-- `SB` of the active configuration (41_lifecycle.md R163). -/
def Act.SB (a : Act) : Nat := scratchBytes a.F a.C a.nsEn

/-- The frame, hop and channel conditions 1 to 3 of 41_lifecycle.md R167. -/
def frameOk (p : Params) (f h c : Nat) : Bool :=
  decide (2 ≤ f ∧ f ≤ p.maxFrameLen ∧ 2 ^ f.log2 = f) &&
  decide (1 ≤ h ∧ f % h = 0 ∧ 2 * h ≤ f) &&
  decide (1 ≤ c ∧ c ≤ p.maxChannels)

/-- `valid_config()` (41_lifecycle.md R167). -/
def validConfig (p : Params) (r : Regs) : Bool :=
  frameOk p r.frameLen.toNat r.hopLen.toNat r.cfgChan.toNat &&
  (!r.nsEn || decide (1 ≤ r.nsMintrack.toNat)) &&
  (!r.agcEn && !r.featEn)

/-- The window table of a frame length at a base (20_memory.md R63). -/
def winRegion (base f : Nat) : Region := ⟨base, 2 * f⟩

/-- A twiddle table of a frame length at a base (20_memory.md R63). -/
def twiddleRegion (base f : Nat) : Region := ⟨base, 4 * (f / 2)⟩

/-- `init_regions_ok` of 41_lifecycle.md R168, with the four bases given. -/
def tableRegionsOk (n f sb win twc tws scr : Nat) : Bool :=
  (winRegion win f).inside n && (twiddleRegion twc f).inside n && (twiddleRegion tws f).inside n &&
  (Region.mk scr sb).inside n &&
  (Region.mk scr sb).disjoint (winRegion win f) && (Region.mk scr sb).disjoint (twiddleRegion twc f) &&
  (Region.mk scr sb).disjoint (twiddleRegion tws f)

/-- `init_regions_ok(sb)` (41_lifecycle.md R168) of the registers. -/
def initRegionsOk (p : Params) (r : Regs) : Bool :=
  tableRegionsOk p.dmemBytes r.frameLen.toNat r.scratchBytes (baseValue r.winBase).toNat (baseValue r.twcBase).toNat
    (baseValue r.twsBase).toNat (baseValue r.scratchBase).toNat

/-- One of the four bases INIT latches is null (41_lifecycle.md R166, 60_exceptions.md R313). -/
def Regs.initNull (r : Regs) : Bool :=
  decide (baseValue r.winBase = 0 ∨ baseValue r.twcBase = 0 ∨ baseValue r.twsBase = 0 ∨ baseValue r.scratchBase = 0)

/-- IN_BASE or OUT_BASE is null (46_synthesis_hop.md R300, 60_exceptions.md R313). -/
def Regs.hopNull (r : Regs) : Bool := decide (baseValue r.inBase = 0 ∨ baseValue r.outBase = 0)

/-- The latch of the registers into ACT (10_state.md R44). -/
def Regs.latch (r : Regs) : Act where
  frameLen := r.frameLen
  hopLen := r.hopLen
  numChannels := r.cfgChan
  nsEn := r.nsEn
  bfEn := r.bfEn
  aecEn := r.aecEn
  olaNorm := r.olaNorm
  sampleRate := r.cfgFs
  dcAlpha := r.dcAlpha
  peAlpha := r.peAlpha
  oversub := r.nsOversub
  floor := r.nsFloor
  mintrack := r.nsMintrack
  winBase := baseValue r.winBase
  twcBase := baseValue r.twcBase
  twsBase := baseValue r.twsBase
  scratchBase := baseValue r.scratchBase

/-- The region IN of a hop (20_memory.md R63). -/
def inRegion (a : Act) (r : Regs) : Region := ⟨(baseValue r.inBase).toNat, 2 * a.C * a.H⟩

/-- The region OUT of a hop (20_memory.md R63). -/
def outRegion (a : Act) (r : Regs) : Region := ⟨(baseValue r.outBase).toNat, 2 * a.H⟩

/-- The region WIN (20_memory.md R63). -/
def Act.winRegion (a : Act) : Region := Sys2Proof.Machine.winRegion a.winBase.toNat a.F

/-- The region TWC (20_memory.md R63). -/
def Act.twcRegion (a : Act) : Region := twiddleRegion a.twcBase.toNat a.F

/-- The region TWS (20_memory.md R63). -/
def Act.twsRegion (a : Act) : Region := twiddleRegion a.twsBase.toNat a.F

/-- The region SCR (20_memory.md R63). -/
def Act.scrRegion (a : Act) : Region := ⟨a.scratchBase.toNat, a.SB⟩

/-- `hop_regions_ok()` (46_synthesis_hop.md R296). -/
def hopRegionsOk (p : Params) (a : Act) (r : Regs) : Bool :=
  (inRegion a r).inside p.dmemBytes && (outRegion a r).inside p.dmemBytes &&
  (outRegion a r).disjoint (inRegion a r) && (outRegion a r).disjoint a.winRegion &&
  (outRegion a r).disjoint a.twcRegion && (outRegion a r).disjoint a.twsRegion &&
  (outRegion a r).disjoint a.scrRegion && (inRegion a r).disjoint a.scrRegion

/-- The regions of ACT lie inside DMEM, as INIT checked them (41_lifecycle.md R168). -/
def actInside (p : Params) (a : Act) : Bool :=
  a.winRegion.inside p.dmemBytes && a.twcRegion.inside p.dmemBytes && a.twsRegion.inside p.dmemBytes &&
  a.scrRegion.inside p.dmemBytes

/-- PROCESS_HOP passes its checks with the registers `r` and runs the hop (46_synthesis_hop.md R300). -/
def hopRuns (s : State) (r : Regs) : Bool :=
  decide (s.estate = .ready) && !r.hopNull && hopRegionsOk s.params s.act r

/-- A CMD write that starts a command (10_state.md R25): BUSY becomes 1 and the engine holds the word and a snapshot of
the registers (70_reset_and_hazards.md R346); `left` host operations pass before its `finish` (R351). -/
def State.startCommand (w : Word) (left : Nat) (s : State) : State :=
  { s with run := some { word := w, snap := s.regs, raced := false, left := left } }

/-- The registers as the running command sees them (70_reset_and_hazards.md R346). -/
def State.withSnapshot (r : Running) (s : State) : State := { s with regs := r.snap }

/-- The registers as the host has left them, after a command (no command writes them, 70_reset_and_hazards.md R345). -/
def State.withRegs (regs : Regs) (s : State) : State := { s with regs := regs }

/-- A next state changed by `f`; a stop stays as it is. -/
def onNext (f : State → State) (o : Result) : Result :=
  match o with
  | .next s => .next (f s)
  | .fault r => .fault r
  | .refused r => .refused r

end Sys2Proof.Machine
end

