-- ==== Sys2Proof/Machine/Prefilter.lean ====
section
/-! DEFINITION. The per-channel pre-filters: DC removal and pre-emphasis (42_prefilters.md R190 to R199). -/

namespace Sys2Proof.Machine

/-- The state of one channel's two filters (10_state.md R52). -/
structure Pre where
  /-- DC_X -/
  dcX : Int
  /-- DC_Y -/
  dcY : Int
  /-- PE_X -/
  peX : Int
deriving DecidableEq, Repr

/-- The new `y` of DC removal (42_prefilters.md R191): exact, shifted with floor, saturated once. -/
def dcNext (sym : Bool) (alpha xw xPrev yPrev : Int) : Int :=
  sat32 sym ((xw - xPrev) + asr (alpha * yPrev) 31)

/-- `dc_step` (42_prefilters.md R191): the output and the filter's new state. -/
def dcStep (sym : Bool) (alpha : Int) (st : Pre) (x : Int) : Int × Pre :=
  let xw := widen x
  let y := dcNext sym alpha xw st.dcX st.dcY
  (narrow sym y, { st with dcX := xw, dcY := y })

/-- The output of pre-emphasis (42_prefilters.md R195): one accumulator, narrowed once. -/
def peOut (sym : Bool) (alpha d xPrev : Int) : Int := sat16 sym (asr (d * 32768 - alpha * xPrev) 15)

/-- `pe_step` (42_prefilters.md R195): the output and the filter's new state, which keeps the filter's input. -/
def peStep (sym : Bool) (alpha : Int) (st : Pre) (d : Int) : Int × Pre :=
  (peOut sym alpha d st.peX, { st with peX := d })

/-- One sample through both filters (42_prefilters.md R199). -/
def preStep (sym : Bool) (dcAlpha peAlpha : Int) (st : Pre) (x : Int) : Int × Pre :=
  let (d, st1) := dcStep sym dcAlpha st x
  peStep sym peAlpha st1 d

/-- A hop's samples of one channel in input order (42_prefilters.md R199): the pre-emphasis outputs and the filters'
state after the last sample. -/
def prefilter (sym : Bool) (dcAlpha peAlpha : Int) : Pre → List Int → List Int × Pre
  | st, [] => ([], st)
  | st, x :: xs =>
    let (e, st1) := preStep sym dcAlpha peAlpha st x
    let (es, st2) := prefilter sym dcAlpha peAlpha st1 xs
    (e :: es, st2)

end Sys2Proof.Machine
end

