-- ==== Sys2Proof/Machine/Transform.lean ====
section
/-! DEFINITION. The block-scaled radix-2 transform (44_transform.md R230 to R243), over a list of (RE, IM) pairs. The
engine's element accesses to the scratch are not observable one by one (20_memory.md R67): the arrays are written to
DMEM as they stand at the end of the channel (log 17). -/

namespace Sys2Proof.Machine

/-- One element of the transform buffers: RE and IM (44_transform.md). -/
abbrev Cx := Int × Int

/-- The element at index `n`. -/
def cxAt (z : List Cx) (n : Nat) : Cx := z.getD n (0, 0)

/-- The transform load (44_transform.md R231). -/
def loadFrame (xw : List Int) : List Cx := xw.map fun x => (widen x, 0)

/-- `bitrev_L(i)` (00_scope.md R10). -/
def bitrev : Nat → Nat → Nat
  | 0, _ => 0
  | n + 1, i => (i % 2) * 2 ^ n + bitrev n (i / 2)

/-- The exchange of two elements of both arrays. -/
def swapAt (z : List Cx) (i j : Nat) : List Cx := (z.set i (cxAt z j)).set j (cxAt z i)

/-- `bitrev_permute` (44_transform.md R233), over `2^L` elements. -/
def bitrevPermute (L : Nat) (z : List Cx) : List Cx :=
  (List.range (2 ^ L)).foldl (fun z i => if i < bitrev L i then swapAt z i (bitrev L i) else z) z

/-- The block scaling before a stage (44_transform.md R234). -/
def blockScale (z : List Cx) : List Cx := z.map fun v => (asr v.1 1, asr v.2 1)

/-- The rotated element of a butterfly: the multiplication by `wr − j·wi`, or by `wr + j·wi` in the inverse
(44_transform.md R235). -/
def rotate (sym inverse : Bool) (wr wi : Int) (v : Cx) : Cx :=
  if inverse then (msu2 sym v.1 wr v.2 wi, mac2 sym v.2 wr v.1 wi)
  else (mac2 sym v.1 wr v.2 wi, msu2 sym v.2 wr v.1 wi)

/-- `butterfly` (44_transform.md R235): both results come from the values read at its start. -/
def butterfly (sym inverse : Bool) (wr wi : Int) (p q : Nat) (z : List Cx) : List Cx :=
  let a := cxAt z p
  let t := rotate sym inverse wr wi (cxAt z q)
  (z.set q (subs32 sym a.1 t.1, subs32 sym a.2 t.2)).set p (adds32 sym a.1 t.1, adds32 sym a.2 t.2)

/-- One group of a stage: its butterflies for `k < m` from the group start `g` (44_transform.md R235). -/
def butterflyGroup (sym inverse : Bool) (cos sin : List Int) (m stride g : Nat) (z : List Cx) : List Cx :=
  (List.range m).foldl
    (fun z k =>
      butterfly sym inverse (cos.getD (k * stride) 0) (sin.getD (k * stride) 0) (g + k) (g + k + m) z) z

/-- Stage `s` of a transform of `2^L` elements, with its block scaling (44_transform.md R234 to R236). -/
def stage (sym inverse : Bool) (cos sin : List Int) (L s : Nat) (z : List Cx) : List Cx :=
  (List.range (2 ^ L / (2 * 2 ^ (s - 1)))).foldl
    (fun z i => butterflyGroup sym inverse cos sin (2 ^ (s - 1)) (2 ^ L / 2 ^ s) (i * (2 * 2 ^ (s - 1))) z)
    (blockScale z)

/-- `transform(inverse)` (44_transform.md R236) of `2^L` elements: the permutation, then stages 1 to L. -/
def transform (sym inverse : Bool) (cos sin : List Int) (L : Nat) (z : List Cx) : List Cx :=
  (List.range L).foldl (fun z s => stage sym inverse cos sin L (s + 1) z) (bitrevPermute L z)

/-- `hermitian_rebuild` (44_transform.md R241) of a frame of `f` elements. -/
def hermitianRebuild (sym : Bool) (f : Nat) (z : List Cx) : List Cx :=
  (List.range (f / 2 - 1)).foldl
    (fun z i => z.set (f - (i + 1)) ((cxAt z (i + 1)).1, negs32 sym (cxAt z (i + 1)).2)) z

/-- The rescale of both arrays by the forward transform's shift count (44_transform.md R243). -/
def rescale (sym : Bool) (lf : Nat) (z : List Cx) : List Cx :=
  z.map fun v => (shls32 sym v.1 lf, shls32 sym v.2 lf)

/-- The narrowed frame `y` of the rescaled transform (44_transform.md R243). -/
def narrowFrame (sym : Bool) (z : List Cx) : List Int := z.map fun v => narrow sym v.1

end Sys2Proof.Machine
end

