-- ==== Sys2Proof/Machine/Suppressor.lean ====
section
/-! DEFINITION. The adaptive spectral noise suppressor (45_noise_suppressor.md R260 to R272). -/

namespace Sys2Proof.Machine

/-- One channel's suppressor state over the bins of the active frame (45_noise_suppressor.md R260). -/
structure Ns where
  /-- MIN[c][k], k < NB -/
  min : List Int
  /-- EST[c][k], k < NB -/
  est : List Int
  /-- NS_TPA[c] -/
  tpa : Int
  /-- NS_CNT[c] -/
  cnt : Nat
deriving DecidableEq, Repr

/-- The settings of the suppressor: ACT.OVERSUB, ACT.FLOOR, ACT.MINTRACK (10_state.md R44). -/
structure NsCfg where
  oversub : Int
  floor : Int
  mintrack : Nat
deriving DecidableEq, Repr

/-- The bin powers `P[k]`, `k < nb` (45_noise_suppressor.md R261). -/
def binPowers (nb : Nat) (z : List Cx) : List Int := (z.take nb).map fun v => powq31 v.1 v.2

/-- The minimum update (45_noise_suppressor.md R262). -/
def minUpdate (p mn : List Int) : List Int := List.zipWith (fun p m => if p < m then p else m) p mn

/-- `avg`, the floor of the mean power (45_noise_suppressor.md R263). -/
def hopAverage (nb : Nat) (p : List Int) : Int := fdiv p.sum nb

/-- `peak`, the largest power; powers are at least 0 (45_noise_suppressor.md R263). -/
def hopPeak (p : List Int) : Int := p.foldl max 0

/-- `thr`, 1.5 times the pre-update average estimate, with floor (45_noise_suppressor.md R264). -/
def speechThreshold (nb : Nat) (tpa : Int) : Int := fdiv tpa nb + asr (fdiv tpa nb) 1

/-- The speech flag: average and peak both exceed the threshold (45_noise_suppressor.md R264). -/
def speechLike (nb : Nat) (p : List Int) (tpa : Int) : Bool :=
  decide (speechThreshold nb tpa < hopAverage nb p ∧ speechThreshold nb tpa < hopPeak p)

/-- The adaptation shift: rate 1/16 on a speech-like hop, 1/8 otherwise (45_noise_suppressor.md R265). -/
def rateShift (speech : Bool) : Nat := if speech then 4 else 3

/-- The new estimate of one bin, with the minimum as updated by this hop (45_noise_suppressor.md R265). -/
def estUpdate (sh : Nat) (mn est : Int) : Int :=
  min maxPow (est - asr est sh + asr (asr (mn + est) 1) sh)

/-- The gain of one bin, with the estimate as updated by this hop (45_noise_suppressor.md R268). -/
def binGain (sym : Bool) (cfg : NsCfg) (p est : Int) : Int :=
  if cfg.floor < p then divg sym (max (p - asr (cfg.oversub * est) 9) cfg.floor) p else 0

/-- The gain applied to one bin (45_noise_suppressor.md R269). -/
def applyGain (sym : Bool) (v : Cx) (g : Int) : Cx := (mulg sym v.1 g, mulg sym v.2 g)

/-- The frame counter, held in 32 bits, after one more hop (45_noise_suppressor.md R270). -/
def countUp (cnt : Nat) : Nat := (cnt + 1) % 4294967296

/-- What a suppressor step gives: the channel's new state, the gains, and the transform buffers. -/
structure NsOut where
  ns : Ns
  gain : List Int
  z : List Cx
deriving DecidableEq, Repr

/-- `ns_step(c)` (45_noise_suppressor.md R271) over `nb` bins: bins from `nb` on are not touched. -/
def nsStep (sym : Bool) (cfg : NsCfg) (nb : Nat) (st : Ns) (z : List Cx) : NsOut :=
  let p := binPowers nb z
  let mn := minUpdate p st.min
  let sh := rateShift (speechLike nb p st.tpa)
  let est := List.zipWith (estUpdate sh) mn st.est
  let gain := List.zipWith (binGain sym cfg) p est
  let full := decide (cfg.mintrack ≤ countUp st.cnt)
  { ns :=
      { min := if full then mn.map fun _ => maxPow else mn
        est := est
        tpa := est.sum
        cnt := if full then 0 else countUp st.cnt }
    gain := gain
    z := List.zipWith (applyGain sym) (z.take nb) gain ++ z.drop nb }

end Sys2Proof.Machine
end

