-- ==== Sys2Proof/Machine/Synthesis.lean ====
section
/-! DEFINITION. Overlap-add synthesis and the channel combination (46_synthesis_hop.md R290 to R295). -/

namespace Sys2Proof.Machine

/-- The accumulation of a frame into the accumulator, an int32 array (46_synthesis_hop.md R293, 00_scope.md R9).
DESIGN CHOICE, unsafe: a sum outside int32 keeps its low 32 bits. R291's bound rules such a sum out but on an accumulator
that a raced hop drew (70_reset_and_hazards.md R346), where 40_qformat_alu.md R130 (nothing wraps) and R9 (a store
truncates) leave it open (log 20). -/
def olaAdd (ola y : List Int) : List Int := List.zipWith (fun a b => stored32 (a + b)) ola y

/-- `ola_step` (46_synthesis_hop.md R293): the channel's output hop, and the accumulator moved left by `h` with zero
fill. -/
def olaStep (sym : Bool) (h nsh : Nat) (ola y : List Int) : List Int × List Int :=
  let acc := olaAdd ola y
  ((acc.take h).map fun v => sat16 sym (asr v nsh), acc.drop h ++ List.replicate (acc.take h).length 0)

/-- The sum over the channels of their output sample `i` (46_synthesis_hop.md R295). -/
def channelSum (outs : List (List Int)) (i : Nat) : Int := (outs.map fun o => o.getD i 0).sum

/-- The channel combination (46_synthesis_hop.md R295): the mean over `c` channels, truncated toward zero. -/
def combine (c h : Nat) (outs : List (List Int)) : List Int :=
  (List.range h).map fun i => tdiv (channelSum outs i) c

end Sys2Proof.Machine
end

