-- ==== Sys2Proof/Machine/Hop.lean ====
section
/-! DEFINITION. PROCESS_HOP (46_synthesis_hop.md R296 to R304): the channels of a hop, their state in the state window
(10_state.md R53), the scratch (41_lifecycle.md R170), the output hop, and the values a raced hop leaves
(70_reset_and_hazards.md R346). -/

namespace Sys2Proof.Machine

/-- The value an unlisted MIN element has: MAXPOW (10_state.md R54). -/
def minDefault : Word := 0x7FFFFFFF#32

/-- One channel's persistent state, as integers (10_state.md R52). -/
structure Chan where
  pre : Pre
  buf : List Int
  ola : List Int
  ns : Ns
deriving DecidableEq, Repr

/-- The state of channel `c` in the state window (10_state.md R53): BUF and OLA with the stride `Fm`, MIN and EST with
the active `NB`. -/
def loadChan (p : Params) (a : Act) (w : Window) (c : Nat) : Chan where
  pre :=
    { dcX := (sparseGet 0 w.dcX c).toInt
      dcY := (sparseGet 0 w.dcY c).toInt
      peX := (sparseGet 0 w.peX c).toInt }
  buf := (sparseRun 0 w.buf (c * p.maxFrameLen) a.F).map BitVec.toInt
  ola := (sparseRun 0 w.ola (c * p.maxFrameLen) a.F).map BitVec.toInt
  ns :=
    { min := (sparseRun minDefault w.min (c * a.NB) a.NB).map BitVec.toInt
      est := (sparseRun 0 w.est (c * a.NB) a.NB).map BitVec.toInt
      tpa := ((sparseGet 0 w.nsTpa c).toNat : Int)
      cnt := (sparseGet 0 w.nsCnt c).toNat }

/-- The filters, buffer and accumulator of channel `c` written back (10_state.md R53). -/
def storeFrame (p : Params) (w : Window) (c : Nat) (ch : Chan) : Window :=
  { w with
    dcX := sparseSet 0 w.dcX c (BitVec.ofInt 32 ch.pre.dcX)
    dcY := sparseSet 0 w.dcY c (BitVec.ofInt 32 ch.pre.dcY)
    peX := sparseSet 0 w.peX c (BitVec.ofInt 32 ch.pre.peX)
    buf := sparsePut 0 w.buf (c * p.maxFrameLen) (ch.buf.map (BitVec.ofInt 16))
    ola := sparsePut 0 w.ola (c * p.maxFrameLen) (ch.ola.map (BitVec.ofInt 32)) }

/-- The suppressor state of channel `c` written back (10_state.md R53). -/
def storeNs (a : Act) (w : Window) (c : Nat) (ns : Ns) : Window :=
  { w with
    nsCnt := sparseSet 0 w.nsCnt c (BitVec.ofNat 32 ns.cnt)
    nsTpa := sparseSet 0 w.nsTpa c (BitVec.ofInt 64 ns.tpa)
    min := sparsePut minDefault w.min (c * a.NB) (ns.min.map (BitVec.ofInt 32))
    est := sparsePut 0 w.est (c * a.NB) (ns.est.map (BitVec.ofInt 32)) }

/-- The state of channel `c` written back; the suppressor's only when it is enabled (45_noise_suppressor.md R272). -/
def storeChan (p : Params) (a : Act) (w : Window) (c : Nat) (ch : Chan) : Window :=
  if a.nsEn then storeNs a (storeFrame p w c ch) c ch.ns else storeFrame p w c ch

/-- The tables a hop reads from DMEM (43_framing_window.md R215, 44_transform.md R232). -/
structure Tables where
  win : List Int
  cos : List Int
  sin : List Int
deriving DecidableEq, Repr

/-- The tables of the active configuration. -/
def readTables (a : Act) (m : Memory) : Tables where
  win := rdI16s m a.winBase.toNat a.F
  cos := rdI32s m a.twcBase.toNat (a.F / 2)
  sin := rdI32s m a.twsBase.toNat (a.F / 2)

/-- The input samples of channel `c`: sample `i` is element `i·C + c` of the input hop (46_synthesis_hop.md R301). -/
def readInput (a : Act) (r : Regs) (m : Memory) (c : Nat) : List Int :=
  (List.range a.H).map fun i => rdI16 m ((baseValue r.inBase).toNat + 2 * (i * a.C + c))

/-- The suppressor's settings (10_state.md R44). -/
def Act.nsCfg (a : Act) : NsCfg where
  oversub := (a.oversub.toNat : Int)
  floor := (a.floor.toNat : Int)
  mintrack := a.mintrack.toNat

/-- What one channel of a hop gives: its new state, its scratch contents, its output. -/
structure ChanOut where
  ch : Chan
  xw : List Int
  z : List Cx
  gain : List Int
  out : List Int
deriving DecidableEq, Repr

/-- The suppressor between the forward transform and the Hermitian rebuild, when enabled (46_synthesis_hop.md R300,
45_noise_suppressor.md R272). -/
def suppress (sym : Bool) (a : Act) (ns : Ns) (z : List Cx) : NsOut :=
  if a.nsEn then nsStep sym a.nsCfg a.NB ns z else { ns := ns, gain := [], z := z }

/-- The spectral stages of a channel, from the windowed frame to the rescaled inverse transform and the gains
(46_synthesis_hop.md R300, 44_transform.md R231 to R243). -/
def spectral (sym : Bool) (a : Act) (t : Tables) (ns : Ns) (xw : List Int) : NsOut :=
  let fwd := transform sym false t.cos t.sin a.L (loadFrame xw)
  let sup := suppress sym a ns fwd
  { sup with
    z := rescale sym a.L (transform sym true t.cos t.sin a.L (hermitianRebuild sym a.F sup.z)) }

/-- One channel of a hop, stages 4.3 to 4.9 (46_synthesis_hop.md R300). -/
def chanStep (sym : Bool) (a : Act) (t : Tables) (ch : Chan) (xs : List Int) : ChanOut :=
  let (e, pre) := prefilter sym a.dcAlpha.toInt a.peAlpha.toInt ch.pre xs
  let buf := bufferStep a.H ch.buf e
  let xw := windowStep sym buf t.win
  let sp := spectral sym a t ch.ns xw
  let (out, ola) := olaStep sym a.H a.nsh ch.ola (narrowFrame sym sp.z)
  { ch := { pre := pre, buf := buf, ola := ola, ns := sp.ns }
    xw := xw
    z := sp.z
    gain := sp.gain
    out := out }

/-- The scratch contents of a channel: XW, RE, IM, and its row of GAIN (41_lifecycle.md R170). -/
def writeScratch (a : Act) (m : Memory) (c : Nat) (o : ChanOut) : Memory :=
  let base := a.scratchBase.toNat
  let m1 := wrI16s m base o.xw
  let m2 := wrI32s m1 (base + 2 * a.F) (o.z.map Prod.fst)
  let m3 := wrI32s m2 (base + 6 * a.F) (o.z.map Prod.snd)
  wrI32s m3 (base + 10 * a.F + 4 * (c * a.NB)) o.gain

/-- The progress of a hop over its channels: the state window, DMEM, and the outputs so far. -/
structure HopAcc where
  win : Window
  dmem : Memory
  outs : List (List Int)
deriving DecidableEq, Repr

/-- Channel `c` of a hop (46_synthesis_hop.md R300). -/
def hopChannel (p : Params) (a : Act) (r : Regs) (acc : HopAcc) (c : Nat) : HopAcc :=
  let o := chanStep p.symSat a (readTables a acc.dmem) (loadChan p a acc.win c) (readInput a r acc.dmem c)
  { win := storeChan p a acc.win c o.ch
    dmem := writeScratch a acc.dmem c o
    outs := acc.outs ++ [o.out] }

/-- All channels of a hop, channel 0 first (42_prefilters.md R199, 46_synthesis_hop.md R300). -/
def hopChannels (p : Params) (a : Act) (r : Regs) (w : Window) (m : Memory) : HopAcc :=
  (List.range a.C).foldl (hopChannel p a r) { win := w, dmem := m, outs := [] }

/-- The effect of a hop whose checks pass (46_synthesis_hop.md R300): the channels, the output hop, FFT_SHIFT, OK. -/
def hopEffect (s : State) : State :=
  let acc := hopChannels s.params s.act s.regs s.win s.dmem
  State.finish .ok
    { s with
      win := acc.win
      dmem := wrI16s acc.dmem (outRegion s.act s.regs).base (combine s.act.C s.act.H acc.outs)
      fftShift := BitVec.ofNat 5 s.act.L }

/-- Free values for the DMEM bytes of a region (70_reset_and_hazards.md R346). -/
def drawRegion (d : Nat) (m : Memory) (g : Region) : Memory :=
  (List.range g.len).foldl (fun m i => Memory.setByte m (g.base + i) (Config.freeDmemByte d (g.base + i))) m

/-- A free element of `w` bits. -/
def drawElem (w d : Nat) (arr : WindowArray) (i : Nat) : BitVec w := (Config.freeElem d arr i).setWidth w

/-- Free elements `start .. start + n - 1` of an array. -/
def drawRun (w d : Nat) (arr : WindowArray) (start n : Nat) : List (BitVec w) :=
  (List.range n).map fun i => drawElem w d arr (start + i)

/-- A free int16, sign-extended: the type of PE_X (10_state.md R53), for a raced hop (log 13). -/
def drawPeX (d c : Nat) : Word := (drawElem 16 d .peX c).signExtend 32

/-- A free frame counter in 0..65535: the type of NS_CNT (10_state.md R53), for a raced hop (log 13). -/
def drawCnt (d c : Nat) : Word := (drawElem 16 d .nsCnt c).setWidth 32

/-- Free powers, int32 at least 0: the type of MIN and EST (10_state.md R53), for a raced hop (log 13). -/
def drawPowers (d : Nat) (arr : WindowArray) (start n : Nat) : List Word :=
  (drawRun 31 d arr start n).map fun v => v.setWidth 32

/-- The elements a hop writes for channel `c`, each a free value of its type (70_reset_and_hazards.md R346). -/
def drawChan (p : Params) (a : Act) (d : Nat) (w : Window) (c : Nat) : Window :=
  let w1 : Window :=
    { w with
      dcX := sparseSet 0 w.dcX c (drawElem 32 d .dcX c)
      dcY := sparseSet 0 w.dcY c (drawElem 32 d .dcY c)
      peX := sparseSet 0 w.peX c (drawPeX d c)
      buf := sparsePut 0 w.buf (c * p.maxFrameLen) (drawRun 16 d .buf (c * p.maxFrameLen) a.F)
      ola := sparsePut 0 w.ola (c * p.maxFrameLen) (drawRun 32 d .ola (c * p.maxFrameLen) a.F) }
  if a.nsEn then
    { w1 with
      nsCnt := sparseSet 0 w.nsCnt c (drawCnt d c)
      nsTpa := sparseSet 0 w.nsTpa c (drawElem 64 d .nsTpa c)
      min := sparsePut minDefault w.min (c * a.NB) (drawPowers d .min (c * a.NB) a.NB)
      est := sparsePut 0 w.est (c * a.NB) (drawPowers d .est (c * a.NB) a.NB) }
  else w1

/-- The effect of a hop the host has raced (70_reset_and_hazards.md R346): every value it writes is free; ESTATE and
the status code are as for any hop (log 13). -/
def hopRaced (s : State) : State :=
  State.finish .ok
    { s with
      win := (List.range s.act.C).foldl (drawChan s.params s.act s.draws) s.win
      dmem := drawRegion s.draws (drawRegion s.draws s.dmem s.act.scrRegion) (outRegion s.act s.regs)
      fftShift := (Config.freeReg s.draws 0x054).setWidth 5
      draws := s.draws + 1 }

/-- PROCESS_HOP (46_synthesis_hop.md R300). The fault is out of reach of any run: see `Fault.engineOutsideDmem`. -/
def execProcessHop (s : State) : Result :=
  if s.estate ≠ .ready then .next (s.finish .notInitialised)
  else if s.regs.hopNull then .next (s.finish .nullArg)
  else if !hopRegionsOk s.params s.act s.regs then .next (s.finish .badRegion)
  else if !actInside s.params s.act then .fault .engineOutsideDmem
  else if s.raced then .next (hopRaced s)
  else .next (hopEffect s)

end Sys2Proof.Machine
end

