-- ==== Sys2Proof/Machine/RegisterFile.lean ====
section
/-! DEFINITION. The register window as the host reads and writes it (10_state.md R22 to R49, R58;
70_reset_and_hazards.md R345). -/

namespace Sys2Proof.Machine

/-- ESTATE's encoding in STATUS[2:1] (10_state.md R43). -/
def EState.bits : EState → BitVec 2
  | .uninitialised => 0#2
  | .ready => 1#2
  | .freed => 2#2

/-- A status code's number (60_exceptions.md R310). -/
def StatusCode.bits : StatusCode → BitVec 4
  | .ok => 0#4
  | .nullArg => 1#4
  | .invalidConfig => 2#4
  | .scratchTooSmall => 3#4
  | .notInitialised => 4#4
  | .badRegion => 5#4
  | .illegalCmd => 6#4

/-- VERSION (10_state.md R23). -/
def versionWord (p : Params) : Word := 0#8 ++ p.versionMajor ++ p.versionMinor ++ p.versionPatch

/-- STATUS as the host reads it (10_state.md R24). -/
def State.statusWord (s : State) : Word :=
  (0#23 ++ BitVec.ofBool s.ovr ++ s.lastStatus.bits ++ 0#1 ++ s.estate.bits ++ BitVec.ofBool s.busy : BitVec 32)

/-- ALU_FLAGS as the host reads it (10_state.md R49). -/
def State.flagsWord (s : State) : Word := (0#30 ++ BitVec.ofBool s.aluDz ++ BitVec.ofBool s.aluSat : BitVec 32)

/-- The registers that read a free value while BUSY = 1 (70_reset_and_hazards.md R345). -/
def busyDrawn (off : Nat) : Bool := decide (off = 0x054 ∨ off = 0x078 ∨ off = 0x07C ∨ off = 0x080)

/-- A free value of the type of the register at an offset: FFT_SHIFT has 5 bits, ALU_FLAGS 2 (70_reset_and_hazards.md
R345). -/
def drawReg (d off : Nat) : Word :=
  if off = 0x054 then ((Config.freeReg d off).setWidth 5).setWidth 32
  else if off = 0x080 then ((Config.freeReg d off).setWidth 2).setWidth 32
  else Config.freeReg d off

/-- A 32-bit read of the register at an offset while BUSY = 0 (10_state.md R22). CMD and every unlisted offset read 0
(R25, R58). -/
def State.readReg (s : State) (off : Nat) : Word :=
  match off with
  | 0x000 => versionWord s.params
  | 0x004 => s.statusWord
  | 0x00C => s.regs.cfgCtrl.setWidth 32
  | 0x010 => s.regs.cfgFrame
  | 0x014 => s.regs.cfgChan.setWidth 32
  | 0x018 => s.regs.cfgFs
  | 0x01C => s.regs.dcAlpha
  | 0x020 => s.regs.peAlpha.setWidth 32
  | 0x024 => s.regs.nsOversub.setWidth 32
  | 0x028 => s.regs.nsFloor.setWidth 32
  | 0x02C => s.regs.nsMintrack.setWidth 32
  | 0x030 => baseValue s.regs.winBase
  | 0x034 => baseValue s.regs.twcBase
  | 0x038 => baseValue s.regs.twsBase
  | 0x03C => baseValue s.regs.scratchBase
  | 0x040 => s.regs.scratchSize
  | 0x044 => baseValue s.regs.inBase
  | 0x048 => baseValue s.regs.outBase
  | 0x04C => BitVec.ofNat 32 s.params.stateBytes
  | 0x050 => BitVec.ofNat 32 s.regs.scratchBytes
  | 0x054 => s.fftShift.setWidth 32
  | 0x060 => s.regs.aluALo
  | 0x064 => s.regs.aluAHi
  | 0x068 => s.regs.aluBLo
  | 0x06C => s.regs.aluBHi
  | 0x070 => s.regs.aluC
  | 0x074 => s.regs.aluD
  | 0x078 => s.aluRLo
  | 0x07C => s.aluRHi
  | 0x080 => s.flagsWord
  | _ => 0#32

/-- The stored bits of a base register in a written word (10_state.md R38). -/
def baseBits (v : Word) : BitVec 30 := v.extractLsb' 2 30

/-- A 32-bit write of a register the host writes (10_state.md R26 to R39, R47): reserved bits are dropped (R58); an
offset that is none of these changes nothing. -/
def Regs.write (r : Regs) (off : Nat) (v : Word) : Regs :=
  match off with
  | 0x00C => { r with cfgCtrl := v.setWidth 6 }
  | 0x010 => { r with cfgFrame := v }
  | 0x014 => { r with cfgChan := v.setWidth 8 }
  | 0x018 => { r with cfgFs := v }
  | 0x01C => { r with dcAlpha := v }
  | 0x020 => { r with peAlpha := v.setWidth 16 }
  | 0x024 => { r with nsOversub := v.setWidth 16 }
  | 0x028 => { r with nsFloor := v.setWidth 31 }
  | 0x02C => { r with nsMintrack := v.setWidth 16 }
  | 0x030 => { r with winBase := baseBits v }
  | 0x034 => { r with twcBase := baseBits v }
  | 0x038 => { r with twsBase := baseBits v }
  | 0x03C => { r with scratchBase := baseBits v }
  | 0x040 => { r with scratchSize := v }
  | 0x044 => { r with inBase := baseBits v }
  | 0x048 => { r with outBase := baseBits v }
  | 0x060 => { r with aluALo := v }
  | 0x064 => { r with aluAHi := v }
  | 0x068 => { r with aluBLo := v }
  | 0x06C => { r with aluBHi := v }
  | 0x070 => { r with aluC := v }
  | 0x074 => { r with aluD := v }
  | _ => r

/-- A write of STATUS: bit 8 set clears OVR (10_state.md R24). -/
def State.writeStatus (v : Word) (s : State) : State := if v.getLsbD 8 then { s with ovr := false } else s

/-- A write of CMD (10_state.md R25): it starts the command when idle, with a free duration (70_reset_and_hazards.md
R351, log 8), and only sets OVR while one runs (R347). -/
def State.writeCmd (v : Word) (s : State) : State :=
  if s.busy then { s with ovr := true }
  else { State.startCommand v (Config.cmdDuration s.draws) s with draws := s.draws + 1 }

/-- A 32-bit write of the register window (10_state.md R22, 20_memory.md R68). -/
def State.writeReg (off : Nat) (v : Word) (s : State) : State :=
  if off = 0x004 then s.writeStatus v
  else if off = 0x008 then s.writeCmd v
  else { s with regs := s.regs.write off v }

end Sys2Proof.Machine
end

