-- ==== Sys2Proof/Machine/Bus.lean ====
section
/-! DEFINITION. The bus port (20_memory.md R60 to R68): the three windows, legal accesses, the state window's layout
(10_state.md R53), accesses while a command runs (70_reset_and_hazards.md R345, R346), and power-on reset (R340). -/

namespace Sys2Proof.Machine

/-- The bytes of an access. -/
def AccessSize.bytes : AccessSize → Nat
  | .byte => 1
  | .half => 2
  | .word => 4

/-- The window an offset of the block lies in, and the offset in that window (20_memory.md R60). -/
inductive BusTarget where
  | register (off : Nat)
  | stateWindow (off : Nat)
  | dmem (off : Nat)
deriving DecidableEq, Repr

/-- The target of a bus address; none outside the core's block (20_memory.md R60, log 15). -/
def busTarget (p : Params) (addr : Nat) : Option BusTarget :=
  if addr < p.blockBase then none
  else
    let off := addr - p.blockBase
    if off < 0x080000 then some (.register off)
    else if off < 0x100000 then some (.stateWindow (off - 0x080000))
    else if off < blockBytes then some (.dmem (off - 0x100000))
    else none

/-- The access has a width and an alignment its window takes (20_memory.md R65). -/
def accessLegal (t : BusTarget) (size : AccessSize) : Bool :=
  match t with
  | .register off => decide (size = .word ∧ off % 4 = 0)
  | .stateWindow off => decide (off % size.bytes = 0)
  | .dmem off => decide (off % size.bytes = 0)

/-- Byte `o` of an array whose elements have `n` bytes, little-endian (20_memory.md R64). -/
def elemByte {w : Nat} (n : Nat) (d : BitVec w) (m : Sparse w) (o : Nat) : Byte :=
  (sparseGet d m (o / n)).extractLsb' (8 * (o % n)) 8

/-- The byte of the state window at an offset (10_state.md R53); offsets from STATE_BYTES on read 0 (20_memory.md
R60). -/
def windowByte (p : Params) (w : Window) (o : Nat) : Byte :=
  let cm := p.maxChannels
  let cf := p.maxChannels * p.maxFrameLen
  let cb := p.maxChannels * p.maxBins
  if o < 4 * cm then elemByte 4 0 w.dcX o
  else if o < 8 * cm then elemByte 4 0 w.dcY (o - 4 * cm)
  else if o < 12 * cm then elemByte 4 0 w.peX (o - 8 * cm)
  else if o < 16 * cm then elemByte 4 0 w.nsCnt (o - 12 * cm)
  else if o < 24 * cm then elemByte 8 0 w.nsTpa (o - 16 * cm)
  else if o < 24 * cm + 2 * cf then elemByte 2 0 w.buf (o - 24 * cm)
  else if o < 24 * cm + 6 * cf then elemByte 4 0 w.ola (o - (24 * cm + 2 * cf))
  else if o < 24 * cm + 6 * cf + 4 * cb then elemByte 4 minDefault w.min (o - (24 * cm + 6 * cf))
  else if o < 24 * cm + 6 * cf + 8 * cb then elemByte 4 0 w.est (o - (24 * cm + 6 * cf + 4 * cb))
  else 0#8

/-- The running command is a hop whose checks pass: it reads and writes DMEM (20_memory.md R63, log 13). -/
def runningHop (s : State) : Option Regs :=
  match s.run with
  | none => none
  | some r =>
    match decode r.word with
    | .ok .processHop => if hopRuns s r.snap then some r.snap else none
    | _ => none

/-- The running command writes the DMEM byte (70_reset_and_hazards.md R345: OUT, SCR). -/
def commandWrites (s : State) (a : Nat) : Bool :=
  match runningHop s with
  | none => false
  | some r => (outRegion s.act r).has a || s.act.scrRegion.has a

/-- The running command reads or writes the DMEM byte (70_reset_and_hazards.md R346: IN, OUT, WIN, TWC, TWS, SCR). -/
def commandUses (s : State) (a : Nat) : Bool :=
  match runningHop s with
  | none => false
  | some r =>
    (inRegion s.act r).has a || (outRegion s.act r).has a || s.act.winRegion.has a || s.act.twcRegion.has a ||
    s.act.twsRegion.has a || s.act.scrRegion.has a

/-- The DMEM byte a host read sees: 0 from P_DMEM_BYTES on (20_memory.md R60), a free value where a running command
writes (70_reset_and_hazards.md R345). -/
def hostDmemByte (s : State) (a : Nat) : Byte :=
  if s.params.dmemBytes ≤ a then 0#8
  else if commandWrites s a then Config.freeDmemByte s.draws a
  else Memory.byte s.dmem a

/-- The state-window byte a host read sees: 0 from STATE_BYTES on (20_memory.md R60), else a free value while BUSY = 1
(70_reset_and_hazards.md R345, log 11). -/
def hostWindowByte (s : State) (o : Nat) : Byte :=
  if s.params.stateBytes ≤ o then 0#8
  else if s.busy then Config.freeWindowByte s.draws o else windowByte s.params s.win o

/-- The register a host read sees: a free value for some while BUSY = 1 (70_reset_and_hazards.md R345). -/
def hostReg (s : State) (off : Nat) : Word :=
  if s.busy && busyDrawn off then drawReg s.draws off else s.readReg off

/-- `n` bytes from offset `o` on as one little-endian number (20_memory.md R64). -/
def bytesLE (f : Nat → Byte) (o : Nat) : Nat → Nat
  | 0 => 0
  | n + 1 => (f o).toNat + 256 * bytesLE f (o + 1) n

/-- The data of a legal host read (20_memory.md R60, R65). -/
def busReadData (s : State) (t : BusTarget) (size : AccessSize) : Word :=
  match t with
  | .register off => hostReg s off
  | .stateWindow off => BitVec.ofNat 32 (bytesLE (hostWindowByte s) off size.bytes)
  | .dmem off => BitVec.ofNat 32 (bytesLE (hostDmemByte s) off size.bytes)

/-- The `n` low bytes of a value written to DMEM from offset `a` on: offsets from P_DMEM_BYTES on ignore it
(20_memory.md R60). -/
def hostDmemWrite (size : Nat) (m : Memory) (a : Nat) : Nat → Nat → Memory
  | 0, _ => m
  | n + 1, v =>
    hostDmemWrite size (if a < size then Memory.setByte m a (BitVec.ofNat 8 v) else m) (a + 1) n (v / 256)

/-- One of the `n` bytes from offset `a` on is a DMEM byte the running command uses. -/
def racesCommand (s : State) (a n : Nat) : Bool :=
  (List.range n).any fun i => decide (a + i < s.params.dmemBytes) && commandUses s (a + i)

/-- The mark that the host has raced the running command (70_reset_and_hazards.md R346). -/
def State.markRaced (s : State) : State :=
  { s with run := s.run.map fun r => { r with raced := true } }

/-- A legal host write of DMEM (20_memory.md R60, 70_reset_and_hazards.md R346). -/
def State.writeDmem (a : Nat) (size : AccessSize) (v : Word) (s : State) : State :=
  let s1 := { s with dmem := hostDmemWrite s.params.dmemBytes s.dmem a size.bytes v.toNat }
  if racesCommand s a size.bytes then s1.markRaced else s1

/-- The effect of a legal host write (20_memory.md R60): state-window writes are ignored. -/
def busWriteEffect (t : BusTarget) (size : AccessSize) (v : Word) (s : State) : State :=
  match t with
  | .register off => s.writeReg off v
  | .stateWindow _ => s
  | .dmem off => s.writeDmem off size v

/-- A response recorded. -/
def State.respond (e : Bool) (v : Word) (s : State) : State := { s with resp := some { error := e, data := v } }

/-- A host read (20_memory.md R65, R68): a bus error for an illegal access, else the data. A read while BUSY = 1 may
draw free values, so it counts one draw (log 10). -/
def busRead (addr : Nat) (size : AccessSize) (s : State) : State :=
  match busTarget s.params addr with
  | none => { s with resp := none }
  | some t =>
    if accessLegal t size then
      let s1 := s.respond false (busReadData s t size)
      if s.busy then { s1 with draws := s.draws + 1 } else s1
    else s.respond true 0

/-- A host write (20_memory.md R65, R68): a bus error for an illegal access, else its effect. -/
def busWrite (addr : Nat) (size : AccessSize) (v : Word) (s : State) : State :=
  match busTarget s.params addr with
  | none => { s with resp := none }
  | some t => if accessLegal t size then (busWriteEffect t size v s).respond false 0 else s.respond true 0

/-- ACT after a POR that is asserted during a run: a free value in every field (10_state.md R44, log 16). -/
def drawAct (d : Nat) : Act where
  frameLen := (Config.freeReg d 0).setWidth 16
  hopLen := (Config.freeReg d 1).setWidth 16
  numChannels := (Config.freeReg d 2).setWidth 8
  nsEn := (Config.freeReg d 3).getLsbD 0
  bfEn := (Config.freeReg d 4).getLsbD 0
  aecEn := (Config.freeReg d 5).getLsbD 0
  olaNorm := (Config.freeReg d 6).getLsbD 0
  sampleRate := Config.freeReg d 7
  dcAlpha := Config.freeReg d 8
  peAlpha := (Config.freeReg d 9).setWidth 16
  oversub := (Config.freeReg d 10).setWidth 16
  floor := (Config.freeReg d 11).setWidth 31
  mintrack := (Config.freeReg d 12).setWidth 16
  winBase := Config.freeReg d 13
  twcBase := Config.freeReg d 14
  twsBase := Config.freeReg d 15
  scratchBase := Config.freeReg d 16

/-- The state window after a POR that is asserted during a run: every byte of every element is free (10_state.md R55,
93_implementation_defined.md section 2, log 16). -/
def drawWindow (p : Params) (d : Nat) : Window where
  dcX := sparsePut 0 [] 0 (drawRun 32 d .dcX 0 p.maxChannels)
  dcY := sparsePut 0 [] 0 (drawRun 32 d .dcY 0 p.maxChannels)
  peX := sparsePut 0 [] 0 (drawRun 32 d .peX 0 p.maxChannels)
  nsCnt := sparsePut 0 [] 0 (drawRun 32 d .nsCnt 0 p.maxChannels)
  nsTpa := sparsePut 0 [] 0 (drawRun 64 d .nsTpa 0 p.maxChannels)
  buf := sparsePut 0 [] 0 (drawRun 16 d .buf 0 (p.maxChannels * p.maxFrameLen))
  ola := sparsePut 0 [] 0 (drawRun 32 d .ola 0 (p.maxChannels * p.maxFrameLen))
  min := sparsePut minDefault [] 0 (drawRun 32 d .min 0 (p.maxChannels * p.maxBins))
  est := sparsePut 0 [] 0 (drawRun 32 d .est 0 (p.maxChannels * p.maxBins))

/-- Power-on reset asserted by the host (70_reset_and_hazards.md R340, R341): a running command is abandoned; the
registers take their reset values; ACT, the state window and DMEM take free values. The parameters and the host's
remaining operations stay. -/
def powerOnReset (s : State) : State :=
  { State.powerOn s.params with
    act := drawAct s.draws
    win := drawWindow s.params s.draws
    dmem := drawRegion s.draws [] ⟨0, s.params.dmemBytes⟩
    host := s.host
    draws := s.draws + 1 }

/-- The end of a polling loop (30_encoding.md R91): the host has read STATUS with BUSY = 0. -/
def waitDone (s : State) : State := s.respond false s.statusWord

/-- One operation of the host. -/
def hostOp (op : HostOp) (s : State) : State :=
  match op with
  | .read addr size => busRead addr size s
  | .write addr size v => busWrite addr size v s
  | .wait => waitDone s
  | .por => powerOnReset s

end Sys2Proof.Machine
end

