-- ==== Sys2Proof/Machine/Flags.lean ====
section
/-! DEFINITION. The flag computations of ALU_FLAGS (10_state.md R49, 40_qformat_alu.md R103, R128). -/

namespace Sys2Proof.Machine

/-- The saturation indicator of a `sat16` application: it changed its argument (40_qformat_alu.md R103). -/
def satFlag16 (sym : Bool) (raw : Int) : Bool := decide (sat16 sym raw ≠ raw)

/-- The saturation indicator of a `sat32` application (40_qformat_alu.md R103). -/
def satFlag32 (sym : Bool) (raw : Int) : Bool := decide (sat32 sym raw ≠ raw)

/-- The saturation indicator of `min(MAXPOW, ·)` (40_qformat_alu.md R103, R129). -/
def satFlagPow (raw : Int) : Bool := decide (min maxPow raw ≠ raw)

/-- DZ: the divisor of DIVG is 0 (40_qformat_alu.md R128). -/
def divZeroFlag (b : Int) : Bool := decide (b = 0)

end Sys2Proof.Machine
end

