-- ==== Sys2Proof/Machine/Alu.lean ====
section
/-! DEFINITION. The ALU commands (40_qformat_alu.md R110 to R129): each names its result and its saturation indicator;
`aluResult` writes them (R110). They run in every ESTATE and never report an error. -/

namespace Sys2Proof.Machine

/-- SAT16 (40_qformat_alu.md R111). -/
def execSat16 (s : State) : Result :=
  aluResult (sat16 s.sym s.regs.opA) (satFlag16 s.sym s.regs.opA) false s

/-- SAT32 (40_qformat_alu.md R112). -/
def execSat32 (s : State) : Result :=
  aluResult (sat32 s.sym s.regs.opA) (satFlag32 s.sym s.regs.opA) false s

/-- WIDEN (40_qformat_alu.md R113): it never saturates. -/
def execWiden (s : State) : Result := aluResult (widen s.regs.opa16) false false s

/-- NARROW (40_qformat_alu.md R114). -/
def execNarrow (s : State) : Result :=
  aluResult (narrow s.sym s.regs.opa) (satFlag16 s.sym (narrowRaw s.regs.opa)) false s

/-- MULQ15 (40_qformat_alu.md R115). -/
def execMulq15 (s : State) : Result :=
  aluResult (mulq15 s.sym s.regs.opa16 s.regs.opb16) (satFlag16 s.sym (mulq15Raw s.regs.opa16 s.regs.opb16)) false s

/-- MULQ31 (40_qformat_alu.md R116). -/
def execMulq31 (s : State) : Result :=
  aluResult (mulq31 s.sym s.regs.opa s.regs.opb) (satFlag32 s.sym (mulq31Raw s.regs.opa s.regs.opb)) false s

/-- MULW (40_qformat_alu.md R117): the exact product. -/
def execMulw (s : State) : Result := aluResult (s.regs.opa * s.regs.opb) false false s

/-- MAC2 (40_qformat_alu.md R118). -/
def execMac2 (s : State) : Result :=
  aluResult (mac2 s.sym s.regs.opa s.regs.opb s.regs.opc s.regs.opd)
    (satFlag32 s.sym (mac2Raw s.regs.opa s.regs.opb s.regs.opc s.regs.opd)) false s

/-- MSU2 (40_qformat_alu.md R119). -/
def execMsu2 (s : State) : Result :=
  aluResult (msu2 s.sym s.regs.opa s.regs.opb s.regs.opc s.regs.opd)
    (satFlag32 s.sym (msu2Raw s.regs.opa s.regs.opb s.regs.opc s.regs.opd)) false s

/-- ADDS32 (40_qformat_alu.md R120). -/
def execAdds32 (s : State) : Result :=
  aluResult (adds32 s.sym s.regs.opa s.regs.opb) (satFlag32 s.sym (s.regs.opa + s.regs.opb)) false s

/-- SUBS32 (40_qformat_alu.md R121). -/
def execSubs32 (s : State) : Result :=
  aluResult (subs32 s.sym s.regs.opa s.regs.opb) (satFlag32 s.sym (s.regs.opa - s.regs.opb)) false s

/-- NEGS32 (40_qformat_alu.md R122). -/
def execNegs32 (s : State) : Result :=
  aluResult (negs32 s.sym s.regs.opa) (satFlag32 s.sym (-s.regs.opa)) false s

/-- ADDS16 (40_qformat_alu.md R123). -/
def execAdds16 (s : State) : Result :=
  aluResult (adds16 s.sym s.regs.opa16 s.regs.opb16) (satFlag16 s.sym (s.regs.opa16 + s.regs.opb16)) false s

/-- SUBS16 (40_qformat_alu.md R124). -/
def execSubs16 (s : State) : Result :=
  aluResult (subs16 s.sym s.regs.opa16 s.regs.opb16) (satFlag16 s.sym (s.regs.opa16 - s.regs.opb16)) false s

/-- ASR32 (40_qformat_alu.md R125): it never saturates. -/
def execAsr32 (shamt : Nat) (s : State) : Result := aluResult (asr s.regs.opa shamt) false false s

/-- SHLS32 (40_qformat_alu.md R126). -/
def execShls32 (shamt : Nat) (s : State) : Result :=
  aluResult (shls32 s.sym s.regs.opa shamt) (satFlag32 s.sym (shls32Raw s.regs.opa shamt)) false s

/-- MULG (40_qformat_alu.md R127): the gain is the low half of ALU_B_LO, unsigned. -/
def execMulg (s : State) : Result :=
  aluResult (mulg s.sym s.regs.opa s.regs.opbu16) (satFlag32 s.sym (mulgRaw s.regs.opa s.regs.opbu16)) false s

/-- DIVG (40_qformat_alu.md R128): a divisor 0 gives 0 with DZ set. -/
def execDivg (s : State) : Result :=
  if divZeroFlag s.regs.opb then aluResult 0 false true s
  else aluResult (divg s.sym s.regs.opa s.regs.opb) (satFlag16 s.sym (divgRaw s.regs.opa s.regs.opb)) false s

/-- POWQ31 (40_qformat_alu.md R129). -/
def execPowq31 (s : State) : Result :=
  aluResult (powq31 s.regs.opa s.regs.opb) (satFlagPow (powq31Raw s.regs.opa s.regs.opb)) false s

end Sys2Proof.Machine
end

