-- ==== Sys2Proof/Machine/Lifecycle.lean ====
section
/-! DEFINITION. The lifecycle commands INIT, RESET and FREE (41_lifecycle.md R160 to R178). -/

namespace Sys2Proof.Machine

/-- The post-init values (41_lifecycle.md R174): the whole state window and FFT_SHIFT. -/
def State.postInitValues (s : State) : State := { s with win := postInit, fftShift := 0 }

/-- The effect of an INIT whose checks pass (41_lifecycle.md R165). -/
def initEffect (s : State) : State :=
  State.finish .ok { State.postInitValues { s with act := s.regs.latch } with estate := .ready }

/-- INIT (41_lifecycle.md R165), its checks in that rule's order. -/
def execInit (s : State) : Result :=
  if s.estate = .freed then .next (s.finish .notInitialised)
  else if s.regs.initNull then .next (s.finish .nullArg)
  else if !validConfig s.params s.regs then .next (s.finish .invalidConfig)
  else if s.regs.scratchSize.toNat < s.regs.scratchBytes then .next (s.finish .scratchTooSmall)
  else if !initRegionsOk s.params s.regs then .next (s.finish .badRegion)
  else .next (initEffect s)

/-- RESET (41_lifecycle.md R175). -/
def execReset (s : State) : Result :=
  if s.estate ≠ .ready then .next (s.finish .notInitialised)
  else .next (State.finish .ok s.postInitValues)

/-- FREE (41_lifecycle.md R177). -/
def execFree (s : State) : Result :=
  if s.estate = .freed then .next (s.finish .notInitialised)
  else .next (State.finish .ok { s with estate := .freed })

end Sys2Proof.Machine
end

