-- ==== Sys2Proof/Machine/Dispatch.lean ====
section
/-! DEFINITION. exec: the meaning of every command, from the state in which it starts to the state after its `finish`
(60_exceptions.md R312). -/

namespace Sys2Proof.Machine

def exec (i : Instr) (s : State) : Host.Outcome State Fault Refusal :=
  match i with
  | .init => Sys2Proof.Machine.execInit s
  | .processHop => Sys2Proof.Machine.execProcessHop s
  | .reset => Sys2Proof.Machine.execReset s
  | .free => Sys2Proof.Machine.execFree s
  | .sat16 => Sys2Proof.Machine.execSat16 s
  | .sat32 => Sys2Proof.Machine.execSat32 s
  | .widen => Sys2Proof.Machine.execWiden s
  | .narrow => Sys2Proof.Machine.execNarrow s
  | .mulq15 => Sys2Proof.Machine.execMulq15 s
  | .mulq31 => Sys2Proof.Machine.execMulq31 s
  | .mulw => Sys2Proof.Machine.execMulw s
  | .mac2 => Sys2Proof.Machine.execMac2 s
  | .msu2 => Sys2Proof.Machine.execMsu2 s
  | .adds32 => Sys2Proof.Machine.execAdds32 s
  | .subs32 => Sys2Proof.Machine.execSubs32 s
  | .negs32 => Sys2Proof.Machine.execNegs32 s
  | .adds16 => Sys2Proof.Machine.execAdds16 s
  | .subs16 => Sys2Proof.Machine.execSubs16 s
  | .asr32 shamt => Sys2Proof.Machine.execAsr32 shamt s
  | .shls32 shamt => Sys2Proof.Machine.execShls32 shamt s
  | .mulg => Sys2Proof.Machine.execMulg s
  | .divg => Sys2Proof.Machine.execDivg s
  | .powq31 => Sys2Proof.Machine.execPowq31 s

end Sys2Proof.Machine
end

