-- ==== Sys2Proof/Machine/Engine.lean ====
section
/-! DEFINITION. Who moves next, and each move (00_scope.md R4; 20_memory.md R71; 70_reset_and_hazards.md R345, R346,
R351): the engine's `finish` of its command, or the host's next operation. -/

namespace Sys2Proof.Machine

/-- The next move of the machine. -/
inductive Move where
  /-- the engine runs its command to its `finish` -/
  | engine (r : Running)
  /-- the host performs its next operation; the rest stay pending -/
  | host (op : HostOp) (rest : List HostOp)
  /-- no command runs and the host does nothing: the core waits for a CMD write (70_reset_and_hazards.md R340) -/
  | idle
deriving DecidableEq, Repr

/-- Who moves next. A running command reaches its `finish` when its duration is over, and in any case before a `wait` of
the host ends (70_reset_and_hazards.md R351, log 8). -/
def nextMove (s : State) : Move :=
  match s.run, s.host with
  | some r, [] => .engine r
  | some r, .wait :: _ => .engine r
  | some r, op :: rest => if r.left = 0 then .engine r else .host op rest
  | none, [] => .idle
  | none, op :: rest => .host op rest

/-- The engine runs the word it holds: decoding (30_encoding.md R86), then the command on the snapshot of the registers
(70_reset_and_hazards.md R346); an illegal word gives ERR_ILLEGAL_CMD (R87). -/
def engineMove (r : Running) (s : State) : Result :=
  match decode r.word with
  | .ok i => onNext (State.withRegs s.regs) (exec i (State.withSnapshot r s))
  | .error _ => .next (s.finish .illegalCmd)

/-- One host operation less before the running command's `finish`. -/
def State.countDown (s : State) : State :=
  { s with run := s.run.map fun r => { r with left := r.left - 1 } }

/-- The host performs an operation; `rest` stay pending. -/
def hostMove (op : HostOp) (rest : List HostOp) (s : State) : State :=
  hostOp op (State.countDown { s with host := rest })

/-- One move of the machine. -/
def move (s : State) : Result :=
  match nextMove s with
  | .engine r => engineMove r s
  | .host op rest => .next (hostMove op rest s)
  | .idle => .next s

/-- The command word `w` written to CMD and about to run: the CMD write of an idle host has just been performed, with
duration 0. -/
def State.holdWord (w : Nat) (s : State) : State := State.startCommand (BitVec.ofNat 32 w) 0 s

end Sys2Proof.Machine
end

