-- ==== Sys2Proof/Machine/Step.lean ====
section
/-! DEFINITION. One step of the machine, and the state in which a given command word is the next to run. -/

namespace Sys2Proof.Machine

/-- One step: the next move (Machine/Engine.lean). -/
def step (s : State) : Host.Outcome State Fault Refusal := move s

/-- `s` with a command word held by the engine, so that the next step runs it. The core fetches nothing (10_state.md
R21): a command comes to run by a CMD write, which this stands for (log 9). Bits above `nbits` are 0. -/
def State.withFetchWord (s : State) (nbits w : Nat) : State := State.holdWord (w % 2 ^ nbits) s

end Sys2Proof.Machine
end

