-- ==== Sys2Proof/Safety.lean ====
section
/-! DEFINITION. The terms claims use: the invariant of the machine's states, what an ALU command writes, the spec's own
wording of bounds, regions and configuration checks, and runs of one channel. No definition of the machine uses them. -/

namespace Sys2Proof.Machine

/-! ### The invariant -/

/-- The active configuration is one that INIT latches: valid (41_lifecycle.md R167), with its regions placed as R168 asks
and its bases neither null (R166) nor misaligned (10_state.md R38). -/
abbrev actOk (p : Params) (a : Act) : Prop :=
  frameOk p a.F a.H a.C = true ∧ (a.nsEn = true → 1 ≤ a.mintrack.toNat) ∧
  tableRegionsOk p.dmemBytes a.F a.SB a.winBase.toNat a.twcBase.toNat a.twsBase.toNat a.scratchBase.toNat = true ∧
  (a.winBase ≠ 0 ∧ a.twcBase ≠ 0 ∧ a.twsBase ≠ 0 ∧ a.scratchBase ≠ 0) ∧
  (a.winBase.toNat % 4 = 0 ∧ a.twcBase.toNat % 4 = 0 ∧ a.twsBase.toNat % 4 = 0 ∧ a.scratchBase.toNat % 4 = 0)

/-- The state window is in canonical form, inside its layout (10_state.md R53). -/
abbrev windowWf (p : Params) (w : Window) : Prop :=
  sparseWf 0 p.maxChannels w.dcX ∧ sparseWf 0 p.maxChannels w.dcY ∧ sparseWf 0 p.maxChannels w.peX ∧
  sparseWf 0 p.maxChannels w.nsCnt ∧ sparseWf 0 p.maxChannels w.nsTpa ∧
  sparseWf 0 (p.maxChannels * p.maxFrameLen) w.buf ∧ sparseWf 0 (p.maxChannels * p.maxFrameLen) w.ola ∧
  sparseWf minDefault (p.maxChannels * p.maxBins) w.min ∧ sparseWf 0 (p.maxChannels * p.maxBins) w.est

/-- Each element of the state window has its type (10_state.md R53): PE_X holds an int16, NS_CNT is at most 65535, MIN
and EST are at least 0. -/
abbrev windowTyped (w : Window) : Prop :=
  (∀ c ∈ w.peX, c.2 = (c.2.setWidth 16).signExtend 32) ∧ (∀ c ∈ w.nsCnt, c.2.toNat ≤ 65535) ∧
  (∀ c ∈ w.min, c.2.toNat ≤ 2147483647) ∧ (∀ c ∈ w.est, c.2.toNat ≤ 2147483647)

/-- The invariant: legal parameters, DMEM and state window in canonical form, and a READY engine has an active
configuration that INIT latches and elements of their types. Before INIT the window may hold any bytes (10_state.md
R55). -/
abbrev State.Inv (s : State) : Prop :=
  s.params.Legal ∧ Memory.wf s.params.dmemBytes s.dmem ∧ windowWf s.params s.win ∧
  (s.estate = .ready → actOk s.params s.act ∧ windowTyped s.win)

/-! ### The engine's turn -/

/-- The engine moves next with the command `r`: its duration is over, or the host has nothing to do but wait
(70_reset_and_hazards.md R351). -/
abbrev State.engineTurn (s : State) (r : Running) : Prop :=
  s.run = some r ∧ (r.left = 0 ∨ s.host = [] ∨ s.host.head? = some .wait)

/-- The lifecycle commands and PROCESS_HOP: the engine commands of 41_lifecycle.md R161. -/
def engineCommands : List Instr := [.init, .processHop, .reset, .free]

/-- The status codes a command can report by ESTATE (60_exceptions.md R315). -/
def codesOf (i : Instr) (e : EState) : List StatusCode :=
  match i with
  | .init => if e = .freed then [.notInitialised] else [.nullArg, .invalidConfig, .scratchTooSmall, .badRegion, .ok]
  | .processHop => if e = .ready then [.nullArg, .badRegion, .ok] else [.notInitialised]
  | .reset => if e = .ready then [.ok] else [.notInitialised]
  | .free => if e = .freed then [.notInitialised] else [.ok]
  | .sat16 => [.ok]
  | .sat32 => [.ok]
  | .widen => [.ok]
  | .narrow => [.ok]
  | .mulq15 => [.ok]
  | .mulq31 => [.ok]
  | .mulw => [.ok]
  | .mac2 => [.ok]
  | .msu2 => [.ok]
  | .adds32 => [.ok]
  | .subs32 => [.ok]
  | .negs32 => [.ok]
  | .adds16 => [.ok]
  | .subs16 => [.ok]
  | .asr32 _ => [.ok]
  | .shls32 _ => [.ok]
  | .mulg => [.ok]
  | .divg => [.ok]
  | .powq31 => [.ok]

/-! ### ALU results -/

/-- `lo_16` of a state's machine (00_scope.md R14). -/
def State.low16 (s : State) : Int := if s.params.symSat then -32767 else -32768

/-- `lo_32` of a state's machine (00_scope.md R14). -/
def State.low32 (s : State) : Int := if s.params.symSat then -(2 ^ 31 - 1) else -(2 ^ 31)

/-- A value brought into `[lo, hi]`. -/
def bounded (lo hi v : Int) : Int := if v < lo then lo else if hi < v then hi else v

/-- A value brought into the int16 bounds of a machine with `P_SYM_SAT = sym` (00_scope.md R14). -/
def boundedQ15 (sym : Bool) (v : Int) : Int := bounded (if sym then -32767 else -32768) 32767 v

/-- A value brought into the int32 bounds of a machine with `P_SYM_SAT = sym` (00_scope.md R14). -/
def boundedQ31 (sym : Bool) (v : Int) : Int := bounded (if sym then -(2 ^ 31 - 1) else -(2 ^ 31)) (2 ^ 31 - 1) v

/-- A value lies outside `[lo, hi]`. -/
def outside (lo hi v : Int) : Bool := decide (v < lo ∨ hi < v)

/-- `t` is `s` after an ALU command with result `r`, read back exactly, and the two flags (40_qformat_alu.md R110):
LAST_STATUS is OK, BUSY is 0, nothing else changes. -/
def AluWrote (s t : State) (r : Int) (sat dz : Bool) : Prop :=
  (t.aluRHi ++ t.aluRLo).toInt = r ∧ t.aluSat = sat ∧ t.aluDz = dz ∧
  t = { s with
    aluRLo := t.aluRLo
    aluRHi := t.aluRHi
    aluSat := t.aluSat
    aluDz := t.aluDz
    lastStatus := .ok
    run := none }

/-- `s` after a command that ended with an error code: only LAST_STATUS and BUSY change (60_exceptions.md R314). -/
def State.failed (s : State) (code : StatusCode) : State := { s with lastStatus := code, run := none }

/-! ### Registers, configuration and regions in the spec's words

The registers are named by the word the host reads at their offset (10_state.md R22). -/

/-- The `n` bits from bit `lo` on of the register at an offset. -/
def State.field (s : State) (off lo n : Nat) : Nat := (s.readReg off).toNat / 2 ^ lo % 2 ^ n

/-- ESTATE's number (10_state.md R43). -/
def EState.number : EState → Nat
  | .uninitialised => 0
  | .ready => 1
  | .freed => 2

/-- A status code's number (60_exceptions.md R310). -/
def StatusCode.number : StatusCode → Nat
  | .ok => 0
  | .nullArg => 1
  | .invalidConfig => 2
  | .scratchTooSmall => 3
  | .notInitialised => 4
  | .badRegion => 5
  | .illegalCmd => 6

/-- STATUS by its fields (10_state.md R24): BUSY in bit 0, ESTATE from bit 1, LAST_STATUS from bit 4, OVR in bit 8. -/
def State.statusNumber (s : State) : Nat :=
  (if s.run = none then 0 else 1) + 2 * s.estate.number + 16 * s.lastStatus.number + (if s.ovr then 256 else 0)

/-- The active configuration `a` holds the registers of `s`, field by field as the table of 10_state.md R44 copies them
(fields of CFG_CTRL and CFG_FRAME: R26, R30); its `F`, `H` and `C` are those fields (00_scope.md R15). -/
def ActLatched (s : State) (a : Act) : Prop :=
  a.frameLen.toNat = s.field 0x010 0 16 ∧ a.hopLen.toNat = s.field 0x010 16 16 ∧
  a.numChannels.toNat = s.field 0x014 0 8 ∧
  a.nsEn = (s.readReg 0x00C).getLsbD 0 ∧ a.bfEn = (s.readReg 0x00C).getLsbD 2 ∧
  a.aecEn = (s.readReg 0x00C).getLsbD 3 ∧ a.olaNorm = (s.readReg 0x00C).getLsbD 5 ∧
  a.sampleRate = s.readReg 0x018 ∧ a.dcAlpha = s.readReg 0x01C ∧
  a.peAlpha.toNat = s.field 0x020 0 16 ∧ a.oversub.toNat = s.field 0x024 0 16 ∧
  a.floor.toNat = s.field 0x028 0 31 ∧ a.mintrack.toNat = s.field 0x02C 0 16 ∧
  a.winBase = s.readReg 0x030 ∧ a.twcBase = s.readReg 0x034 ∧ a.twsBase = s.readReg 0x038 ∧
  a.scratchBase = s.readReg 0x03C ∧
  a.F = s.field 0x010 0 16 ∧ a.H = s.field 0x010 16 16 ∧ a.C = s.field 0x014 0 8

/-- `valid_config()` in the words of 41_lifecycle.md R167: FRAME_LEN is `2^L`, HOP_LEN, NUM_CHANNELS, NS_MINTRACK with
NS_EN (bit 0 of CFG_CTRL), AGC_EN (bit 1) and FEAT_EN (bit 4). -/
def ConfigValid (s : State) : Prop :=
  (∃ L, 1 ≤ L ∧ s.field 0x010 0 16 = 2 ^ L) ∧ s.field 0x010 0 16 ≤ s.params.maxFrameLen ∧
  1 ≤ s.field 0x010 16 16 ∧ s.field 0x010 16 16 ∣ s.field 0x010 0 16 ∧
  2 * s.field 0x010 16 16 ≤ s.field 0x010 0 16 ∧
  1 ≤ s.field 0x014 0 8 ∧ s.field 0x014 0 8 ≤ s.params.maxChannels ∧
  ((s.readReg 0x00C).getLsbD 0 = false ∨ 1 ≤ s.field 0x02C 0 16) ∧
  (s.readReg 0x00C).getLsbD 1 = false ∧ (s.readReg 0x00C).getLsbD 4 = false

/-- The scratch requirement of the registers (10_state.md R41). -/
def State.scratchNeed (s : State) : Nat :=
  2 * s.field 0x010 0 16 + 2 * (4 * s.field 0x010 0 16) +
    (if (s.readReg 0x00C).getLsbD 0 then s.field 0x014 0 8 * (s.field 0x010 0 16 / 2 + 1) * 4 else 0)

/-- Two byte ranges share no byte. -/
def apart (b1 n1 b2 n2 : Nat) : Prop := b1 + n1 ≤ b2 ∨ b2 + n2 ≤ b1

/-- `init_regions_ok(sb)` in the words of 41_lifecycle.md R168. -/
def TablesPlaced (s : State) : Prop :=
  let f := s.field 0x010 0 16
  let win := (s.readReg 0x030).toNat
  let twc := (s.readReg 0x034).toNat
  let tws := (s.readReg 0x038).toNat
  let scr := (s.readReg 0x03C).toNat
  win + 2 * f ≤ s.params.dmemBytes ∧ twc + 4 * (f / 2) ≤ s.params.dmemBytes ∧
  tws + 4 * (f / 2) ≤ s.params.dmemBytes ∧ scr + s.scratchNeed ≤ s.params.dmemBytes ∧
  apart scr s.scratchNeed win (2 * f) ∧ apart scr s.scratchNeed twc (4 * (f / 2)) ∧
  apart scr s.scratchNeed tws (4 * (f / 2))

/-- The length of the scratch of the active configuration (20_memory.md R63, 41_lifecycle.md R163). -/
def Act.scratchLen (a : Act) : Nat := 10 * a.F + (if a.nsEn then 4 * (a.C * (a.F / 2 + 1)) else 0)

/-- `hop_regions_ok()` in the words of 46_synthesis_hop.md R296, for the active configuration, IN_BASE and OUT_BASE. -/
def HopPlaced (s : State) : Prop :=
  let a := s.act
  let inB := (s.readReg 0x044).toNat
  let outB := (s.readReg 0x048).toNat
  inB + 2 * a.C * a.H ≤ s.params.dmemBytes ∧ outB + 2 * a.H ≤ s.params.dmemBytes ∧
  apart outB (2 * a.H) inB (2 * a.C * a.H) ∧ apart outB (2 * a.H) a.winBase.toNat (2 * a.F) ∧
  apart outB (2 * a.H) a.twcBase.toNat (4 * (a.F / 2)) ∧ apart outB (2 * a.H) a.twsBase.toNat (4 * (a.F / 2)) ∧
  apart outB (2 * a.H) a.scratchBase.toNat a.scratchLen ∧ apart inB (2 * a.C * a.H) a.scratchBase.toNat a.scratchLen

/-- A hop whose checks pass, on a state in which it may run (46_synthesis_hop.md R300). -/
def HopReady (s : State) : Prop :=
  s.estate = .ready ∧ s.readReg 0x044 ≠ 0 ∧ s.readReg 0x048 ≠ 0 ∧ HopPlaced s

/-- The offset lies in the byte range. -/
def inRange (base len a : Nat) : Prop := base ≤ a ∧ a < base + len

/-- The DMEM byte lies in a region a hop on `s` writes: OUT or SCR (20_memory.md R63). -/
def HopWrites (s : State) (a : Nat) : Prop :=
  inRange (s.readReg 0x048).toNat (2 * s.act.H) a ∨ inRange s.act.scratchBase.toNat s.act.scratchLen a

/-- The DMEM byte lies in a region a hop on `s` reads or writes: IN, OUT, WIN, TWC, TWS or SCR (20_memory.md R63). -/
def HopUses (s : State) (a : Nat) : Prop :=
  HopWrites s a ∨ inRange (s.readReg 0x044).toNat (2 * s.act.C * s.act.H) a ∨
  inRange s.act.winBase.toNat (2 * s.act.F) a ∨ inRange s.act.twcBase.toNat (4 * (s.act.F / 2)) a ∨
  inRange s.act.twsBase.toNat (4 * (s.act.F / 2)) a

/-- The running command `r` of `s` is a hop whose checks pass: the only command that reads or writes DMEM. -/
def RunsHop (s : State) (r : Running) : Prop :=
  decode r.word = .ok .processHop ∧ HopReady (State.withSnapshot r s)

/-- Every DMEM byte outside OUT and SCR of the state `s` reads the same in `t` (46_synthesis_hop.md R300). -/
def OnlyHopRegions (s t : State) : Prop := ∀ a : Nat, ¬ HopWrites s a → Memory.byte t.dmem a = Memory.byte s.dmem a

/-- The state-window elements that a hop of the active configuration `a` never writes are the same in `w'` as in `w`: those
of channels from C on, BUF and OLA elements from F on, MIN and EST elements from C·NB on (10_state.md R53,
43_framing_window.md R211). -/
def SameOutsideActive (p : Params) (a : Act) (w w' : Window) : Prop :=
  (∀ c, a.C ≤ c →
    sparseGet 0 w'.dcX c = sparseGet 0 w.dcX c ∧ sparseGet 0 w'.dcY c = sparseGet 0 w.dcY c ∧
    sparseGet 0 w'.peX c = sparseGet 0 w.peX c ∧ sparseGet 0 w'.nsCnt c = sparseGet 0 w.nsCnt c ∧
    sparseGet 0 w'.nsTpa c = sparseGet 0 w.nsTpa c) ∧
  (∀ c n, n < p.maxFrameLen → a.C ≤ c ∨ a.F ≤ n →
    sparseGet 0 w'.buf (c * p.maxFrameLen + n) = sparseGet 0 w.buf (c * p.maxFrameLen + n) ∧
    sparseGet 0 w'.ola (c * p.maxFrameLen + n) = sparseGet 0 w.ola (c * p.maxFrameLen + n)) ∧
  (∀ j, a.C * a.NB ≤ j →
    sparseGet minDefault w'.min j = sparseGet minDefault w.min j ∧ sparseGet 0 w'.est j = sparseGet 0 w.est j)

/-- The front end of channel `c` of a hop from `s` to `t`, written out: the input layout (46_synthesis_hop.md R301), DC
removal (42_prefilters.md R191), pre-emphasis (R195), the buffer (43_framing_window.md R211) and the window (R215), with
`xw` the windowed frame. `X`, `Y`, `P` are DC_X, DC_Y and PE_X before sample `i`, `e` the outputs. -/
def FrontEnd (s t : State) (c : Nat) (xw : Nat → Int) : Prop :=
  ∃ X Y P e : Nat → Int,
    X 0 = (sparseGet 0 s.win.dcX c).toInt ∧ Y 0 = (sparseGet 0 s.win.dcY c).toInt ∧
    P 0 = (sparseGet 0 s.win.peX c).toInt ∧
    (∀ i, i < s.act.H →
      X (i + 1) = rdI16 s.dmem ((s.readReg 0x044).toNat + 2 * (i * s.act.C + c)) * 2 ^ 16 ∧
      Y (i + 1) = bounded s.low32 (2 ^ 31 - 1) (X (i + 1) - X i + s.act.dcAlpha.toInt * Y i / 2 ^ 31) ∧
      P (i + 1) = bounded s.low16 32767 ((Y (i + 1) + 2 ^ 15) / 2 ^ 16) ∧
      e i = bounded s.low16 32767 ((P (i + 1) * 2 ^ 15 - s.act.peAlpha.toInt * P i) / 2 ^ 15)) ∧
    (sparseGet 0 t.win.dcX c).toInt = X s.act.H ∧ (sparseGet 0 t.win.dcY c).toInt = Y s.act.H ∧
    (sparseGet 0 t.win.peX c).toInt = P s.act.H ∧
    ∀ n, n < s.act.F →
      (sparseGet 0 t.win.buf (c * s.params.maxFrameLen + n)).toInt =
        (if n + s.act.H < s.act.F then (sparseGet 0 s.win.buf (c * s.params.maxFrameLen + (n + s.act.H))).toInt
         else e (n + s.act.H - s.act.F)) ∧
      xw n = bounded s.low16 32767
        ((sparseGet 0 t.win.buf (c * s.params.maxFrameLen + n)).toInt *
          rdI16 s.dmem (s.act.winBase.toNat + 2 * n) / 2 ^ 15)

/-- One suppressor step written out (45_noise_suppressor.md R261 to R271): from the state `st` of a channel and the
transform buffers `z`, over `nb` bins, to `o`. `least` is MIN before the tracker reset, `sh` the adaptation shift of the
speech flag. -/
def SuppressorStep (sym : Bool) (cfg : NsCfg) (nb : Nat) (st : Ns) (z : List Cx) (o : NsOut) : Prop :=
  ∃ (power least : Nat → Int) (sh : Nat),
    (∀ k, k < nb →
      power k = min (2 ^ 31 - 1) ((cxAt z k).1 * (cxAt z k).1 / 2 ^ 31 + (cxAt z k).2 * (cxAt z k).2 / 2 ^ 31) ∧
      least k = if power k < st.min.getD k 0 then power k else st.min.getD k 0) ∧
    (let threshold := st.tpa / nb + st.tpa / nb / 2
     sh = if threshold < ((List.range nb).map power).sum / nb ∧ ∃ k, k < nb ∧ threshold < power k then 4 else 3) ∧
    (∀ k, k < nb →
      o.ns.est.getD k 0 =
        min (2 ^ 31 - 1) (st.est.getD k 0 - st.est.getD k 0 / 2 ^ sh + (least k + st.est.getD k 0) / 2 / 2 ^ sh) ∧
      o.gain.getD k 0 =
        (if cfg.floor < power k then
          boundedQ15 sym (max (power k - cfg.oversub * o.ns.est.getD k 0 / 512) cfg.floor * 512 / power k)
         else 0) ∧
      cxAt o.z k =
        (boundedQ31 sym ((cxAt z k).1 * o.gain.getD k 0 / 512), boundedQ31 sym ((cxAt z k).2 * o.gain.getD k 0 / 512)) ∧
      o.ns.min.getD k 0 = if cfg.mintrack ≤ st.cnt + 1 then 2 ^ 31 - 1 else least k) ∧
    o.ns.tpa = ((List.range nb).map fun k => o.ns.est.getD k 0).sum ∧
    o.ns.cnt = (if cfg.mintrack ≤ st.cnt + 1 then 0 else st.cnt + 1) ∧
    (∀ k, nb ≤ k → cxAt o.z k = cxAt z k) ∧
    o.ns.min.length = nb ∧ o.ns.est.length = nb ∧ o.gain.length = nb ∧ o.z.length = z.length

/-- The suppressor state of channel `c` in the state window, with `nb` bins to a channel (10_state.md R53). -/
def Window.nsAt (w : Window) (nb c : Nat) : Ns where
  min := (List.range nb).map fun k => (sparseGet minDefault w.min (c * nb + k)).toInt
  est := (List.range nb).map fun k => (sparseGet 0 w.est (c * nb + k)).toInt
  tpa := (sparseGet 0 w.nsTpa c).toNat
  cnt := (sparseGet 0 w.nsCnt c).toNat

/-- The back end of channel `c` of a hop from `s` to `t`, written out from the windowed frame `o.xw` to the rescaled
buffers `o.z`, the gains `o.gain` and the output `o.out`: the load (44_transform.md R231), the tables (R232), the forward
transform (R236), the suppressor or none (45_noise_suppressor.md R271, R272), the rebuild and the inverse transform
(44_transform.md R241, R242), the rescale and the narrowed frame `y` (R243), and the overlap-add (46_synthesis_hop.md
R292, R293) of each element whose sum lies in int32 (R291; log 20). `ola` is OLA before the hop. -/
def BackEnd (s t : State) (c : Nat) (o : ChanOut) : Prop :=
  ∃ (cos sin : List Int) (load : List Cx) (sup : NsOut) (y ola : Nat → Int),
    let sym := s.params.symSat
    let fwd := transform sym false cos sin s.act.L load
    let inv := transform sym true cos sin s.act.L (hermitianRebuild sym s.act.F sup.z)
    let nsh := if s.act.olaNorm then (s.act.F / s.act.H).log2 else 0
    cos = ((List.range (s.act.F / 2)).map fun k => rdI32 s.dmem (s.act.twcBase.toNat + 4 * k)) ∧
    sin = ((List.range (s.act.F / 2)).map fun k => rdI32 s.dmem (s.act.twsBase.toNat + 4 * k)) ∧
    load = ((List.range s.act.F).map fun n => (o.xw.getD n 0 * 2 ^ 16, 0)) ∧
    (s.act.nsEn = true →
      SuppressorStep sym { oversub := s.act.oversub.toNat, floor := s.act.floor.toNat, mintrack := s.act.mintrack.toNat }
        s.act.NB (s.win.nsAt s.act.NB c) fwd sup ∧
      t.win.nsAt s.act.NB c = sup.ns ∧ o.gain = sup.gain) ∧
    (s.act.nsEn = false → sup.z = fwd ∧ t.win.nsAt s.act.NB c = s.win.nsAt s.act.NB c ∧ o.gain = []) ∧
    ∀ n, n < s.act.F →
      cxAt o.z n = (boundedQ31 sym ((cxAt inv n).1 * 2 ^ s.act.L), boundedQ31 sym ((cxAt inv n).2 * 2 ^ s.act.L)) ∧
      y n = boundedQ15 sym (((cxAt o.z n).1 + 2 ^ 15) / 2 ^ 16) ∧
      ola n = (sparseGet 0 s.win.ola (c * s.params.maxFrameLen + n)).toInt ∧
      (-(2 ^ 31) ≤ ola n + y n → ola n + y n < 2 ^ 31 →
        (n < s.act.H → o.out.getD n 0 = boundedQ15 sym ((ola n + y n) / 2 ^ nsh)) ∧
        (s.act.H ≤ n →
          (sparseGet 0 t.win.ola (c * s.params.maxFrameLen + (n - s.act.H))).toInt = ola n + y n)) ∧
      (s.act.F ≤ n + s.act.H → sparseGet 0 t.win.ola (c * s.params.maxFrameLen + n) = 0)

/-! ### Registers of the window -/

/-- The bits a register of the window defines (10_state.md R22 to R49); 0 at an unlisted offset. -/
def definedBits (off : Nat) : Word :=
  match off with
  | 0x000 => 0x00FFFFFF#32
  | 0x004 => 0x000001F7#32
  | 0x008 => 0xFFFFFFFF#32
  | 0x00C => 0x0000003F#32
  | 0x010 => 0xFFFFFFFF#32
  | 0x014 => 0x000000FF#32
  | 0x018 => 0xFFFFFFFF#32
  | 0x01C => 0xFFFFFFFF#32
  | 0x020 => 0x0000FFFF#32
  | 0x024 => 0x0000FFFF#32
  | 0x028 => 0x7FFFFFFF#32
  | 0x02C => 0x0000FFFF#32
  | 0x030 => 0xFFFFFFFC#32
  | 0x034 => 0xFFFFFFFC#32
  | 0x038 => 0xFFFFFFFC#32
  | 0x03C => 0xFFFFFFFC#32
  | 0x040 => 0xFFFFFFFF#32
  | 0x044 => 0xFFFFFFFC#32
  | 0x048 => 0xFFFFFFFC#32
  | 0x04C => 0xFFFFFFFF#32
  | 0x050 => 0xFFFFFFFF#32
  | 0x054 => 0x0000001F#32
  | 0x060 => 0xFFFFFFFF#32
  | 0x064 => 0xFFFFFFFF#32
  | 0x068 => 0xFFFFFFFF#32
  | 0x06C => 0xFFFFFFFF#32
  | 0x070 => 0xFFFFFFFF#32
  | 0x074 => 0xFFFFFFFF#32
  | 0x078 => 0xFFFFFFFF#32
  | 0x07C => 0xFFFFFFFF#32
  | 0x080 => 0x00000003#32
  | _ => 0#32

/-- The offsets of the read-write registers but for STATUS and CMD (10_state.md R22). -/
def readWriteOffsets : List Nat :=
  [0x00C, 0x010, 0x014, 0x018, 0x01C, 0x020, 0x024, 0x028, 0x02C, 0x030, 0x034, 0x038, 0x03C, 0x040, 0x044, 0x048] ++
  [0x060, 0x064, 0x068, 0x06C, 0x070, 0x074]

/-- The offsets of the read-only registers (10_state.md R22). -/
def readOnlyOffsets : List Nat := [0x000, 0x04C, 0x050, 0x054, 0x078, 0x07C, 0x080]

/-! ### Runs of one channel -/

/-- A channel after a sequence of hops, each given by its input samples. -/
def chanRun (sym : Bool) (a : Act) (t : Tables) (ch : Chan) (hops : List (List Int)) : Chan :=
  hops.foldl (fun ch xs => (chanStep sym a t ch xs).ch) ch

/-- The suppressor state of a channel after a sequence of spectra. -/
def nsRun (sym : Bool) (cfg : NsCfg) (nb : Nat) (st : Ns) (zs : List (List Cx)) : Ns :=
  zs.foldl (fun st z => (nsStep sym cfg nb st z).ns) st

/-- The accumulator of a channel after `n` overlap-add steps with the same frame `y`. -/
def olaRun (sym : Bool) (h nsh : Nat) (y ola : List Int) : Nat → List Int
  | 0 => ola
  | n + 1 => (olaStep sym h nsh (olaRun sym h nsh y ola n) y).2

/-- The DC-removal state of a channel after `n` samples of the constant input `x` from the post-init state. -/
def dcAfter (sym : Bool) (alpha x : Int) (n : Nat) : Int :=
  (prefilter sym alpha 0 { dcX := 0, dcY := 0, peX := 0 } (List.replicate n x)).2.dcY

/-- What channel `c` of a hop on `s` computes, from `s` alone. -/
def hopChan (s : State) (c : Nat) : ChanOut :=
  chanStep s.params.symSat s.act (readTables s.act s.dmem) (loadChan s.params s.act s.win c)
    (readInput s.act s.regs s.dmem c)

/-- The stream state of a silent core: filters, buffers, accumulators and estimates all 0 (45_noise_suppressor.md
R274). -/
def Silent (w : Window) : Prop :=
  w.dcX = [] ∧ w.dcY = [] ∧ w.peX = [] ∧ w.nsTpa = [] ∧ w.buf = [] ∧ w.ola = [] ∧ w.est = []

/-- Element `v` rotated by `wr - j wi`, or by `wr + j wi` in the inverse transform, with one floored shift and the int32
bounds for each part (44_transform.md R235, 40_qformat_alu.md R109). -/
def rotatedBy (sym inverse : Bool) (wr wi : Int) (v : Cx) : Cx :=
  if inverse then
    (boundedQ31 sym ((v.1 * wr - v.2 * wi) / 2 ^ 31), boundedQ31 sym ((v.2 * wr + v.1 * wi) / 2 ^ 31))
  else
    (boundedQ31 sym ((v.1 * wr + v.2 * wi) / 2 ^ 31), boundedQ31 sym ((v.2 * wr - v.1 * wi) / 2 ^ 31))

/-- The butterfly stage computed from the values before it, all elements at once (44_transform.md R234, R235): element `n`
of stage `s` over `2^L` elements `z`, each first halved. -/
def stageElement (sym inverse : Bool) (cos sin : List Int) (L s : Nat) (z : List Cx) (n : Nat) : Cx :=
  let half := fun i => ((cxAt z i).1 / 2, (cxAt z i).2 / 2)
  let m := 2 ^ (s - 1)
  let k := n % (2 * m)
  let stride := 2 ^ L / 2 ^ s
  if k < m then
    let r := rotatedBy sym inverse (cos.getD (k * stride) 0) (sin.getD (k * stride) 0) (half (n + m))
    (boundedQ31 sym ((half n).1 + r.1), boundedQ31 sym ((half n).2 + r.2))
  else
    let r := rotatedBy sym inverse (cos.getD ((k - m) * stride) 0) (sin.getD ((k - m) * stride) 0) (half n)
    (boundedQ31 sym ((half (n - m)).1 - r.1), boundedQ31 sym ((half (n - m)).2 - r.2))

end Sys2Proof.Machine
end

