-- ==== Sys2Proof/Certificates/Slice0/Obligations.lean ====
section
/-! DEFINITION. The statements for the provers. Each is about the machine for every state (and every parameter of
00_scope.md R6 that the state carries); a premise that rules out states no run reaches is `State.Inv`, which
`StepKeepsInvariant` and `ResetMeetsInvariant` are about. -/

open Sys2Proof Sys2Proof.Machine

/-! ### Encoding -/

/-- A word decodes to a command exactly when it is that command's encoding (30_encoding.md R80 to R88). -/
def Obligations.DecodeAcceptsExactlyTheEncodings : Prop :=
  ∀ (w : Word) (i : Instr), decode w = .ok i ↔ (i.WellFormed ∧ encode i = w)

/-- Words of every family decode to the command the spec's tables give them (30_encoding.md R83, R84;
95_test_vectors.md). -/
def Obligations.TableWordsDecode : Prop :=
  decode 0x00000001#32 = .ok .init ∧ decode 0x00000002#32 = .ok .processHop ∧
  decode 0x00000003#32 = .ok .reset ∧ decode 0x00000004#32 = .ok .free ∧
  decode 0x00000110#32 = .ok .sat16 ∧ decode 0x00000710#32 = .ok .mulw ∧
  decode 0x001F0F10#32 = .ok (.asr32 31) ∧ decode 0x00041010#32 = .ok (.shls32 4) ∧
  decode 0x00001310#32 = .ok .powq31 ∧
  decode 0x00200F10#32 = .error .reservedBits ∧ decode 0x00000101#32 = .error .lifecycleField ∧
  decode 0x00001410#32 = .error .unknownFunction ∧ decode 0x00010110#32 = .error .unusedShamt ∧
  decode 0x00000000#32 = .error .unknownOpcode

/-- Which words are illegal, and that an illegal word changes only LAST_STATUS and BUSY (30_encoding.md R87). -/
def Obligations.IllegalWordOnlyReports : Prop :=
  (∀ w : Word, (∀ i : Instr, i.WellFormed → encode i ≠ w) ↔
    (rsvdOf w ≠ 0 ∨
     (1 ≤ opcodeOf w ∧ opcodeOf w ≤ 4 ∧ (funcOf w ≠ 0 ∨ shamtOf w ≠ 0)) ∨
     (opcodeOf w = 0x10 ∧ (funcOf w = 0 ∨ 0x14 ≤ funcOf w)) ∨
     (opcodeOf w = 0x10 ∧ funcOf w ≠ 0x0F ∧ funcOf w ≠ 0x10 ∧ shamtOf w ≠ 0) ∨
     opcodeOf w = 0 ∨ (5 ≤ opcodeOf w ∧ opcodeOf w ≠ 0x10))) ∧
  ∀ (s : State) (r : Running), s.engineTurn r → (∀ i : Instr, i.WellFormed → encode i ≠ r.word) →
    step s = .next { s with lastStatus := .illegalCmd, run := none }

/-! ### The step -/

/-- When the engine's word decodes to a command, the step is that command's meaning on the snapshot of the registers;
the host's registers stay (30_encoding.md R86, 70_reset_and_hazards.md R346). The command is raced when the held command
is marked so. When the engine's turn comes is the model's reading of R351 (log 8). -/
def Obligations.StepRunsTheHeldCommand : Prop :=
  ∀ (s : State) (r : Running) (i : Instr), s.engineTurn r → decode r.word = .ok i →
    step s = onNext (fun t => { t with regs := s.regs }) (exec i { s with regs := r.snap }) ∧
    State.raced { s with regs := r.snap } = r.raced

/-- A register write during a command has no effect on it (70_reset_and_hazards.md R346): with other registers in
place of the host's, the step gives the same state with those registers. -/
def Obligations.RunningCommandSeesItsSnapshot : Prop :=
  ∀ (s : State) (r : Running) (g : Regs), s.engineTurn r →
    step { s with regs := g } = onNext (State.withRegs g) (step s)

/-- Otherwise the host's next operation is one step, and counts against the duration of a running command
(20_memory.md R71, 70_reset_and_hazards.md R351). A read is a bus read, a write a bus write, and a `wait` that ends only
records the STATUS it read (30_encoding.md R91, 20_memory.md R68). The queue of host operations, the count, the recorded
response and what an address outside the block does are the model's (log 8, log 9, log 15). -/
def Obligations.HostOperationIsOneStep : Prop :=
  (∀ (s : State) (op : HostOp) (rest : List HostOp), s.run = none → s.host = op :: rest →
    step s = .next (hostOp op { s with host := rest })) ∧
  (∀ (s : State) (r : Running) (op : HostOp) (rest : List HostOp), s.run = some r → r.left ≠ 0 → op ≠ .wait →
    s.host = op :: rest →
    step s = .next (hostOp op { s with host := rest, run := some { r with left := r.left - 1 } })) ∧
  (∀ s : State, s.run = none → s.host = [] → step s = .next s) ∧
  (∀ (s : State) (addr : Nat) (size : AccessSize) (v : Word),
    hostOp (.read addr size) s = busRead addr size s ∧ hostOp (.write addr size v) s = busWrite addr size v s ∧
    ((addr < s.params.blockBase ∨ s.params.blockBase + 0x200000 ≤ addr) →
      busRead addr size s = { s with resp := none } ∧ busWrite addr size v s = { s with resp := none })) ∧
  (∀ s : State, s.run = none →
    hostOp .wait s = { s with resp := some { error := false, data := s.readReg 0x004 } } ∧
    hostOp .wait s = hostOp (.read (s.params.blockBase + 0x004) .word) s)

/-! ### The invariant -/

/-- The machine after reset meets the invariant. Its state window and DMEM are the model's choice (log 5, 6), and so are
its parameters' P_VERSION and P_BLOCK_BASE (log 2, 3). -/
def Obligations.ResetMeetsInvariant : Prop := State.reset.Inv

/-- Every step keeps the invariant: legal parameters, canonical DMEM and state window, and a READY engine's active
configuration is one INIT latches, with window elements of their types (10_state.md R53, R57; 41_lifecycle.md R167, R168). That the
elements a raced hop draws have their types is R346's reading (log 13). -/
def Obligations.StepKeepsInvariant : Prop := ∀ s t : State, s.Inv → step s = .next t → t.Inv

/-- In a state that meets the invariant no step faults or is refused (93_implementation_defined.md: no case leaves the
engine in an undefined state; 60_exceptions.md R321). -/
def Obligations.StepNeverStops : Prop := ∀ s : State, s.Inv → ∃ t, step s = .next t

/-! ### Frames over all commands -/

/-- A failed command writes only LAST_STATUS and BUSY (60_exceptions.md R314). -/
def Obligations.FailedCommandOnlyReports : Prop :=
  ∀ (i : Instr) (s t : State), exec i s = .next t → t.lastStatus ≠ .ok → t = s.failed t.lastStatus

/-- No command writes a register of the host, a parameter, OVR, or the host's pending operations; every command ends
with BUSY = 0 (00_scope.md R12, 70_reset_and_hazards.md R345). -/
def Obligations.CommandsKeepHostState : Prop :=
  ∀ (i : Instr) (s t : State), exec i s = .next t →
    t.regs = s.regs ∧ t.params = s.params ∧ t.ovr = s.ovr ∧ t.host = s.host ∧ t.resp = s.resp ∧ t.run = none

/-- The persistent state is written only by a successful INIT, RESET or PROCESS_HOP (10_state.md R57). -/
def Obligations.PersistentStateWriters : Prop :=
  ∀ (i : Instr) (s t : State), exec i s = .next t → t.win ≠ s.win →
    (i = .init ∨ i = .reset ∨ i = .processHop) ∧ t.lastStatus = .ok

/-- ACT is written only by a successful INIT, which latches the registers (10_state.md R44); ESTATE only by INIT and
FREE (41_lifecycle.md R160); FFT_SHIFT only by INIT, RESET and PROCESS_HOP (10_state.md R42). -/
def Obligations.EngineStateWriters : Prop :=
  ∀ (i : Instr) (s t : State), exec i s = .next t →
    (t.act ≠ s.act → i = .init ∧ t.lastStatus = .ok ∧ ActLatched s t.act) ∧
    (t.estate ≠ s.estate → (i = .init ∧ t.estate = .ready) ∨ (i = .free ∧ t.estate = .freed)) ∧
    (t.fftShift ≠ s.fftShift → (i = .init ∨ i = .reset ∨ i = .processHop) ∧ t.lastStatus = .ok)

/-- Only the ALU commands write the ALU result and flags (10_state.md R48, R49), and only PROCESS_HOP writes DMEM
(20_memory.md R62). -/
def Obligations.AluAndDmemWriters : Prop :=
  ∀ (i : Instr) (s t : State), exec i s = .next t →
    (i ∈ engineCommands → t.aluRLo = s.aluRLo ∧ t.aluRHi = s.aluRHi ∧ t.aluSat = s.aluSat ∧ t.aluDz = s.aluDz) ∧
    (i ≠ .processHop → t.dmem = s.dmem)

/-- Each command reports only the codes of its row and ESTATE (60_exceptions.md R315). -/
def Obligations.CommandsReportTheirCodes : Prop :=
  ∀ (i : Instr) (s t : State), exec i s = .next t → t.lastStatus ∈ codesOf i s.estate

/-- FREED is terminal (41_lifecycle.md R178): every engine command reports ERR_NOT_INITIALISED and changes nothing, an
ALU command still runs, and only a power-on reset leaves FREED, for UNINITIALISED. -/
def Obligations.FreedIsTerminal : Prop :=
  ∀ s : State, s.estate = .freed →
    (∀ i : Instr, i ∈ engineCommands → exec i s = .next (s.failed .notInitialised)) ∧
    (∀ i : Instr, i ∉ engineCommands → ∃ t, exec i s = .next t ∧ t.lastStatus = .ok ∧ t.estate = .freed) ∧
    (∀ t : State, step s = .next t → t.estate ≠ .freed → s.host.head? = some .por ∧ t.estate = .uninitialised)

/-! ### Lifecycle -/

/-- INIT, case by case in the order of its checks (41_lifecycle.md R165, R166), with the registers as the host reads them;
the new ACT field by field (10_state.md R44). -/
def Obligations.InitFollowsItsChecks : Prop :=
  encode .init = 0x00000001#32 ∧
  ∀ s : State,
    (s.estate = .freed → exec .init s = .next (s.failed .notInitialised)) ∧
    (s.estate ≠ .freed →
      ((s.readReg 0x030 = 0 ∨ s.readReg 0x034 = 0 ∨ s.readReg 0x038 = 0 ∨ s.readReg 0x03C = 0) →
        exec .init s = .next (s.failed .nullArg)) ∧
      (s.readReg 0x030 ≠ 0 → s.readReg 0x034 ≠ 0 → s.readReg 0x038 ≠ 0 → s.readReg 0x03C ≠ 0 →
        (¬ ConfigValid s → exec .init s = .next (s.failed .invalidConfig)) ∧
        (ConfigValid s →
          ((s.readReg 0x040).toNat < s.scratchNeed → exec .init s = .next (s.failed .scratchTooSmall)) ∧
          (s.scratchNeed ≤ (s.readReg 0x040).toNat →
            (¬ TablesPlaced s → exec .init s = .next (s.failed .badRegion)) ∧
            (TablesPlaced s →
              ∃ a, ActLatched s a ∧
                exec .init s = .next { s with
                  act := a
                  win := postInit
                  fftShift := 0
                  estate := .ready
                  lastStatus := .ok
                  run := none })))))

/-- A valid configuration has a hop that is a power of two and an overlap ratio `2^j`, `1 ≤ j ≤ 15` (41_lifecycle.md
R167, its consequences); the latched configuration's normalisation shift is `j` with OLA_NORM (bit 5 of CFG_CTRL) and 0
without (46_synthesis_hop.md R292), its `F` is `2^L`, and it has `F/2 + 1` bins (00_scope.md R15). -/
def Obligations.ValidHopIsPowerOfTwo : Prop :=
  ∀ s : State, s.params.Legal → ConfigValid s →
    ∃ h j, s.field 0x010 16 16 = 2 ^ h ∧ 1 ≤ j ∧ j ≤ 15 ∧ s.field 0x010 0 16 = 2 ^ j * s.field 0x010 16 16 ∧
      s.regs.latch.R.log2 = j ∧ s.regs.latch.nsh = (if (s.readReg 0x00C).getLsbD 5 then j else 0) ∧
      2 ^ s.regs.latch.L = s.field 0x010 0 16 ∧ s.regs.latch.NB = s.field 0x010 0 16 / 2 + 1

/-- The post-init values as the host reads them: every MIN element MAXPOW, every other byte 0 (10_state.md R54), after a
successful INIT and after a successful RESET. -/
def Obligations.PostInitWindowBytes : Prop :=
  (∀ (p : Params) (o : Nat),
    windowByte p postInit o =
      if 24 * p.maxChannels + 6 * (p.maxChannels * p.maxFrameLen) ≤ o ∧
          o < 24 * p.maxChannels + 6 * (p.maxChannels * p.maxFrameLen) + 4 * (p.maxChannels * p.maxBins) then
        (if (o - (24 * p.maxChannels + 6 * (p.maxChannels * p.maxFrameLen))) % 4 = 3 then 0x7F#8 else 0xFF#8)
      else 0#8) ∧
  (∀ s t : State, (exec .init s = .next t ∨ exec .reset s = .next t) → t.lastStatus = .ok → t.win = postInit)

/-- RESET (41_lifecycle.md R175): in READY the post-init values and FFT_SHIFT 0, and a second RESET changes nothing
more; elsewhere ERR_NOT_INITIALISED. -/
def Obligations.ResetRestoresPostInit : Prop :=
  encode .reset = 0x00000003#32 ∧
  ∀ s : State,
    (s.estate = .ready →
      ∃ t, exec .reset s = .next t ∧
        t = { s with win := postInit, fftShift := 0, lastStatus := .ok, run := none } ∧ exec .reset t = .next t) ∧
    (s.estate ≠ .ready → exec .reset s = .next (s.failed .notInitialised))

/-- FREE (41_lifecycle.md R177): from UNINITIALISED and READY to FREED, and nothing else; a second FREE is an error that
changes nothing. -/
def Obligations.FreeOnlyChangesEngineState : Prop :=
  encode .free = 0x00000004#32 ∧
  ∀ s : State,
    (s.estate ≠ .freed →
      ∃ t, exec .free s = .next t ∧ t = { s with estate := .freed, lastStatus := .ok, run := none } ∧
        exec .free t = .next (t.failed .notInitialised)) ∧
    (s.estate = .freed → exec .free s = .next (s.failed .notInitialised))

/-! ### PROCESS_HOP -/

/-- PROCESS_HOP's checks (46_synthesis_hop.md R296, R300, R303): which code each failure reports, with IN_BASE and
OUT_BASE as the host reads them. -/
def Obligations.HopFailuresReport : Prop :=
  ∀ s : State,
    (s.estate ≠ .ready → exec .processHop s = .next (s.failed .notInitialised)) ∧
    (s.estate = .ready →
      ((s.readReg 0x044 = 0 ∨ s.readReg 0x048 = 0) → exec .processHop s = .next (s.failed .nullArg)) ∧
      (s.readReg 0x044 ≠ 0 → s.readReg 0x048 ≠ 0 → ¬ HopPlaced s →
        exec .processHop s = .next (s.failed .badRegion)))

/-- A hop whose checks pass completes with OK and FFT_SHIFT = L; it writes no DMEM byte outside OUT and SCR and nothing
but the elements of the active channels in the state window, DMEM, FFT_SHIFT and STATUS (46_synthesis_hop.md R300, 44_transform.md R238). -/
def Obligations.HopCompletesWithinItsRegions : Prop :=
  encode .processHop = 0x00000002#32 ∧
  ∀ s : State, s.Inv → HopReady s → s.raced = false →
    ∃ t, exec .processHop s = .next t ∧
      t = { s with win := t.win, dmem := t.dmem, fftShift := t.fftShift, lastStatus := .ok, run := none } ∧
      t.fftShift.toNat = s.act.L ∧ OnlyHopRegions s t ∧ SameOutsideActive s.params s.act s.win t.win

/-- A hop is the pipeline of each channel on its own, from the state before the hop: the output hop is the mean of the
channels' outputs truncated toward zero, and each channel's state is its own pipeline's (42_prefilters.md R199,
46_synthesis_hop.md R295, R300). The pipeline up to the windowed frame is written out sample by sample: the input layout
(R301), DC removal (42_prefilters.md R191), pre-emphasis (R195), the buffer (43_framing_window.md R211) and the window
(R215). From there on it is written out too: the load and the tables (44_transform.md R231, R232), the two transforms
around the suppressor and the rebuild, the rescale and the narrowing (R243), and the overlap-add of every sum that lies
in int32 (46_synthesis_hop.md R293). -/
def Obligations.HopRunsChannelsIndependently : Prop :=
  ∀ s t : State, s.Inv → HopReady s → s.raced = false → exec .processHop s = .next t →
    (∀ i, i < s.act.H →
      rdI16 t.dmem ((s.readReg 0x048).toNat + 2 * i) =
        Int.tdiv ((List.range s.act.C).map fun c => (hopChan s c).out.getD i 0).sum s.act.C) ∧
    (∀ c, c < s.act.C →
      loadChan s.params s.act t.win c = (hopChan s c).ch ∧
      (FrontEnd s t c fun n => (hopChan s c).xw.getD n 0) ∧ BackEnd s t c (hopChan s c))

/-- The scratch after a hop (41_lifecycle.md R170, 46_synthesis_hop.md R302): XW, RE and IM of the last channel, and the
gains of every channel. -/
def Obligations.ScratchAfterHop : Prop :=
  ∀ s t : State, s.Inv → HopReady s → s.raced = false → exec .processHop s = .next t →
    rdI16s t.dmem s.act.scratchBase.toNat s.act.F = (hopChan s (s.act.C - 1)).xw ∧
    rdI32s t.dmem (s.act.scratchBase.toNat + 2 * s.act.F) s.act.F = (hopChan s (s.act.C - 1)).z.map Prod.fst ∧
    rdI32s t.dmem (s.act.scratchBase.toNat + 6 * s.act.F) s.act.F = (hopChan s (s.act.C - 1)).z.map Prod.snd ∧
    (s.act.nsEn = true → ∀ c, c < s.act.C →
      rdI32s t.dmem (s.act.scratchBase.toNat + 10 * s.act.F + 4 * (c * s.act.NB)) s.act.NB = (hopChan s c).gain)

/-- A hop the host has raced still completes with OK and its own ESTATE, and writes no DMEM byte outside OUT and SCR
and no state-window element outside the active channels, for every value the free values take (70_reset_and_hazards.md R346). -/
def Obligations.RacedHopStaysInItsRegions : Prop :=
  ∀ s : State, s.Inv → HopReady s → s.raced = true →
    ∃ t, exec .processHop s = .next t ∧ t.lastStatus = .ok ∧ t.run = none ∧ t.estate = s.estate ∧ t.act = s.act ∧
      t.regs = s.regs ∧ t.ovr = s.ovr ∧
      t.aluRLo = s.aluRLo ∧ t.aluRHi = s.aluRHi ∧ t.aluSat = s.aluSat ∧ t.aluDz = s.aluDz ∧
      OnlyHopRegions s t ∧ SameOutsideActive s.params s.act s.win t.win

/-- With noise suppression off (45_noise_suppressor.md R272): no hop, raced or not, changes MIN, EST, NS_TPA or NS_CNT,
the scratch has no GAIN region and no gain is computed, and the forward transform goes to the Hermitian rebuild unchanged. -/
def Obligations.SuppressorOffTouchesNothing : Prop :=
  (∀ s t : State, s.act.nsEn = false → exec .processHop s = .next t →
    t.win.min = s.win.min ∧ t.win.est = s.win.est ∧ t.win.nsTpa = s.win.nsTpa ∧ t.win.nsCnt = s.win.nsCnt) ∧
  (∀ a : Act, a.nsEn = false → a.SB = 10 * a.F) ∧
  (∀ (sym : Bool) (a : Act) (ns : Ns) (z : List Cx), a.nsEn = false →
    suppress sym a ns z = { ns := ns, gain := [], z := z })

/-- BF_EN, AEC_EN and SAMPLE_RATE of the active configuration have no effect on a hop (10_state.md R27, R32). -/
def Obligations.UnusedFlagsDoNotMatter : Prop :=
  ∀ (s : State) (bf aec : Bool) (fs : Word),
    exec .processHop { s with act := { s.act with bfEn := bf, aecEn := aec, sampleRate := fs } } =
      onNext (fun t => { t with act := { s.act with bfEn := bf, aecEn := aec, sampleRate := fs } })
        (exec .processHop s)

/-- Silence (45_noise_suppressor.md R274): from a silent stream state, a hop of zero samples gives zero output and zero
gains and leaves the stream state silent, whatever the tables and coefficients are. -/
def Obligations.SilenceStaysSilent : Prop :=
  ∀ s t : State, s.Inv → HopReady s → s.raced = false → Silent s.win →
    (∀ j, j < s.act.C * s.act.H → rdI16 s.dmem ((s.readReg 0x044).toNat + 2 * j) = 0) →
    exec .processHop s = .next t →
    Silent t.win ∧
    (∀ i, i < s.act.H → rdI16 t.dmem ((s.readReg 0x048).toNat + 2 * i) = 0) ∧
    (s.act.nsEn = true → ∀ j, j < s.act.C * s.act.NB →
      rdI32 t.dmem (s.act.scratchBase.toNat + 10 * s.act.F + 4 * j) = 0)

/-! ### The stages of the pipeline -/

/-- DC removal of a constant input (42_prefilters.md R193): for 0 < α < 1 the wide output reaches 0 for a positive input
and stops inside the dead band for a negative one; for α ≤ 2^31 − 2^16 the narrow output reaches 0. -/
def Obligations.DcRemovalConverges : Prop :=
  ∀ (sym : Bool) (alpha x : Int), 0 < alpha → alpha < 2 ^ 31 → -32768 ≤ x → x ≤ 32767 →
    (0 ≤ x → ∃ n, ∀ m, n ≤ m → dcAfter sym alpha x m = 0) ∧
    (x < 0 → ∃ n y, y < 0 ∧ -y * (2 ^ 31 - alpha) < 2 ^ 31 ∧ ∀ m, n ≤ m → dcAfter sym alpha x m = y) ∧
    (alpha ≤ 2 ^ 31 - 2 ^ 16 → ∃ n, ∀ m, n ≤ m → narrow sym (dcAfter sym alpha x m) = 0)

/-- The hop buffer holds the newest F pre-emphasis outputs of the stream, after any number of hops (43_framing_window.md
R211, R213). -/
def Obligations.BufferHoldsTheStream : Prop :=
  ∀ (sym : Bool) (a : Act) (t : Tables) (ch : Chan) (hops : List (List Int)),
    ch.buf.length = a.F → a.H ≤ a.F → (∀ xs ∈ hops, xs.length = a.H) →
    (chanRun sym a t ch hops).buf =
      (ch.buf ++ (prefilter sym a.dcAlpha.toInt a.peAlpha.toInt ch.pre hops.flatten).1).drop (hops.length * a.H)

/-- The bit-reversal permutation, made by exchanges, puts at each index the element of the reversed index
(44_transform.md R233), and the reversed index has the low L bits of the index in the opposite order (00_scope.md R10). -/
def Obligations.BitReversalPermutes : Prop :=
  ∀ (L : Nat) (z : List Cx), z.length = 2 ^ L → ∀ i, i < 2 ^ L →
    cxAt (bitrevPermute L z) i = cxAt z (bitrev L i) ∧ bitrev L i < 2 ^ L ∧ bitrev L (bitrev L i) = i ∧
    ∀ j, j < L → (bitrev L i).testBit j = i.testBit (L - 1 - j)

/-- A stage done in place, butterfly by butterfly, gives what all its butterflies give at once from the halved values
(44_transform.md R234, R235); a transform is the permutation and then stages 1 to L (R236). -/
def Obligations.StageIsSimultaneous : Prop :=
  (∀ (sym inverse : Bool) (cos sin : List Int) (L s : Nat) (z : List Cx),
    z.length = 2 ^ L → 1 ≤ s → s ≤ L → ∀ n, n < 2 ^ L →
      cxAt (stage sym inverse cos sin L s z) n = stageElement sym inverse cos sin L s z n) ∧
  (∀ (sym inverse : Bool) (cos sin : List Int) (L : Nat) (z : List Cx), ∃ stages : Nat → List Cx,
    stages 0 = bitrevPermute L z ∧
    (∀ s, s < L → stages (s + 1) = stage sym inverse cos sin L (s + 1) (stages s)) ∧
    transform sym inverse cos sin L z = stages L)

/-- The Hermitian rebuild (44_transform.md R241): bins 0 to F/2 stay, bin F − k is the conjugate of bin k; it runs
whether or not the suppressor does. -/
def Obligations.HermitianRebuildMirrors : Prop :=
  (∀ (sym : Bool) (f : Nat) (z : List Cx), 2 ≤ f → f % 2 = 0 → z.length = f → ∀ n, n < f →
    cxAt (hermitianRebuild sym f z) n =
      if n ≤ f / 2 then cxAt z n else ((cxAt z (f - n)).1, boundedQ31 sym (-(cxAt z (f - n)).2))) ∧
  (∀ (sym : Bool) (a : Act) (t : Tables) (ns : Ns) (xw : List Int),
    (spectral sym a t ns xw).z =
      rescale sym a.L (transform sym true t.cos t.sin a.L
        (hermitianRebuild sym a.F (suppress sym a ns (transform sym false t.cos t.sin a.L (loadFrame xw))).z)))

/-- The estimate update (45_noise_suppressor.md R265): the blend with rate 1/16 on a speech-like hop and 1/8 otherwise,
in 0 .. MAXPOW, where the bound never changes a value. -/
def Obligations.EstimateStaysInRange : Prop :=
  ∀ (speech : Bool) (mn est : Int), 0 ≤ mn → mn ≤ maxPow → 0 ≤ est → est ≤ maxPow →
    estUpdate (rateShift speech) mn est =
      est - est / (if speech then 16 else 8) + ((mn + est) / 2) / (if speech then 16 else 8) ∧
    0 ≤ estUpdate (rateShift speech) mn est ∧ estUpdate (rateShift speech) mn est ≤ maxPow

/-- The gain of a bin (45_noise_suppressor.md R268): 0 where the power does not exceed the floor; above it the quotient,
in 0 .. 512 with no saturation, and 512 exactly when nothing is subtracted. -/
def Obligations.GainAtMostUnity : Prop :=
  ∀ (sym : Bool) (cfg : NsCfg) (p est : Int), 0 ≤ cfg.floor → 0 ≤ cfg.oversub → 0 ≤ est → 0 ≤ p →
    (p ≤ cfg.floor → binGain sym cfg p est = 0) ∧
    (cfg.floor < p →
      binGain sym cfg p est = (max (p - cfg.oversub * est / 512) cfg.floor * 512) / p ∧
      0 ≤ binGain sym cfg p est ∧ binGain sym cfg p est ≤ 512 ∧
      (binGain sym cfg p est = 512 ↔ cfg.oversub * est / 512 = 0))

/-- The whole suppressor step written out (45_noise_suppressor.md R261 to R271): the minima, the speech flag, the
estimates, their total, the gains, the gained bins, the counter; and the tracker reset over many hops (R270): counted
from a counter of 0, after n hops the counter is n modulo MINTRACK, and the minima are all MAXPOW after every MINTRACK-th
hop. -/
def Obligations.TrackerResetsEveryMintrackHops : Prop :=
  (∀ (sym : Bool) (cfg : NsCfg) (nb : Nat) (st : Ns) (z : List Cx),
    1 ≤ nb → nb ≤ z.length → st.min.length = nb → st.est.length = nb → st.cnt ≤ 65535 → 0 ≤ cfg.floor →
    SuppressorStep sym cfg nb st z (nsStep sym cfg nb st z)) ∧
  (∀ (sym : Bool) (cfg : NsCfg) (nb : Nat) (st : Ns) (zs : List (List Cx)),
    1 ≤ cfg.mintrack → cfg.mintrack ≤ 65535 → st.cnt = 0 →
    (nsRun sym cfg nb st zs).cnt = zs.length % cfg.mintrack ∧
    (zs ≠ [] → zs.length % cfg.mintrack = 0 → ∀ m ∈ (nsRun sym cfg nb st zs).min, m = maxPow))

/-- Frames that are each a constant `c` (10_state.md R29; 46_synthesis_hop.md R292, R293, R298): from hop R − 1 on,
OLA_NORM = 1 gives `c`, and OLA_NORM = 0 the plain sum R·c, saturated. -/
def Obligations.ConstantFramesReproduced : Prop :=
  State.reset.regs.olaNorm = true ∧
  ∀ (p : Params) (a : Act) (c : Int) (n : Nat), p.Legal → frameOk p a.F a.H a.C = true →
    (if p.symSat then -32767 else -32768) ≤ c → c ≤ 32767 → a.R ≤ n + 1 →
    (olaStep p.symSat a.H a.nsh (olaRun p.symSat a.H a.nsh (List.replicate a.F c) (List.replicate a.F 0) n)
        (List.replicate a.F c)).1 =
      List.replicate a.H
        (if a.olaNorm then c else bounded (if p.symSat then -32767 else -32768) 32767 (a.R * c))

/-- The channel combination (46_synthesis_hop.md R295): the quotient of the exact sum, truncated toward zero, is an int16
with no saturation; one channel is its own output. -/
def Obligations.CombinationFitsInt16 : Prop :=
  ∀ (h : Nat) (outs : List (List Int)), outs ≠ [] → outs.length ≤ 255 →
    (∀ o ∈ outs, o.length = h ∧ ∀ v ∈ o, -32768 ≤ v ∧ v ≤ 32767) →
    (combine outs.length h outs).length = h ∧
    (∀ i, i < h →
      (combine outs.length h outs).getD i 0 = Int.tdiv (outs.map fun o => o.getD i 0).sum outs.length ∧
      -32768 ≤ (combine outs.length h outs).getD i 0 ∧ (combine outs.length h outs).getD i 0 ≤ 32767) ∧
    (∀ o, outs = [o] → combine 1 h outs = o)

/-! ### ALU commands -/

/-- SAT16 and SAT32 (40_qformat_alu.md R111, R112). -/
def Obligations.SaturateCommands : Prop :=
  encode .sat16 = 0x00000110#32 ∧ encode .sat32 = 0x00000210#32 ∧
  ∀ s : State,
    (∃ t, exec .sat16 s = .next t ∧
      AluWrote s t (bounded s.low16 32767 (s.regs.aluAHi ++ s.regs.aluALo).toInt)
        (outside s.low16 32767 (s.regs.aluAHi ++ s.regs.aluALo).toInt) false) ∧
    (∃ t, exec .sat32 s = .next t ∧
      AluWrote s t (bounded s.low32 (2 ^ 31 - 1) (s.regs.aluAHi ++ s.regs.aluALo).toInt)
        (outside s.low32 (2 ^ 31 - 1) (s.regs.aluAHi ++ s.regs.aluALo).toInt) false)

/-- WIDEN and NARROW (40_qformat_alu.md R113, R114). -/
def Obligations.ConvertCommands : Prop :=
  encode .widen = 0x00000310#32 ∧ encode .narrow = 0x00000410#32 ∧
  ∀ s : State,
    (∃ t, exec .widen s = .next t ∧
      AluWrote s t ((s.regs.aluALo.extractLsb' 0 16).toInt * 2 ^ 16) false false) ∧
    (∃ t, exec .narrow s = .next t ∧
      AluWrote s t (bounded s.low16 32767 ((s.regs.aluALo.toInt + 2 ^ 15) / 2 ^ 16))
        (outside s.low16 32767 ((s.regs.aluALo.toInt + 2 ^ 15) / 2 ^ 16)) false ∧
      (s.params.symSat = false → (t.aluSat = true ↔ 0x7FFF8000 ≤ s.regs.aluALo.toInt)))

/-- MULQ15, MULQ31 and MULW (40_qformat_alu.md R115, R116, R117): floored products, saturating by default only for the
most negative value squared; MULW is exact. -/
def Obligations.MultiplyCommands : Prop :=
  encode .mulq15 = 0x00000510#32 ∧ encode .mulq31 = 0x00000610#32 ∧ encode .mulw = 0x00000710#32 ∧
  ∀ s : State,
    (∃ t, exec .mulq15 s = .next t ∧
      AluWrote s t
        (bounded s.low16 32767
          ((s.regs.aluALo.extractLsb' 0 16).toInt * (s.regs.aluBLo.extractLsb' 0 16).toInt / 2 ^ 15))
        (outside s.low16 32767
          ((s.regs.aluALo.extractLsb' 0 16).toInt * (s.regs.aluBLo.extractLsb' 0 16).toInt / 2 ^ 15)) false ∧
      (s.params.symSat = false → (t.aluSat = true ↔
        (s.regs.aluALo.extractLsb' 0 16).toInt = -32768 ∧ (s.regs.aluBLo.extractLsb' 0 16).toInt = -32768))) ∧
    (∃ t, exec .mulq31 s = .next t ∧
      AluWrote s t (bounded s.low32 (2 ^ 31 - 1) (s.regs.aluALo.toInt * s.regs.aluBLo.toInt / 2 ^ 31))
        (outside s.low32 (2 ^ 31 - 1) (s.regs.aluALo.toInt * s.regs.aluBLo.toInt / 2 ^ 31)) false ∧
      (s.params.symSat = false → (t.aluSat = true ↔
        s.regs.aluALo.toInt = -(2 ^ 31) ∧ s.regs.aluBLo.toInt = -(2 ^ 31)))) ∧
    (∃ t, exec .mulw s = .next t ∧ AluWrote s t (s.regs.aluALo.toInt * s.regs.aluBLo.toInt) false false)

/-- MAC2 and MSU2 (40_qformat_alu.md R118, R119): the exact sum or difference of two products, floored once. -/
def Obligations.MultiplyAccumulateCommands : Prop :=
  encode .mac2 = 0x00000810#32 ∧ encode .msu2 = 0x00000910#32 ∧
  ∀ s : State,
    (∃ t, exec .mac2 s = .next t ∧
      AluWrote s t
        (bounded s.low32 (2 ^ 31 - 1)
          ((s.regs.aluALo.toInt * s.regs.aluBLo.toInt + s.regs.aluC.toInt * s.regs.aluD.toInt) / 2 ^ 31))
        (outside s.low32 (2 ^ 31 - 1)
          ((s.regs.aluALo.toInt * s.regs.aluBLo.toInt + s.regs.aluC.toInt * s.regs.aluD.toInt) / 2 ^ 31)) false) ∧
    (∃ t, exec .msu2 s = .next t ∧
      AluWrote s t
        (bounded s.low32 (2 ^ 31 - 1)
          ((s.regs.aluALo.toInt * s.regs.aluBLo.toInt - s.regs.aluC.toInt * s.regs.aluD.toInt) / 2 ^ 31))
        (outside s.low32 (2 ^ 31 - 1)
          ((s.regs.aluALo.toInt * s.regs.aluBLo.toInt - s.regs.aluC.toInt * s.regs.aluD.toInt) / 2 ^ 31)) false)

/-- ADDS32, SUBS32 and NEGS32 (40_qformat_alu.md R120, R121, R122). -/
def Obligations.WideAddCommands : Prop :=
  encode .adds32 = 0x00000A10#32 ∧ encode .subs32 = 0x00000B10#32 ∧ encode .negs32 = 0x00000C10#32 ∧
  ∀ s : State,
    (∃ t, exec .adds32 s = .next t ∧
      AluWrote s t (bounded s.low32 (2 ^ 31 - 1) (s.regs.aluALo.toInt + s.regs.aluBLo.toInt))
        (outside s.low32 (2 ^ 31 - 1) (s.regs.aluALo.toInt + s.regs.aluBLo.toInt)) false) ∧
    (∃ t, exec .subs32 s = .next t ∧
      AluWrote s t (bounded s.low32 (2 ^ 31 - 1) (s.regs.aluALo.toInt - s.regs.aluBLo.toInt))
        (outside s.low32 (2 ^ 31 - 1) (s.regs.aluALo.toInt - s.regs.aluBLo.toInt)) false) ∧
    (∃ t, exec .negs32 s = .next t ∧
      AluWrote s t (bounded s.low32 (2 ^ 31 - 1) (-s.regs.aluALo.toInt))
        (outside s.low32 (2 ^ 31 - 1) (-s.regs.aluALo.toInt)) false)

/-- ADDS16 and SUBS16 (40_qformat_alu.md R123, R124): only the low halves are read. -/
def Obligations.NarrowAddCommands : Prop :=
  encode .adds16 = 0x00000D10#32 ∧ encode .subs16 = 0x00000E10#32 ∧
  ∀ s : State,
    (∃ t, exec .adds16 s = .next t ∧
      AluWrote s t
        (bounded s.low16 32767
          ((s.regs.aluALo.extractLsb' 0 16).toInt + (s.regs.aluBLo.extractLsb' 0 16).toInt))
        (outside s.low16 32767
          ((s.regs.aluALo.extractLsb' 0 16).toInt + (s.regs.aluBLo.extractLsb' 0 16).toInt)) false) ∧
    (∃ t, exec .subs16 s = .next t ∧
      AluWrote s t
        (bounded s.low16 32767
          ((s.regs.aluALo.extractLsb' 0 16).toInt - (s.regs.aluBLo.extractLsb' 0 16).toInt))
        (outside s.low16 32767
          ((s.regs.aluALo.extractLsb' 0 16).toInt - (s.regs.aluBLo.extractLsb' 0 16).toInt)) false)

/-- ASR32 and SHLS32 (40_qformat_alu.md R125, R126) for every shift amount a word encodes. -/
def Obligations.ShiftCommands : Prop :=
  ∀ (s : State) (n : Nat), n ≤ 31 →
    encode (.asr32 n) = BitVec.ofNat 32 (0x00000F10 + n * 2 ^ 16) ∧
    encode (.shls32 n) = BitVec.ofNat 32 (0x00001010 + n * 2 ^ 16) ∧
    (∃ t, exec (.asr32 n) s = .next t ∧ AluWrote s t (s.regs.aluALo.toInt / 2 ^ n) false false) ∧
    (∃ t, exec (.shls32 n) s = .next t ∧
      AluWrote s t (bounded s.low32 (2 ^ 31 - 1) (s.regs.aluALo.toInt * 2 ^ n))
        (outside s.low32 (2 ^ 31 - 1) (s.regs.aluALo.toInt * 2 ^ n)) false)

/-- MULG and DIVG (40_qformat_alu.md R127, R128): the gain is unsigned; the quotient floors at every combination of
signs; a divisor 0 gives 0 with DZ set, and OK. -/
def Obligations.GainCommands : Prop :=
  encode .mulg = 0x00001110#32 ∧ encode .divg = 0x00001210#32 ∧
  ∀ s : State,
    (∃ t, exec .mulg s = .next t ∧
      AluWrote s t
        (bounded s.low32 (2 ^ 31 - 1) (s.regs.aluALo.toInt * (s.regs.aluBLo.toNat % 65536 : Nat) / 512))
        (outside s.low32 (2 ^ 31 - 1) (s.regs.aluALo.toInt * (s.regs.aluBLo.toNat % 65536 : Nat) / 512)) false) ∧
    (s.regs.aluBLo = 0 → ∃ t, exec .divg s = .next t ∧ AluWrote s t 0 false true) ∧
    (s.regs.aluBLo ≠ 0 → ∃ t q : _, exec .divg s = .next t ∧
      AluWrote s t (bounded s.low16 32767 q) (outside s.low16 32767 q) false ∧
      (0 < s.regs.aluBLo.toInt →
        q * s.regs.aluBLo.toInt ≤ s.regs.aluALo.toInt * 512 ∧
        s.regs.aluALo.toInt * 512 < (q + 1) * s.regs.aluBLo.toInt) ∧
      (s.regs.aluBLo.toInt < 0 →
        s.regs.aluALo.toInt * 512 ≤ q * s.regs.aluBLo.toInt ∧
        (q + 1) * s.regs.aluBLo.toInt < s.regs.aluALo.toInt * 512))

/-- POWQ31 (40_qformat_alu.md R129): never negative, at most MAXPOW, SAT exactly when the bound clamps. -/
def Obligations.PowerCommand : Prop :=
  encode .powq31 = 0x00001310#32 ∧
  ∀ s : State, ∃ t r : _, exec .powq31 s = .next t ∧
    AluWrote s t r
      (decide (2 ^ 31 - 1 < s.regs.aluALo.toInt * s.regs.aluALo.toInt / 2 ^ 31 +
        s.regs.aluBLo.toInt * s.regs.aluBLo.toInt / 2 ^ 31)) false ∧
    r = min (2 ^ 31 - 1) (s.regs.aluALo.toInt * s.regs.aluALo.toInt / 2 ^ 31 +
        s.regs.aluBLo.toInt * s.regs.aluBLo.toInt / 2 ^ 31) ∧
    0 ≤ r

/-- Round trips between the formats (40_qformat_alu.md R132), for the default saturation bounds: `narrow` undoes `widen`
without saturating, and `widen` undoes `narrow` up to half a unit where `narrow` does not saturate. -/
def Obligations.FormatRoundTrips : Prop :=
  (∀ x : Int, -32768 ≤ x → x ≤ 32767 → narrow false (widen x) = x ∧ satFlag16 false (narrowRaw (widen x)) = false) ∧
  (∀ v : Int, -(2 ^ 31) ≤ v → v < 0x7FFF8000 →
    widen (narrow false v) - v ≤ 2 ^ 15 ∧ v - widen (narrow false v) ≤ 2 ^ 15)

/-! ### Registers, memory, reset -/

/-- A CMD write (10_state.md R25): idle, it starts the command with a snapshot of the registers; while one runs, it only
sets OVR; CMD reads 0. The duration it draws is free (log 8). -/
def Obligations.CmdWriteStartsOrOverruns : Prop :=
  ∀ (s : State) (v : Word),
    (s.run = none → ∃ r : Running, r.word = v ∧ r.snap = s.regs ∧ r.raced = false ∧
      busWrite (s.params.blockBase + 0x008) .word v s =
        { s with run := some r, draws := s.draws + 1, resp := some { error := false, data := 0 } }) ∧
    (s.run ≠ none →
      busWrite (s.params.blockBase + 0x008) .word v s =
        { s with ovr := true, resp := some { error := false, data := 0 } }) ∧
    s.readReg 0x008 = 0

/-- An access of a width or alignment its window does not take is a bus error with data 0 and no other effect
(20_memory.md R65); every other access inside the block is none. The register window is the first 512 KiB of the block,
the state window and DMEM the rest (R60). -/
def Obligations.IllegalAccessIsBusError : Prop :=
  (∀ (off : Nat) (size : AccessSize),
    (accessLegal (.register off) size = true ↔ size = .word ∧ off % 4 = 0) ∧
    (accessLegal (.stateWindow off) size = true ↔ off % size.bytes = 0) ∧
    (accessLegal (.dmem off) size = true ↔ off % size.bytes = 0)) ∧
  (∀ (s : State) (addr : Nat) (size : AccessSize) (t : BusTarget) (v : Word),
    busTarget s.params addr = some t → accessLegal t size = false →
    busRead addr size s = { s with resp := some { error := true, data := 0 } } ∧
    busWrite addr size v s = { s with resp := some { error := true, data := 0 } }) ∧
  (∀ (s : State) (off : Nat) (size : AccessSize) (v : Word), off < 0x200000 →
    ((if off < 0x080000 then size = .word ∧ off % 4 = 0 else off % size.bytes = 0) →
      ((busRead (s.params.blockBase + off) size s).resp.map BusResp.error = some false ∧
        (busWrite (s.params.blockBase + off) size v s).resp = some { error := false, data := 0 })) ∧
    (¬ (if off < 0x080000 then size = .word ∧ off % 4 = 0 else off % size.bytes = 0) →
      (busRead (s.params.blockBase + off) size s = { s with resp := some { error := true, data := 0 } } ∧
        busWrite (s.params.blockBase + off) size v s = { s with resp := some { error := true, data := 0 } })))

/-- Reserved bits and unlisted offsets read 0, and writing them has no effect (10_state.md R58). -/
def Obligations.ReservedBitsReadZero : Prop :=
  (∀ (s : State) (off : Nat), s.readReg off &&& ~~~(definedBits off) = 0) ∧
  (∀ (s : State) (off : Nat) (v : Word), State.writeReg off v s = State.writeReg off (v &&& definedBits off) s) ∧
  (∀ (s : State) (off : Nat) (v : Word), definedBits off = 0 → s.readReg off = 0 ∧ State.writeReg off v s = s)

/-- The register window (10_state.md R22). A read-write register reads back what its bits took, and a write of one leaves
every other register but SCRATCH_BYTES, which is computed, as it was (R26 to R39, R47); the base registers drop bits 1:0
(R38). STATUS packs BUSY, ESTATE, LAST_STATUS and OVR, and a write of it clears OVR where bit 8 is set and does nothing
else (R24). The ALU operand registers read the operands of the ALU commands (R47), VERSION the version (R23) and the other read-only
registers the engine's fields (R42, R48, R49), and a write of a read-only register changes nothing. On the
bus, an idle core's register at an offset stands at the block's base plus the offset (20_memory.md R60). -/
def Obligations.RegisterWriteReadsBack : Prop :=
  (∀ (s : State) (off off' : Nat) (v : Word), off ∈ readWriteOffsets →
    (State.writeReg off v s).readReg off = v &&& definedBits off ∧
    (off' ≠ off → off' ≠ 0x050 → (State.writeReg off v s).readReg off' = s.readReg off')) ∧
  (∀ (s : State) (v : Word),
    (s.readReg 0x004).toNat = s.statusNumber ∧
    State.writeReg 0x004 v s = { s with ovr := s.ovr && !v.getLsbD 8 }) ∧
  (∀ s : State,
    s.readReg 0x060 = s.regs.aluALo ∧ s.readReg 0x064 = s.regs.aluAHi ∧ s.readReg 0x068 = s.regs.aluBLo ∧
    s.readReg 0x06C = s.regs.aluBHi ∧ s.readReg 0x070 = s.regs.aluC ∧ s.readReg 0x074 = s.regs.aluD ∧
    s.readReg 0x000 = 0#8 ++ s.params.versionMajor ++ s.params.versionMinor ++ s.params.versionPatch ∧
    s.readReg 0x054 = s.fftShift.setWidth 32 ∧ s.readReg 0x078 = s.aluRLo ∧ s.readReg 0x07C = s.aluRHi ∧
    (s.readReg 0x080).toNat = (if s.aluSat then 1 else 0) + (if s.aluDz then 2 else 0)) ∧
  (∀ (s : State) (off : Nat) (v : Word), off ∈ readOnlyOffsets → State.writeReg off v s = s) ∧
  (∀ (s : State) (off : Nat) (v : Word), off < 0x080000 → off % 4 = 0 →
    (s.run = none →
      busRead (s.params.blockBase + off) .word s =
        { s with resp := some { error := false, data := s.readReg off } }) ∧
    busWrite (s.params.blockBase + off) .word v s =
      { State.writeReg off v s with resp := some { error := false, data := 0 } })

/-- SCRATCH_BYTES (10_state.md R41) and STATE_BYTES (R40) as 32-bit registers hold the planner's sums exactly, from
FRAME_LEN, NUM_CHANNELS and NS_EN as the host reads them. -/
def Obligations.SizingRegistersAreExact : Prop :=
  ∀ s : State,
    (s.readReg 0x050).toNat =
      2 * s.field 0x010 0 16 + 2 * (4 * s.field 0x010 0 16) +
        (if (s.readReg 0x00C).getLsbD 0 then s.field 0x014 0 8 * (s.field 0x010 0 16 / 2 + 1) * 4 else 0) ∧
    (s.params.Legal →
      (s.readReg 0x04C).toNat =
        s.params.maxChannels * (24 + 6 * s.params.maxFrameLen + 8 * (s.params.maxFrameLen / 2 + 1))) ∧
    State.reset.readReg 0x050 = 0

/-- DMEM with the engine idle, at the block's base + 0x100000 + an offset. A host read of one, two or four bytes gives its
bytes in little-endian order; what the host writes reads back by accesses of every size inside it; no other byte changes
(20_memory.md R60, R64, R65). A read of any address changes only the response (R68). The engine's RdI16 and RdI32 read
the same bytes, little-endian and signed (00_scope.md R11, 20_memory.md R66). -/
def Obligations.DmemWordReadsBack : Prop :=
  (∀ (s : State) (a : Nat) (size : AccessSize) (v : Word), s.Inv → s.run = none → a % size.bytes = 0 →
    a + size.bytes ≤ s.params.dmemBytes →
    let addr := s.params.blockBase + 0x100000 + a
    let t := busWrite addr size v s
    (∃ data, busRead addr size s = { s with resp := some { error := false, data := data } } ∧
      data.toNat < 2 ^ (8 * size.bytes) ∧
      ∀ k, k < size.bytes → data.extractLsb' (8 * k) 8 = Memory.byte s.dmem (a + k)) ∧
    (∀ (part : AccessSize) (k : Nat), (a + k) % part.bytes = 0 → k + part.bytes ≤ size.bytes →
      busRead (addr + k) part t =
        { t with
          resp := some { error := false, data := (v.extractLsb' (8 * k) (8 * part.bytes)).setWidth 32 } }) ∧
    (size = .word → rdI32 t.dmem a = v.toInt) ∧ (size = .half → rdI16 t.dmem a = (v.extractLsb' 0 16).toInt) ∧
    t = { s with dmem := t.dmem, resp := some { error := false, data := 0 } } ∧
    (∀ b, b < a ∨ a + size.bytes ≤ b → Memory.byte t.dmem b = Memory.byte s.dmem b)) ∧
  (∀ (s : State) (addr : Nat) (size : AccessSize), s.run = none →
    busRead addr size s = { s with resp := (busRead addr size s).resp }) ∧
  (∀ (m : Memory) (a : Nat),
    rdI16 m a = (Memory.byte m (a + 1) ++ Memory.byte m a).toInt ∧
    rdI32 m a =
      (Memory.byte m (a + 3) ++ Memory.byte m (a + 2) ++ Memory.byte m (a + 1) ++ Memory.byte m a).toInt)

/-- The layout of the state window (10_state.md R53), at the block's base + 0x080000 (20_memory.md R60): with the engine
idle, a host read at an element's offset gives that element: 32 bits at DC_X, DC_Y, PE_X, NS_CNT, OLA, MIN and EST, 16
bits at BUF, and the two halves of NS_TPA, low half first (R64). A read of any aligned width gives the bytes that reads of
one byte give, in little-endian order (R64, R65), and the read changes only the response (R68). -/
def Obligations.WindowReadsItsElements : Prop :=
  ∀ s : State, s.params.Legal → s.run = none →
    let cm := s.params.maxChannels
    let cf := s.params.maxChannels * s.params.maxFrameLen
    let cb := s.params.maxChannels * (s.params.maxFrameLen / 2 + 1)
    let reads := fun (o : Nat) (size : AccessSize) (v : Word) =>
      busRead (s.params.blockBase + 0x080000 + o) size s = { s with resp := some { error := false, data := v } }
    (∀ o, o < 0x080000 → reads o .byte ((windowByte s.params s.win o).setWidth 32)) ∧
    (∀ (o : Nat) (size : AccessSize), o % size.bytes = 0 → o < 0x080000 →
      ∃ data : Word, reads o size data ∧ data.toNat < 2 ^ (8 * size.bytes) ∧
        ∀ k, k < size.bytes → reads (o + k) .byte ((data.extractLsb' (8 * k) 8).setWidth 32)) ∧
    (∀ c, c < cm →
      reads (4 * c) .word (sparseGet 0 s.win.dcX c) ∧
      reads (4 * cm + 4 * c) .word (sparseGet 0 s.win.dcY c) ∧
      reads (8 * cm + 4 * c) .word (sparseGet 0 s.win.peX c) ∧
      reads (12 * cm + 4 * c) .word (sparseGet 0 s.win.nsCnt c) ∧
      reads (16 * cm + 8 * c) .word ((sparseGet 0 s.win.nsTpa c).extractLsb' 0 32) ∧
      reads (16 * cm + 8 * c + 4) .word ((sparseGet 0 s.win.nsTpa c).extractLsb' 32 32)) ∧
    (∀ j, j < cf →
      reads (24 * cm + 2 * j) .half ((sparseGet 0 s.win.buf j).setWidth 32) ∧
      reads (24 * cm + 2 * cf + 4 * j) .word (sparseGet 0 s.win.ola j)) ∧
    (∀ j, j < cb →
      reads (24 * cm + 6 * cf + 4 * j) .word (sparseGet minDefault s.win.min j) ∧
      reads (24 * cm + 6 * cf + 4 * cb + 4 * j) .word (sparseGet 0 s.win.est j))

/-- Offsets beyond the state layout and beyond DMEM read 0 and ignore writes, and so does the whole state window for
writes, with the engine idle or running (20_memory.md R60). With the engine idle the read changes only the response
(R68). -/
def Obligations.BeyondTheWindowsReadsZero : Prop :=
  ∀ (s : State) (o : Nat) (size : AccessSize) (v : Word), s.params.Legal → o % size.bytes = 0 →
    (o < 0x080000 →
      (s.params.maxChannels * (24 + 6 * s.params.maxFrameLen + 8 * (s.params.maxFrameLen / 2 + 1)) ≤ o →
        (busRead (s.params.blockBase + 0x080000 + o) size s).resp = some { error := false, data := 0 } ∧
        (s.run = none →
          busRead (s.params.blockBase + 0x080000 + o) size s =
            { s with resp := some { error := false, data := 0 } })) ∧
      busWrite (s.params.blockBase + 0x080000 + o) size v s =
        { s with resp := some { error := false, data := 0 } }) ∧
    (o < 0x100000 → s.params.dmemBytes ≤ o →
      (busRead (s.params.blockBase + 0x100000 + o) size s).resp = some { error := false, data := 0 } ∧
      (s.run = none →
        busRead (s.params.blockBase + 0x100000 + o) size s =
          { s with resp := some { error := false, data := 0 } }) ∧
      busWrite (s.params.blockBase + 0x100000 + o) size v s =
        { s with resp := some { error := false, data := 0 } })

/-- While a command runs (70_reset_and_hazards.md R345): every register but FFT_SHIFT, ALU_R_LO, ALU_R_HI and ALU_FLAGS
reads its value, STATUS its fields with BUSY = 1; so does every DMEM byte the command does not write, which is every byte
outside OUT and SCR (20_memory.md R63) for a hop whose checks pass and every byte for any other command, a hop that fails
its checks among them (DEDUCED, log 11, log 13); a read changes only the response and the count of draws (log 10). -/
def Obligations.ReadsWhileBusy : Prop :=
  ∀ (s : State) (r : Running), s.params.Legal → s.run = some r →
    (∀ off : Nat, off < 0x080000 → off % 4 = 0 → off ≠ 0x054 → off ≠ 0x078 → off ≠ 0x07C → off ≠ 0x080 →
      (busRead (s.params.blockBase + off) .word s).resp = some { error := false, data := s.readReg off }) ∧
    (∀ (a : Nat) (size : AccessSize), a % size.bytes = 0 → a + size.bytes ≤ s.params.dmemBytes →
      (RunsHop s r → ∀ k, k < size.bytes → ¬ HopWrites (State.withSnapshot r s) (a + k)) →
      ∃ data, (busRead (s.params.blockBase + 0x100000 + a) size s).resp = some { error := false, data := data } ∧
        data.toNat < 2 ^ (8 * size.bytes) ∧ ∀ k, k < size.bytes → data.extractLsb' (8 * k) 8 = Memory.byte s.dmem (a + k)) ∧
    (s.readReg 0x004).toNat =
      1 + 2 * s.estate.number + 16 * s.lastStatus.number + (if s.ovr then 256 else 0) ∧
    (∀ (addr : Nat) (size : AccessSize),
      busRead addr size s = { s with resp := (busRead addr size s).resp, draws := (busRead addr size s).draws })

/-- A host write of DMEM while a command runs, of any size, is stored, byte by byte in little-endian order; it marks the
race when the command is a hop whose checks pass and a byte written lies in IN, OUT, WIN, TWC, TWS or SCR
(70_reset_and_hazards.md R346, 20_memory.md R63). That no other command and no hop that fails its checks is raced is the
model's reading (DEDUCED, log 13). Nothing else changes but the response. -/
def Obligations.WriteIntoRunningHopRaces : Prop :=
  ∀ (s : State) (r : Running) (a : Nat) (size : AccessSize) (v : Word), s.Inv → s.run = some r →
    a % size.bytes = 0 → a + size.bytes ≤ s.params.dmemBytes →
    let t := busWrite (s.params.blockBase + 0x100000 + a) size v s
    t = { s with dmem := t.dmem, run := t.run, resp := some { error := false, data := 0 } } ∧
    (∀ k, k < size.bytes → Memory.byte t.dmem (a + k) = v.extractLsb' (8 * k) 8) ∧
    (∀ b, b < a ∨ a + size.bytes ≤ b → Memory.byte t.dmem b = Memory.byte s.dmem b) ∧
    ((RunsHop s r ∧ ∃ k, k < size.bytes ∧ HopUses (State.withSnapshot r s) (a + k)) →
      t.run = some { r with raced := true }) ∧
    (¬ (RunsHop s r ∧ ∃ k, k < size.bytes ∧ HopUses (State.withSnapshot r s) (a + k)) → t.run = some r)

/-- What power-on reset leaves (10_state.md R59, 70_reset_and_hazards.md R341), for any parameters: the registers as the
host reads them, and an idle engine; and a power-on reset at any time (70_reset_and_hazards.md R340) leaves the same:
the running command is abandoned and the parameters stay. The values of ACT, the state window and DMEM are the model's
choice (log 4, 5, 6) or free (log 16) and not stated. -/
def Obligations.PowerOnResetValues : Prop :=
  (∀ p : Params,
    (State.powerOn p).readReg 0x000 = 0#8 ++ p.versionMajor ++ p.versionMinor ++ p.versionPatch ∧
    (State.powerOn p).readReg 0x004 = 0#32 ∧ (State.powerOn p).readReg 0x00C = 0x20#32 ∧
    (State.powerOn p).readReg 0x04C = BitVec.ofNat 32 p.stateBytes ∧
    (∀ off, off ≠ 0x000 → off ≠ 0x00C → off ≠ 0x04C → (State.powerOn p).readReg off = 0#32) ∧
    (State.powerOn p).run = none ∧ (State.powerOn p).estate = .uninitialised) ∧
  ∀ s : State,
    (hostOp .por s).run = none ∧ (hostOp .por s).estate = .uninitialised ∧ (hostOp .por s).params = s.params ∧
    ∀ off : Nat, (hostOp .por s).readReg off = (State.powerOn s.params).readReg off
end

