-- ==== Sys2Proof/Laws/Memory.lean ====
section
/-! SUPPORT. Sparse data and DMEM: a read after a write, the canonical form, runs, elements, regions. -/

namespace Sys2Proof.Machine

variable {w : Nat} {d : BitVec w}

/-! ### One element -/

@[simp] theorem sparseGet_nil (a : Nat) : sparseGet d [] a = d := rfl

/-- Below every listed index there is nothing listed. -/
theorem sparseGet_of_lt (m : Sparse w) (a : Nat) (h : ∀ c ∈ m, a < c.1) : sparseGet d m a = d := by
  induction m with
  | nil => rfl
  | cons c rest ih =>
    have h1 := h c (by simp)
    simp only [sparseGet, Nat.ne_of_gt h1, if_false]
    exact ih fun c' hc' => h c' (by simp [hc'])

/-- A write leaves every other index alone, whatever the form of the list. -/
theorem sparseGet_sparseSet_ne (m : Sparse w) (a b : Nat) (v : BitVec w) (h : b ≠ a) :
    sparseGet d (sparseSet d m a v) b = sparseGet d m b := by
  induction m with
  | nil => by_cases hv : v = d <;> simp [sparseSet, sparseGet, hv, h.symm]
  | cons c rest ih =>
    obtain ⟨k, u⟩ := c
    unfold sparseSet
    by_cases h1 : a < k
    · by_cases hv : v = d <;> simp [h1, hv, sparseGet, h.symm]
    · by_cases h2 : a = k
      · subst h2
        by_cases hv : v = d <;> simp [hv, sparseGet, h.symm]
      · simp [h1, h2, sparseGet, ih]

/-- A read after a write of the same index, in a list in canonical order. -/
theorem sparseGet_sparseSet_same (m : Sparse w) (a : Nat) (v : BitVec w)
    (h : m.Pairwise (fun x y => x.1 < y.1)) : sparseGet d (sparseSet d m a v) a = v := by
  induction m with
  | nil => by_cases hv : v = d <;> simp [sparseSet, sparseGet, hv]
  | cons c rest ih =>
    obtain ⟨k, u⟩ := c
    obtain ⟨hk, hr⟩ := List.pairwise_cons.mp h
    unfold sparseSet
    by_cases h1 : a < k
    · by_cases hv : v = d
      · subst hv
        simp only [h1, if_true]
        refine sparseGet_of_lt _ _ fun c hc => ?_
        rcases List.mem_cons.mp hc with rfl | hc
        · exact h1
        · exact lt_trans h1 (hk c hc)
      · simp [h1, hv, sparseGet]
    · by_cases h2 : a = k
      · subst h2
        by_cases hv : v = d
        · subst hv
          simpa using sparseGet_of_lt rest a hk
        · simp [hv, sparseGet]
      · simp [h1, h2, Ne.symm h2, sparseGet, ih hr]

/-- Every entry after a write is the written one or an old one. -/
theorem mem_sparseSet (m : Sparse w) (a : Nat) (v : BitVec w) (c : Nat × BitVec w) (hc : c ∈ sparseSet d m a v) :
    (c = (a, v) ∧ v ≠ d) ∨ c ∈ m := by
  induction m with
  | nil =>
    by_cases hv : v = d
    · simp [sparseSet, hv] at hc
    · simp only [sparseSet, hv, if_false, List.mem_singleton] at hc
      exact .inl ⟨hc, hv⟩
  | cons e rest ih =>
    obtain ⟨k, u⟩ := e
    unfold sparseSet at hc
    split at hc
    · split at hc
      · exact .inr hc
      · rcases List.mem_cons.mp hc with h | h
        · exact .inl ⟨h, by assumption⟩
        · exact .inr h
    · split at hc
      · split at hc
        · exact .inr (List.mem_cons_of_mem _ hc)
        · rcases List.mem_cons.mp hc with h | h
          · exact .inl ⟨h, by assumption⟩
          · exact .inr (List.mem_cons_of_mem _ h)
      · rcases List.mem_cons.mp hc with h | h
        · exact .inr (by simp [h])
        · rcases ih h with h | h
          · exact .inl h
          · exact .inr (List.mem_cons_of_mem _ h)

/-- A write keeps the indices rising. -/
theorem sparseSet_pairwise (m : Sparse w) (a : Nat) (v : BitVec w) (h : m.Pairwise (fun x y => x.1 < y.1)) :
    (sparseSet d m a v).Pairwise (fun x y => x.1 < y.1) := by
  induction m with
  | nil => by_cases hv : v = d <;> simp [sparseSet, hv]
  | cons c rest ih =>
    obtain ⟨k, u⟩ := c
    obtain ⟨hk, hr⟩ := List.pairwise_cons.mp h
    unfold sparseSet
    by_cases h1 : a < k
    · by_cases hv : v = d
      · simpa [h1, hv] using ⟨fun a b hc => hk (a, b) hc, hr⟩
      · simp only [h1, hv, if_true, if_false]
        refine List.pairwise_cons.mpr ⟨fun e he => ?_, h⟩
        rcases List.mem_cons.mp he with rfl | he
        · exact h1
        · exact lt_trans h1 (hk e he)
    · by_cases h2 : a = k
      · subst h2
        by_cases hv : v = d
        · simpa [hv] using hr
        · simp only [lt_irrefl, hv, if_true, if_false]
          exact List.pairwise_cons.mpr ⟨fun e he => hk e he, hr⟩
      · simp only [h1, h2, if_false]
        refine List.pairwise_cons.mpr ⟨fun e he => ?_, ih hr⟩
        rcases mem_sparseSet rest a v e he with ⟨rfl, -⟩ | he
        · exact lt_of_le_of_ne (not_lt.mp h1) (Ne.symm h2)
        · exact hk e he

/-- A write inside the bound keeps the canonical form. -/
theorem sparseSet_wf {n : Nat} (m : Sparse w) (a : Nat) (v : BitVec w) (h : sparseWf d n m) (ha : a < n) :
    sparseWf d n (sparseSet d m a v) := by
  refine ⟨sparseSet_pairwise m a v h.1, fun c hc => ?_⟩
  rcases mem_sparseSet m a v c hc with ⟨rfl, hv⟩ | hc
  · exact ⟨ha, hv⟩
  · exact h.2 c hc

@[simp] theorem sparseWf_nil (n : Nat) : sparseWf d n ([] : Sparse w) := by simp [sparseWf]

/-- An element that is read is the default or a listed entry. -/
theorem sparseGet_cases (m : Sparse w) (a : Nat) :
    sparseGet d m a = d ∨ (a, sparseGet d m a) ∈ m := by
  induction m with
  | nil => exact .inl rfl
  | cons c rest ih =>
    obtain ⟨k, u⟩ := c
    by_cases h : k = a
    · subst h; simp [sparseGet]
    · simp only [sparseGet, h, if_false]
      rcases ih with h' | h'
      · exact .inl h'
      · exact .inr (List.mem_cons_of_mem _ h')

/-- A listed entry is what its index reads as. -/
theorem sparseGet_of_mem (m : Sparse w) (h : m.Pairwise (fun x y => x.1 < y.1)) (c : Nat × BitVec w) (hc : c ∈ m) :
    sparseGet d m c.1 = c.2 := by
  induction m with
  | nil => simp at hc
  | cons e rest ih =>
    obtain ⟨k, u⟩ := e
    obtain ⟨hk, hr⟩ := List.pairwise_cons.mp h
    rcases List.mem_cons.mp hc with rfl | hc
    · simp [sparseGet]
    · simp only [sparseGet, Nat.ne_of_lt (hk c hc), if_false]
      exact ih hr hc

/-- Two lists in canonical form that read the same everywhere are equal. -/
theorem sparse_ext {n : Nat} (m m' : Sparse w) (h : sparseWf d n m) (h' : sparseWf d n m')
    (heq : ∀ a, sparseGet d m a = sparseGet d m' a) : m = m' := by
  have key : ∀ l l' : Sparse w, sparseWf d n l → sparseWf d n l' → (∀ a, sparseGet d l a = sparseGet d l' a) →
      ∀ c ∈ l, c ∈ l' := by
    intro l l' hl hl' he c hc
    have h1 := sparseGet_of_mem (d := d) l hl.1 c hc
    rcases sparseGet_cases (d := d) l' c.1 with h2 | h2
    · exact absurd (h1.symm.trans ((he c.1).trans h2)) (hl.2 c hc).2
    · rw [← he, h1] at h2
      exact h2
  refine List.Perm.eq_of_pairwise ?_ h.1 h'.1 ?_
  · intro a b _ _ hab hba
    exact absurd (lt_trans hab hba) (lt_irrefl _)
  · refine (List.perm_ext_iff_of_nodup ?_ ?_).mpr fun c => ⟨key m m' h h' heq c, key m' m h' h (fun a => (heq a).symm) c⟩
    · exact h.1.imp (by intro a b hab hc; subst hc; exact lt_irrefl _ hab)
    · exact h'.1.imp (by intro a b hab hc; subst hc; exact lt_irrefl _ hab)

/-! ### Runs of elements -/

@[simp] theorem sparseRun_length (m : Sparse w) (a n : Nat) : (sparseRun d m a n).length = n := by simp [sparseRun]

theorem sparseRun_getD (m : Sparse w) (a n i : Nat) (hi : i < n) :
    (sparseRun d m a n).getD i d = sparseGet d m (a + i) := by
  simp [sparseRun, List.getD_eq_getElem?_getD, hi]

/-- A run written inside the bound keeps the canonical form. -/
theorem sparsePut_wf {n : Nat} (vs : List (BitVec w)) (m : Sparse w) (a : Nat) (h : sparseWf d n m)
    (ha : a + vs.length ≤ n) : sparseWf d n (sparsePut d m a vs) := by
  induction vs generalizing m a with
  | nil => exact h
  | cons v vs ih =>
    simp only [List.length_cons] at ha
    exact ih _ _ (sparseSet_wf m a v h (by omega)) (by omega)

/-- Every entry after a run is written is one of the run or an old one. -/
theorem mem_sparsePut (vs : List (BitVec w)) (m : Sparse w) (a : Nat) (c : Nat × BitVec w)
    (hc : c ∈ sparsePut d m a vs) : c.2 ∈ vs ∨ c ∈ m := by
  induction vs generalizing m a with
  | nil => exact .inr hc
  | cons v vs ih =>
    rcases ih _ _ hc with h | h
    · exact .inl (List.mem_cons_of_mem _ h)
    · rcases mem_sparseSet m a v c h with ⟨rfl, -⟩ | h
      · exact .inl (by simp)
      · exact .inr h

/-- A run leaves every index outside it alone. -/
theorem sparseGet_sparsePut_outside (vs : List (BitVec w)) (m : Sparse w) (a b : Nat)
    (h : b < a ∨ a + vs.length ≤ b) : sparseGet d (sparsePut d m a vs) b = sparseGet d m b := by
  induction vs generalizing m a with
  | nil => rfl
  | cons v vs ih =>
    simp only [List.length_cons] at h
    rw [sparsePut, ih _ _ (by omega), sparseGet_sparseSet_ne _ _ _ _ (by omega)]

theorem sparsePut_pairwise (vs : List (BitVec w)) (m : Sparse w) (a : Nat) (h : m.Pairwise (fun x y => x.1 < y.1)) :
    (sparsePut d m a vs).Pairwise (fun x y => x.1 < y.1) := by
  induction vs generalizing m a with
  | nil => exact h
  | cons v vs ih => exact ih _ _ (sparseSet_pairwise m a v h)

/-- A run reads back element by element. -/
theorem sparseGet_sparsePut_inside (vs : List (BitVec w)) (m : Sparse w) (a i : Nat)
    (h : m.Pairwise (fun x y => x.1 < y.1)) (hi : i < vs.length) :
    sparseGet d (sparsePut d m a vs) (a + i) = vs[i] := by
  induction vs generalizing m a i with
  | nil => simp at hi
  | cons v vs ih =>
    cases i with
    | zero =>
      rw [sparsePut, sparseGet_sparsePut_outside _ _ _ _ (by omega)]
      exact sparseGet_sparseSet_same m a v h
    | succ i =>
      have := ih (sparseSet d m a v) (a + 1) i (sparseSet_pairwise m a v h) (by simpa using hi)
      rw [show a + (i + 1) = a + 1 + i by omega]
      simpa [sparsePut] using this

/-- A run reads back whole. -/
theorem sparseRun_sparsePut (vs : List (BitVec w)) (m : Sparse w) (a : Nat) (h : m.Pairwise (fun x y => x.1 < y.1)) :
    sparseRun d (sparsePut d m a vs) a vs.length = vs := by
  refine List.ext_getElem (by simp) fun i h1 h2 => ?_
  simp [sparseRun, sparseGet_sparsePut_inside vs m a i h h2]

/-- A run does not see what is written outside it. -/
theorem sparseRun_sparsePut_outside (vs : List (BitVec w)) (m : Sparse w) (a b n : Nat)
    (h : b + n ≤ a ∨ a + vs.length ≤ b) : sparseRun d (sparsePut d m a vs) b n = sparseRun d m b n := by
  refine List.map_congr_left fun i hi => ?_
  have := List.mem_range.mp hi
  exact sparseGet_sparsePut_outside vs m a (b + i) (by omega)

/-! ### DMEM bytes -/

theorem byte_setByte_same {n : Nat} (m : Memory) (a : Nat) (v : Byte) (h : Memory.wf n m) :
    Memory.byte (Memory.setByte m a v) a = v := sparseGet_sparseSet_same m a v h.1

theorem byte_setByte_ne (m : Memory) (a b : Nat) (v : Byte) (h : b ≠ a) :
    Memory.byte (Memory.setByte m a v) b = Memory.byte m b := sparseGet_sparseSet_ne m a b v h

theorem setByte_wf {n : Nat} (m : Memory) (a : Nat) (v : Byte) (h : Memory.wf n m) (ha : a < n) :
    Memory.wf n (Memory.setByte m a v) := sparseSet_wf m a v h ha

/-! ### DMEM elements -/

theorem memWrite_wf {n : Nat} (k : Nat) (m : Memory) (a v : Nat) (h : Memory.wf n m) (ha : a + k ≤ n) :
    Memory.wf n (memWrite m a k v) := by
  induction k generalizing m a v with
  | zero => exact h
  | succ k ih => exact ih _ _ _ (setByte_wf m a _ h (by omega)) (by omega)

theorem byte_memWrite_outside (k : Nat) (m : Memory) (a v b : Nat) (h : b < a ∨ a + k ≤ b) :
    Memory.byte (memWrite m a k v) b = Memory.byte m b := by
  induction k generalizing m a v with
  | zero => rfl
  | succ k ih => rw [memWrite, ih _ _ _ (by omega), byte_setByte_ne _ _ _ _ (by omega)]

theorem memWrite_pairwise (k : Nat) (m : Memory) (a v : Nat) (h : m.Pairwise (fun x y => x.1 < y.1)) :
    (memWrite m a k v).Pairwise (fun x y => x.1 < y.1) := by
  induction k generalizing m a v with
  | zero => exact h
  | succ k ih => exact ih _ _ _ (sparseSet_pairwise (d := unwrittenByte) m a _ h)

/-- A number read depends on its bytes alone. -/
theorem memRead_congr (k : Nat) (m m' : Memory) (a : Nat)
    (h : ∀ b, a ≤ b → b < a + k → Memory.byte m b = Memory.byte m' b) : memRead m a k = memRead m' a k := by
  induction k generalizing a with
  | zero => rfl
  | succ k ih =>
    rw [memRead, memRead, h a (by omega) (by omega), ih (a + 1) fun b h1 h2 => h b (by omega) (by omega)]

/-- A number reads back modulo its width. -/
theorem memRead_memWrite (k : Nat) (m : Memory) (a v : Nat) (h : m.Pairwise (fun x y => x.1 < y.1)) :
    memRead (memWrite m a k v) a k = v % 256 ^ k := by
  induction k generalizing m a v with
  | zero => simp [memRead, Nat.mod_one]
  | succ k ih =>
    have h1 : Memory.byte (memWrite (Memory.setByte m a (BitVec.ofNat 8 v)) (a + 1) k (v / 256)) a
        = BitVec.ofNat 8 v := by
      rw [byte_memWrite_outside _ _ _ _ _ (by omega)]
      exact sparseGet_sparseSet_same m a _ h
    have h2 := ih (Memory.setByte m a (BitVec.ofNat 8 v)) (a + 1) (v / 256)
      (sparseSet_pairwise (d := unwrittenByte) m a _ h)
    rw [memRead, memWrite, h1, h2, BitVec.toNat_ofNat, Nat.pow_succ' (m := 256), Nat.mod_mul (a := 256)]

theorem rdI16_congr (m m' : Memory) (a : Nat)
    (h : ∀ b, a ≤ b → b < a + 2 → Memory.byte m b = Memory.byte m' b) : rdI16 m a = rdI16 m' a := by
  rw [rdI16, rdI16, memRead_congr 2 m m' a h]

theorem rdI32_congr (m m' : Memory) (a : Nat)
    (h : ∀ b, a ≤ b → b < a + 4 → Memory.byte m b = Memory.byte m' b) : rdI32 m a = rdI32 m' a := by
  rw [rdI32, rdI32, memRead_congr 4 m m' a h]

/-- An int16 element reads back the low 16 bits. -/
theorem rdI16_wrI16 (m : Memory) (a : Nat) (v : Int) (h : m.Pairwise (fun x y => x.1 < y.1)) :
    rdI16 (wrI16 m a v) a = (BitVec.ofInt 16 v).toInt := by
  have hlt := (BitVec.ofInt 16 v).isLt
  have hm : (BitVec.ofInt 16 v).toNat % 256 ^ 2 = (BitVec.ofInt 16 v).toNat := Nat.mod_eq_of_lt (by omega)
  rw [rdI16, wrI16, memRead_memWrite 2 m a _ h, hm, BitVec.ofNat_toNat, BitVec.setWidth_eq]

/-- An int32 element reads back the low 32 bits. -/
theorem rdI32_wrI32 (m : Memory) (a : Nat) (v : Int) (h : m.Pairwise (fun x y => x.1 < y.1)) :
    rdI32 (wrI32 m a v) a = (BitVec.ofInt 32 v).toInt := by
  have hlt := (BitVec.ofInt 32 v).isLt
  have hm : (BitVec.ofInt 32 v).toNat % 256 ^ 4 = (BitVec.ofInt 32 v).toNat := Nat.mod_eq_of_lt (by omega)
  rw [rdI32, wrI32, memRead_memWrite 4 m a _ h, hm, BitVec.ofNat_toNat, BitVec.setWidth_eq]

/-- An int16 survives its element. -/
theorem toInt_ofInt16 (v : Int) (h1 : -32768 ≤ v) (h2 : v ≤ 32767) : (BitVec.ofInt 16 v).toInt = v := by
  rw [BitVec.toInt_ofInt]
  exact Int.bmod_eq_of_le (by omega) (by omega)

/-- An int32 survives its element. -/
theorem toInt_ofInt32 (v : Int) (h1 : -2147483648 ≤ v) (h2 : v ≤ 2147483647) : (BitVec.ofInt 32 v).toInt = v := by
  rw [BitVec.toInt_ofInt]
  exact Int.bmod_eq_of_le (by omega) (by omega)

/-! ### Runs of DMEM elements -/

@[simp] theorem rdI16s_length (m : Memory) (a n : Nat) : (rdI16s m a n).length = n := by simp [rdI16s]

@[simp] theorem rdI32s_length (m : Memory) (a n : Nat) : (rdI32s m a n).length = n := by simp [rdI32s]

theorem wrI16s_wf {n : Nat} (vs : List Int) (m : Memory) (a : Nat) (h : Memory.wf n m)
    (ha : a + 2 * vs.length ≤ n) : Memory.wf n (wrI16s m a vs) := by
  induction vs generalizing m a with
  | nil => exact h
  | cons v vs ih =>
    simp only [List.length_cons] at ha
    exact ih _ _ (memWrite_wf 2 m a _ h (by omega)) (by omega)

theorem wrI32s_wf {n : Nat} (vs : List Int) (m : Memory) (a : Nat) (h : Memory.wf n m)
    (ha : a + 4 * vs.length ≤ n) : Memory.wf n (wrI32s m a vs) := by
  induction vs generalizing m a with
  | nil => exact h
  | cons v vs ih =>
    simp only [List.length_cons] at ha
    exact ih _ _ (memWrite_wf 4 m a _ h (by omega)) (by omega)

theorem byte_wrI16s_outside (vs : List Int) (m : Memory) (a b : Nat) (h : b < a ∨ a + 2 * vs.length ≤ b) :
    Memory.byte (wrI16s m a vs) b = Memory.byte m b := by
  induction vs generalizing m a with
  | nil => rfl
  | cons v vs ih =>
    simp only [List.length_cons] at h
    rw [wrI16s, ih _ _ (by omega)]
    exact byte_memWrite_outside 2 m a _ b (by omega)

theorem byte_wrI32s_outside (vs : List Int) (m : Memory) (a b : Nat) (h : b < a ∨ a + 4 * vs.length ≤ b) :
    Memory.byte (wrI32s m a vs) b = Memory.byte m b := by
  induction vs generalizing m a with
  | nil => rfl
  | cons v vs ih =>
    simp only [List.length_cons] at h
    rw [wrI32s, ih _ _ (by omega)]
    exact byte_memWrite_outside 4 m a _ b (by omega)

theorem wrI16s_pairwise (vs : List Int) (m : Memory) (a : Nat) (h : m.Pairwise (fun x y => x.1 < y.1)) :
    (wrI16s m a vs).Pairwise (fun x y => x.1 < y.1) := by
  induction vs generalizing m a with
  | nil => exact h
  | cons v vs ih => exact ih _ _ (memWrite_pairwise 2 m a _ h)

theorem wrI32s_pairwise (vs : List Int) (m : Memory) (a : Nat) (h : m.Pairwise (fun x y => x.1 < y.1)) :
    (wrI32s m a vs).Pairwise (fun x y => x.1 < y.1) := by
  induction vs generalizing m a with
  | nil => exact h
  | cons v vs ih => exact ih _ _ (memWrite_pairwise 4 m a _ h)

/-- An element of a run of int16 elements reads back. -/
theorem rdI16_wrI16s (vs : List Int) (m : Memory) (a i : Nat) (h : m.Pairwise (fun x y => x.1 < y.1))
    (hi : i < vs.length) : rdI16 (wrI16s m a vs) (a + 2 * i) = (BitVec.ofInt 16 vs[i]).toInt := by
  induction vs generalizing m a i with
  | nil => simp at hi
  | cons v vs ih =>
    cases i with
    | zero =>
      rw [wrI16s, rdI16_congr _ (wrI16 m a v) _ fun b h1 h2 => byte_wrI16s_outside vs _ _ b (by omega)]
      exact rdI16_wrI16 m a v h
    | succ i =>
      have := ih (wrI16 m a v) (a + 2) i (memWrite_pairwise 2 m a _ h) (by simpa using hi)
      rw [show a + 2 * (i + 1) = a + 2 + 2 * i by omega]
      simpa [wrI16s] using this

/-- An element of a run of int32 elements reads back. -/
theorem rdI32_wrI32s (vs : List Int) (m : Memory) (a i : Nat) (h : m.Pairwise (fun x y => x.1 < y.1))
    (hi : i < vs.length) : rdI32 (wrI32s m a vs) (a + 4 * i) = (BitVec.ofInt 32 vs[i]).toInt := by
  induction vs generalizing m a i with
  | nil => simp at hi
  | cons v vs ih =>
    cases i with
    | zero =>
      rw [wrI32s, rdI32_congr _ (wrI32 m a v) _ fun b h1 h2 => byte_wrI32s_outside vs _ _ b (by omega)]
      exact rdI32_wrI32 m a v h
    | succ i =>
      have := ih (wrI32 m a v) (a + 4) i (memWrite_pairwise 4 m a _ h) (by simpa using hi)
      rw [show a + 4 * (i + 1) = a + 4 + 4 * i by omega]
      simpa [wrI32s] using this

theorem rdI16s_congr (m m' : Memory) (a n : Nat)
    (h : ∀ b, a ≤ b → b < a + 2 * n → Memory.byte m b = Memory.byte m' b) : rdI16s m a n = rdI16s m' a n := by
  refine List.map_congr_left fun i hi => ?_
  have := List.mem_range.mp hi
  exact rdI16_congr m m' _ fun b h1 h2 => h b (by omega) (by omega)

theorem rdI32s_congr (m m' : Memory) (a n : Nat)
    (h : ∀ b, a ≤ b → b < a + 4 * n → Memory.byte m b = Memory.byte m' b) : rdI32s m a n = rdI32s m' a n := by
  refine List.map_congr_left fun i hi => ?_
  have := List.mem_range.mp hi
  exact rdI32_congr m m' _ fun b h1 h2 => h b (by omega) (by omega)

/-! ### Free values in a region, and host writes -/

/-- Drawing a region keeps the canonical form. -/
theorem drawRegion_wf {n : Nat} (k : Nat) (m : Memory) (g : Region) (h : Memory.wf n m) (hg : g.base + g.len ≤ n) :
    Memory.wf n (drawRegion k m g) := by
  have key : ∀ (l : List Nat) (m : Memory), Memory.wf n m → (∀ i ∈ l, g.base + i < n) →
      Memory.wf n (l.foldl (fun m i => Memory.setByte m (g.base + i) (Config.freeDmemByte k (g.base + i))) m) := by
    intro l
    induction l with
    | nil => intro m hm _; exact hm
    | cons i l ih =>
      intro m hm hl
      exact ih _ (setByte_wf m _ _ hm (hl i (by simp))) fun j hj => hl j (by simp [hj])
  exact key _ m h fun i hi => by have := List.mem_range.mp hi; omega

/-- Drawing a region leaves every byte outside it alone. -/
theorem byte_drawRegion_outside (k : Nat) (m : Memory) (g : Region) (a : Nat) (h : g.has a = false) :
    Memory.byte (drawRegion k m g) a = Memory.byte m a := by
  have key : ∀ (l : List Nat) (m : Memory), (∀ i ∈ l, g.base + i ≠ a) →
      Memory.byte (l.foldl (fun m i => Memory.setByte m (g.base + i) (Config.freeDmemByte k (g.base + i))) m) a =
        Memory.byte m a := by
    intro l
    induction l with
    | nil => intro m _; rfl
    | cons i l ih =>
      intro m hl
      rw [List.foldl_cons, ih _ fun j hj => hl j (by simp [hj])]
      exact byte_setByte_ne m _ _ _ (hl i (by simp)).symm
  refine key _ m fun i hi => ?_
  have := List.mem_range.mp hi
  simp only [Region.has, decide_eq_false_iff_not, not_and, not_lt] at h
  omega

/-- A host write keeps the canonical form: bytes from the end of DMEM on are dropped. -/
theorem hostDmemWrite_wf {n : Nat} (k : Nat) (m : Memory) (a v : Nat) (h : Memory.wf n m) :
    Memory.wf n (hostDmemWrite n m a k v) := by
  induction k generalizing m a v with
  | zero => exact h
  | succ k ih =>
    refine ih _ _ _ ?_
    split
    · exact setByte_wf m a _ h (by assumption)
    · exact h

/-- A host write leaves every byte outside it alone. -/
theorem byte_hostDmemWrite_outside (n k : Nat) (m : Memory) (a v b : Nat) (h : b < a ∨ a + k ≤ b) :
    Memory.byte (hostDmemWrite n m a k v) b = Memory.byte m b := by
  induction k generalizing m a v with
  | zero => rfl
  | succ k ih =>
    rw [hostDmemWrite, ih _ _ _ (by omega)]
    split
    · exact byte_setByte_ne m _ _ _ (by omega)
    · rfl

end Sys2Proof.Machine
end

