-- ==== Sys2Proof/Laws/State.lean ====
section
/-! SUPPORT. One lemma per field of State and update of it, each true by rfl, so that no proof unfolds an update. -/

namespace Sys2Proof.Machine

/-! ### finish -/

@[simp] theorem State.finish_params (c : StatusCode) (s : State) : (State.finish c s).params = s.params := rfl
@[simp] theorem State.finish_regs (c : StatusCode) (s : State) : (State.finish c s).regs = s.regs := rfl
@[simp] theorem State.finish_estate (c : StatusCode) (s : State) : (State.finish c s).estate = s.estate := rfl
@[simp] theorem State.finish_lastStatus (c : StatusCode) (s : State) : (State.finish c s).lastStatus = c := rfl
@[simp] theorem State.finish_ovr (c : StatusCode) (s : State) : (State.finish c s).ovr = s.ovr := rfl
@[simp] theorem State.finish_fftShift (c : StatusCode) (s : State) : (State.finish c s).fftShift = s.fftShift := rfl
@[simp] theorem State.finish_aluRLo (c : StatusCode) (s : State) : (State.finish c s).aluRLo = s.aluRLo := rfl
@[simp] theorem State.finish_aluRHi (c : StatusCode) (s : State) : (State.finish c s).aluRHi = s.aluRHi := rfl
@[simp] theorem State.finish_aluSat (c : StatusCode) (s : State) : (State.finish c s).aluSat = s.aluSat := rfl
@[simp] theorem State.finish_aluDz (c : StatusCode) (s : State) : (State.finish c s).aluDz = s.aluDz := rfl
@[simp] theorem State.finish_act (c : StatusCode) (s : State) : (State.finish c s).act = s.act := rfl
@[simp] theorem State.finish_win (c : StatusCode) (s : State) : (State.finish c s).win = s.win := rfl
@[simp] theorem State.finish_dmem (c : StatusCode) (s : State) : (State.finish c s).dmem = s.dmem := rfl
@[simp] theorem State.finish_run (c : StatusCode) (s : State) : (State.finish c s).run = none := rfl
@[simp] theorem State.finish_host (c : StatusCode) (s : State) : (State.finish c s).host = s.host := rfl
@[simp] theorem State.finish_resp (c : StatusCode) (s : State) : (State.finish c s).resp = s.resp := rfl
@[simp] theorem State.finish_draws (c : StatusCode) (s : State) : (State.finish c s).draws = s.draws := rfl

/-! ### startCommand -/

@[simp] theorem State.startCommand_params (w : Word) (n : Nat) (s : State) :
    (State.startCommand w n s).params = s.params := rfl
@[simp] theorem State.startCommand_regs (w : Word) (n : Nat) (s : State) :
    (State.startCommand w n s).regs = s.regs := rfl
@[simp] theorem State.startCommand_estate (w : Word) (n : Nat) (s : State) :
    (State.startCommand w n s).estate = s.estate := rfl
@[simp] theorem State.startCommand_lastStatus (w : Word) (n : Nat) (s : State) :
    (State.startCommand w n s).lastStatus = s.lastStatus := rfl
@[simp] theorem State.startCommand_ovr (w : Word) (n : Nat) (s : State) :
    (State.startCommand w n s).ovr = s.ovr := rfl
@[simp] theorem State.startCommand_fftShift (w : Word) (n : Nat) (s : State) :
    (State.startCommand w n s).fftShift = s.fftShift := rfl
@[simp] theorem State.startCommand_aluRLo (w : Word) (n : Nat) (s : State) :
    (State.startCommand w n s).aluRLo = s.aluRLo := rfl
@[simp] theorem State.startCommand_aluRHi (w : Word) (n : Nat) (s : State) :
    (State.startCommand w n s).aluRHi = s.aluRHi := rfl
@[simp] theorem State.startCommand_aluSat (w : Word) (n : Nat) (s : State) :
    (State.startCommand w n s).aluSat = s.aluSat := rfl
@[simp] theorem State.startCommand_aluDz (w : Word) (n : Nat) (s : State) :
    (State.startCommand w n s).aluDz = s.aluDz := rfl
@[simp] theorem State.startCommand_act (w : Word) (n : Nat) (s : State) :
    (State.startCommand w n s).act = s.act := rfl
@[simp] theorem State.startCommand_win (w : Word) (n : Nat) (s : State) :
    (State.startCommand w n s).win = s.win := rfl
@[simp] theorem State.startCommand_dmem (w : Word) (n : Nat) (s : State) :
    (State.startCommand w n s).dmem = s.dmem := rfl
@[simp] theorem State.startCommand_run (w : Word) (n : Nat) (s : State) :
    (State.startCommand w n s).run = some { word := w, snap := s.regs, raced := false, left := n } := rfl
@[simp] theorem State.startCommand_host (w : Word) (n : Nat) (s : State) :
    (State.startCommand w n s).host = s.host := rfl
@[simp] theorem State.startCommand_resp (w : Word) (n : Nat) (s : State) :
    (State.startCommand w n s).resp = s.resp := rfl
@[simp] theorem State.startCommand_draws (w : Word) (n : Nat) (s : State) :
    (State.startCommand w n s).draws = s.draws := rfl

/-! ### withSnapshot -/

@[simp] theorem State.withSnapshot_params (r : Running) (s : State) :
    (State.withSnapshot r s).params = s.params := rfl
@[simp] theorem State.withSnapshot_regs (r : Running) (s : State) : (State.withSnapshot r s).regs = r.snap := rfl
@[simp] theorem State.withSnapshot_estate (r : Running) (s : State) :
    (State.withSnapshot r s).estate = s.estate := rfl
@[simp] theorem State.withSnapshot_lastStatus (r : Running) (s : State) :
    (State.withSnapshot r s).lastStatus = s.lastStatus := rfl
@[simp] theorem State.withSnapshot_ovr (r : Running) (s : State) : (State.withSnapshot r s).ovr = s.ovr := rfl
@[simp] theorem State.withSnapshot_fftShift (r : Running) (s : State) :
    (State.withSnapshot r s).fftShift = s.fftShift := rfl
@[simp] theorem State.withSnapshot_aluRLo (r : Running) (s : State) :
    (State.withSnapshot r s).aluRLo = s.aluRLo := rfl
@[simp] theorem State.withSnapshot_aluRHi (r : Running) (s : State) :
    (State.withSnapshot r s).aluRHi = s.aluRHi := rfl
@[simp] theorem State.withSnapshot_aluSat (r : Running) (s : State) :
    (State.withSnapshot r s).aluSat = s.aluSat := rfl
@[simp] theorem State.withSnapshot_aluDz (r : Running) (s : State) : (State.withSnapshot r s).aluDz = s.aluDz := rfl
@[simp] theorem State.withSnapshot_act (r : Running) (s : State) : (State.withSnapshot r s).act = s.act := rfl
@[simp] theorem State.withSnapshot_win (r : Running) (s : State) : (State.withSnapshot r s).win = s.win := rfl
@[simp] theorem State.withSnapshot_dmem (r : Running) (s : State) : (State.withSnapshot r s).dmem = s.dmem := rfl
@[simp] theorem State.withSnapshot_run (r : Running) (s : State) : (State.withSnapshot r s).run = s.run := rfl
@[simp] theorem State.withSnapshot_host (r : Running) (s : State) : (State.withSnapshot r s).host = s.host := rfl
@[simp] theorem State.withSnapshot_resp (r : Running) (s : State) : (State.withSnapshot r s).resp = s.resp := rfl
@[simp] theorem State.withSnapshot_draws (r : Running) (s : State) : (State.withSnapshot r s).draws = s.draws := rfl

/-! ### withRegs -/

@[simp] theorem State.withRegs_params (g : Regs) (s : State) : (State.withRegs g s).params = s.params := rfl
@[simp] theorem State.withRegs_regs (g : Regs) (s : State) : (State.withRegs g s).regs = g := rfl
@[simp] theorem State.withRegs_estate (g : Regs) (s : State) : (State.withRegs g s).estate = s.estate := rfl
@[simp] theorem State.withRegs_lastStatus (g : Regs) (s : State) :
    (State.withRegs g s).lastStatus = s.lastStatus := rfl
@[simp] theorem State.withRegs_ovr (g : Regs) (s : State) : (State.withRegs g s).ovr = s.ovr := rfl
@[simp] theorem State.withRegs_fftShift (g : Regs) (s : State) : (State.withRegs g s).fftShift = s.fftShift := rfl
@[simp] theorem State.withRegs_aluRLo (g : Regs) (s : State) : (State.withRegs g s).aluRLo = s.aluRLo := rfl
@[simp] theorem State.withRegs_aluRHi (g : Regs) (s : State) : (State.withRegs g s).aluRHi = s.aluRHi := rfl
@[simp] theorem State.withRegs_aluSat (g : Regs) (s : State) : (State.withRegs g s).aluSat = s.aluSat := rfl
@[simp] theorem State.withRegs_aluDz (g : Regs) (s : State) : (State.withRegs g s).aluDz = s.aluDz := rfl
@[simp] theorem State.withRegs_act (g : Regs) (s : State) : (State.withRegs g s).act = s.act := rfl
@[simp] theorem State.withRegs_win (g : Regs) (s : State) : (State.withRegs g s).win = s.win := rfl
@[simp] theorem State.withRegs_dmem (g : Regs) (s : State) : (State.withRegs g s).dmem = s.dmem := rfl
@[simp] theorem State.withRegs_run (g : Regs) (s : State) : (State.withRegs g s).run = s.run := rfl
@[simp] theorem State.withRegs_host (g : Regs) (s : State) : (State.withRegs g s).host = s.host := rfl
@[simp] theorem State.withRegs_resp (g : Regs) (s : State) : (State.withRegs g s).resp = s.resp := rfl
@[simp] theorem State.withRegs_draws (g : Regs) (s : State) : (State.withRegs g s).draws = s.draws := rfl

/-! ### postInitValues -/

@[simp] theorem State.postInitValues_params (s : State) : (State.postInitValues s).params = s.params := rfl
@[simp] theorem State.postInitValues_regs (s : State) : (State.postInitValues s).regs = s.regs := rfl
@[simp] theorem State.postInitValues_estate (s : State) : (State.postInitValues s).estate = s.estate := rfl
@[simp] theorem State.postInitValues_lastStatus (s : State) :
    (State.postInitValues s).lastStatus = s.lastStatus := rfl
@[simp] theorem State.postInitValues_ovr (s : State) : (State.postInitValues s).ovr = s.ovr := rfl
@[simp] theorem State.postInitValues_fftShift (s : State) : (State.postInitValues s).fftShift = 0 := rfl
@[simp] theorem State.postInitValues_aluRLo (s : State) : (State.postInitValues s).aluRLo = s.aluRLo := rfl
@[simp] theorem State.postInitValues_aluRHi (s : State) : (State.postInitValues s).aluRHi = s.aluRHi := rfl
@[simp] theorem State.postInitValues_aluSat (s : State) : (State.postInitValues s).aluSat = s.aluSat := rfl
@[simp] theorem State.postInitValues_aluDz (s : State) : (State.postInitValues s).aluDz = s.aluDz := rfl
@[simp] theorem State.postInitValues_act (s : State) : (State.postInitValues s).act = s.act := rfl
@[simp] theorem State.postInitValues_win (s : State) : (State.postInitValues s).win = postInit := rfl
@[simp] theorem State.postInitValues_dmem (s : State) : (State.postInitValues s).dmem = s.dmem := rfl
@[simp] theorem State.postInitValues_run (s : State) : (State.postInitValues s).run = s.run := rfl
@[simp] theorem State.postInitValues_host (s : State) : (State.postInitValues s).host = s.host := rfl
@[simp] theorem State.postInitValues_resp (s : State) : (State.postInitValues s).resp = s.resp := rfl
@[simp] theorem State.postInitValues_draws (s : State) : (State.postInitValues s).draws = s.draws := rfl

/-! ### countDown -/

@[simp] theorem State.countDown_params (s : State) : (State.countDown s).params = s.params := rfl
@[simp] theorem State.countDown_regs (s : State) : (State.countDown s).regs = s.regs := rfl
@[simp] theorem State.countDown_estate (s : State) : (State.countDown s).estate = s.estate := rfl
@[simp] theorem State.countDown_lastStatus (s : State) : (State.countDown s).lastStatus = s.lastStatus := rfl
@[simp] theorem State.countDown_ovr (s : State) : (State.countDown s).ovr = s.ovr := rfl
@[simp] theorem State.countDown_fftShift (s : State) : (State.countDown s).fftShift = s.fftShift := rfl
@[simp] theorem State.countDown_aluRLo (s : State) : (State.countDown s).aluRLo = s.aluRLo := rfl
@[simp] theorem State.countDown_aluRHi (s : State) : (State.countDown s).aluRHi = s.aluRHi := rfl
@[simp] theorem State.countDown_aluSat (s : State) : (State.countDown s).aluSat = s.aluSat := rfl
@[simp] theorem State.countDown_aluDz (s : State) : (State.countDown s).aluDz = s.aluDz := rfl
@[simp] theorem State.countDown_act (s : State) : (State.countDown s).act = s.act := rfl
@[simp] theorem State.countDown_win (s : State) : (State.countDown s).win = s.win := rfl
@[simp] theorem State.countDown_dmem (s : State) : (State.countDown s).dmem = s.dmem := rfl
@[simp] theorem State.countDown_run (s : State) :
    (State.countDown s).run = s.run.map fun r => { r with left := r.left - 1 } := rfl
@[simp] theorem State.countDown_host (s : State) : (State.countDown s).host = s.host := rfl
@[simp] theorem State.countDown_resp (s : State) : (State.countDown s).resp = s.resp := rfl
@[simp] theorem State.countDown_draws (s : State) : (State.countDown s).draws = s.draws := rfl

/-! ### markRaced -/

@[simp] theorem State.markRaced_params (s : State) : (State.markRaced s).params = s.params := rfl
@[simp] theorem State.markRaced_regs (s : State) : (State.markRaced s).regs = s.regs := rfl
@[simp] theorem State.markRaced_estate (s : State) : (State.markRaced s).estate = s.estate := rfl
@[simp] theorem State.markRaced_lastStatus (s : State) : (State.markRaced s).lastStatus = s.lastStatus := rfl
@[simp] theorem State.markRaced_ovr (s : State) : (State.markRaced s).ovr = s.ovr := rfl
@[simp] theorem State.markRaced_fftShift (s : State) : (State.markRaced s).fftShift = s.fftShift := rfl
@[simp] theorem State.markRaced_aluRLo (s : State) : (State.markRaced s).aluRLo = s.aluRLo := rfl
@[simp] theorem State.markRaced_aluRHi (s : State) : (State.markRaced s).aluRHi = s.aluRHi := rfl
@[simp] theorem State.markRaced_aluSat (s : State) : (State.markRaced s).aluSat = s.aluSat := rfl
@[simp] theorem State.markRaced_aluDz (s : State) : (State.markRaced s).aluDz = s.aluDz := rfl
@[simp] theorem State.markRaced_act (s : State) : (State.markRaced s).act = s.act := rfl
@[simp] theorem State.markRaced_win (s : State) : (State.markRaced s).win = s.win := rfl
@[simp] theorem State.markRaced_dmem (s : State) : (State.markRaced s).dmem = s.dmem := rfl
@[simp] theorem State.markRaced_run (s : State) :
    (State.markRaced s).run = s.run.map fun r => { r with raced := true } := rfl
@[simp] theorem State.markRaced_host (s : State) : (State.markRaced s).host = s.host := rfl
@[simp] theorem State.markRaced_resp (s : State) : (State.markRaced s).resp = s.resp := rfl
@[simp] theorem State.markRaced_draws (s : State) : (State.markRaced s).draws = s.draws := rfl

/-! ### respond -/

@[simp] theorem State.respond_params (e : Bool) (v : Word) (s : State) :
    (State.respond e v s).params = s.params := rfl
@[simp] theorem State.respond_regs (e : Bool) (v : Word) (s : State) : (State.respond e v s).regs = s.regs := rfl
@[simp] theorem State.respond_estate (e : Bool) (v : Word) (s : State) :
    (State.respond e v s).estate = s.estate := rfl
@[simp] theorem State.respond_lastStatus (e : Bool) (v : Word) (s : State) :
    (State.respond e v s).lastStatus = s.lastStatus := rfl
@[simp] theorem State.respond_ovr (e : Bool) (v : Word) (s : State) : (State.respond e v s).ovr = s.ovr := rfl
@[simp] theorem State.respond_fftShift (e : Bool) (v : Word) (s : State) :
    (State.respond e v s).fftShift = s.fftShift := rfl
@[simp] theorem State.respond_aluRLo (e : Bool) (v : Word) (s : State) :
    (State.respond e v s).aluRLo = s.aluRLo := rfl
@[simp] theorem State.respond_aluRHi (e : Bool) (v : Word) (s : State) :
    (State.respond e v s).aluRHi = s.aluRHi := rfl
@[simp] theorem State.respond_aluSat (e : Bool) (v : Word) (s : State) :
    (State.respond e v s).aluSat = s.aluSat := rfl
@[simp] theorem State.respond_aluDz (e : Bool) (v : Word) (s : State) : (State.respond e v s).aluDz = s.aluDz := rfl
@[simp] theorem State.respond_act (e : Bool) (v : Word) (s : State) : (State.respond e v s).act = s.act := rfl
@[simp] theorem State.respond_win (e : Bool) (v : Word) (s : State) : (State.respond e v s).win = s.win := rfl
@[simp] theorem State.respond_dmem (e : Bool) (v : Word) (s : State) : (State.respond e v s).dmem = s.dmem := rfl
@[simp] theorem State.respond_run (e : Bool) (v : Word) (s : State) : (State.respond e v s).run = s.run := rfl
@[simp] theorem State.respond_host (e : Bool) (v : Word) (s : State) : (State.respond e v s).host = s.host := rfl
@[simp] theorem State.respond_resp (e : Bool) (v : Word) (s : State) :
    (State.respond e v s).resp = some { error := e, data := v } := rfl
@[simp] theorem State.respond_draws (e : Bool) (v : Word) (s : State) : (State.respond e v s).draws = s.draws := rfl

/-! ### failed -/

@[simp] theorem State.failed_params (c : StatusCode) (s : State) : (State.failed s c).params = s.params := rfl
@[simp] theorem State.failed_regs (c : StatusCode) (s : State) : (State.failed s c).regs = s.regs := rfl
@[simp] theorem State.failed_estate (c : StatusCode) (s : State) : (State.failed s c).estate = s.estate := rfl
@[simp] theorem State.failed_lastStatus (c : StatusCode) (s : State) : (State.failed s c).lastStatus = c := rfl
@[simp] theorem State.failed_ovr (c : StatusCode) (s : State) : (State.failed s c).ovr = s.ovr := rfl
@[simp] theorem State.failed_fftShift (c : StatusCode) (s : State) : (State.failed s c).fftShift = s.fftShift := rfl
@[simp] theorem State.failed_aluRLo (c : StatusCode) (s : State) : (State.failed s c).aluRLo = s.aluRLo := rfl
@[simp] theorem State.failed_aluRHi (c : StatusCode) (s : State) : (State.failed s c).aluRHi = s.aluRHi := rfl
@[simp] theorem State.failed_aluSat (c : StatusCode) (s : State) : (State.failed s c).aluSat = s.aluSat := rfl
@[simp] theorem State.failed_aluDz (c : StatusCode) (s : State) : (State.failed s c).aluDz = s.aluDz := rfl
@[simp] theorem State.failed_act (c : StatusCode) (s : State) : (State.failed s c).act = s.act := rfl
@[simp] theorem State.failed_win (c : StatusCode) (s : State) : (State.failed s c).win = s.win := rfl
@[simp] theorem State.failed_dmem (c : StatusCode) (s : State) : (State.failed s c).dmem = s.dmem := rfl
@[simp] theorem State.failed_run (c : StatusCode) (s : State) : (State.failed s c).run = none := rfl
@[simp] theorem State.failed_host (c : StatusCode) (s : State) : (State.failed s c).host = s.host := rfl
@[simp] theorem State.failed_resp (c : StatusCode) (s : State) : (State.failed s c).resp = s.resp := rfl
@[simp] theorem State.failed_draws (c : StatusCode) (s : State) : (State.failed s c).draws = s.draws := rfl

/-! ### A power-on reset by the host -/

@[simp] theorem powerOnReset_params (s : State) : (powerOnReset s).params = s.params := rfl
@[simp] theorem powerOnReset_regs (s : State) : (powerOnReset s).regs = resetRegs := rfl
@[simp] theorem powerOnReset_estate (s : State) : (powerOnReset s).estate = .uninitialised := rfl
@[simp] theorem powerOnReset_lastStatus (s : State) : (powerOnReset s).lastStatus = .ok := rfl
@[simp] theorem powerOnReset_ovr (s : State) : (powerOnReset s).ovr = false := rfl
@[simp] theorem powerOnReset_fftShift (s : State) : (powerOnReset s).fftShift = 0 := rfl
@[simp] theorem powerOnReset_aluRLo (s : State) : (powerOnReset s).aluRLo = 0 := rfl
@[simp] theorem powerOnReset_aluRHi (s : State) : (powerOnReset s).aluRHi = 0 := rfl
@[simp] theorem powerOnReset_aluSat (s : State) : (powerOnReset s).aluSat = false := rfl
@[simp] theorem powerOnReset_aluDz (s : State) : (powerOnReset s).aluDz = false := rfl
@[simp] theorem powerOnReset_act (s : State) : (powerOnReset s).act = drawAct s.draws := rfl
@[simp] theorem powerOnReset_win (s : State) : (powerOnReset s).win = drawWindow s.params s.draws := rfl
@[simp] theorem powerOnReset_dmem (s : State) : (powerOnReset s).dmem = drawRegion s.draws [] ⟨0, s.params.dmemBytes⟩ := rfl
@[simp] theorem powerOnReset_run (s : State) : (powerOnReset s).run = none := rfl
@[simp] theorem powerOnReset_host (s : State) : (powerOnReset s).host = s.host := rfl
@[simp] theorem powerOnReset_resp (s : State) : (powerOnReset s).resp = none := rfl
@[simp] theorem powerOnReset_draws (s : State) : (powerOnReset s).draws = s.draws + 1 := rfl

end Sys2Proof.Machine
end

