-- ==== Sys2Proof/Laws/Ops.lean ====
section
/-! SUPPORT. What each shared operation can do, said once: the ALU write-back, the commands case by case, the checks in
the spec's words, who moves next. -/

namespace Sys2Proof.Machine

/-! ### Outcomes -/

@[simp] theorem onNext_next (f : State → State) (s : State) : onNext f (.next s) = .next (f s) := rfl

@[simp] theorem onNext_fault (f : State → State) (r : Fault) : onNext f (.fault r) = .fault r := rfl

@[simp] theorem onNext_refused (f : State → State) (r : Refusal) : onNext f (.refused r) = .refused r := rfl

/-- A changed outcome is a next state exactly when the outcome is. -/
theorem onNext_eq_next (f : State → State) (o : Result) (t : State) :
    onNext f o = .next t ↔ ∃ s, o = .next s ∧ t = f s := by
  cases o with
  | next s => exact ⟨fun h => ⟨s, rfl, (by simpa using h.symm)⟩, fun ⟨s', h1, h2⟩ => by cases h1; simp [h2]⟩
  | fault r => simp
  | refused r => simp

/-! ### The ALU -/

theorem clamp_eq_bounded (v lo hi : Int) (h : lo ≤ hi) : clamp v lo hi = bounded lo hi v := by
  unfold clamp bounded; split <;> omega

theorem sat16_eq_bounded (s : State) (v : Int) : sat16 s.sym v = bounded s.low16 32767 v := by
  unfold sat16 lo16 hi16 State.low16 State.sym
  exact clamp_eq_bounded _ _ _ (by split <;> omega)

theorem sat32_eq_bounded (s : State) (v : Int) : sat32 s.sym v = bounded s.low32 (2 ^ 31 - 1) v := by
  unfold sat32 lo32 hi32 State.low32 State.sym
  norm_num
  exact clamp_eq_bounded _ _ _ (by split <;> omega)

theorem sat16_eq_boundedQ15 (sym : Bool) (v : Int) : sat16 sym v = boundedQ15 sym v :=
  clamp_eq_bounded _ _ _ (by unfold lo16 hi16; split <;> omega)

theorem sat32_eq_boundedQ31 (sym : Bool) (v : Int) : sat32 sym v = boundedQ31 sym v := by
  unfold sat32 lo32 hi32 boundedQ31
  norm_num
  exact clamp_eq_bounded _ _ _ (by split <;> omega)

/-- A value is changed by being bounded exactly when it lies outside. -/
theorem bounded_ne_iff (lo hi v : Int) (_h : lo ≤ hi) : bounded lo hi v ≠ v ↔ (v < lo ∨ hi < v) := by
  unfold bounded; split <;> [omega; (split <;> omega)]

theorem satFlag16_eq_outside (s : State) (v : Int) : satFlag16 s.sym v = outside s.low16 32767 v := by
  unfold satFlag16 outside
  rw [sat16_eq_bounded]
  exact decide_eq_decide.mpr (bounded_ne_iff _ _ _ (by unfold State.low16; split <;> omega))

theorem satFlag32_eq_outside (s : State) (v : Int) : satFlag32 s.sym v = outside s.low32 (2 ^ 31 - 1) v := by
  unfold satFlag32 outside
  rw [sat32_eq_bounded]
  exact decide_eq_decide.mpr (bounded_ne_iff _ _ _ (by unfold State.low32; split <;> omega))

/-- A bounded value lies in its bounds. -/
theorem bounded_mem (lo hi v : Int) (h : lo ≤ hi) : lo ≤ bounded lo hi v ∧ bounded lo hi v ≤ hi := by
  unfold bounded; split <;> [omega; (split <;> omega)]

theorem sat16_mem (sym : Bool) (v : Int) : -32768 ≤ sat16 sym v ∧ sat16 sym v ≤ 32767 := by
  unfold sat16 clamp lo16 hi16; split <;> omega

theorem sat32_mem (sym : Bool) (v : Int) : -2147483648 ≤ sat32 sym v ∧ sat32 sym v ≤ 2147483647 := by
  unfold sat32 clamp lo32 hi32; split <;> omega

theorem asr_eq_div (v : Int) (n : Nat) : asr v n = v / 2 ^ n := by simp [asr]

/-- The two result registers of an ALU command, joined, are the result. -/
theorem aluHalves_join (x : BitVec 64) : x.extractLsb' 32 32 ++ x.extractLsb' 0 32 = x := by
  refine BitVec.eq_of_getLsbD_eq fun i hi => ?_
  rw [BitVec.getLsbD_append]
  by_cases h : i < 32
  · simp [h]
  · simp only [h, BitVec.getLsbD_extractLsb']
    have : 32 + (i - 32) = i := by omega
    simp [this, show i - 32 < 32 by omega]

/-- An ALU write-back answers a next state that holds the result, for every result of 64 signed bits. -/
theorem aluResult_wrote (r : Int) (sat dz : Bool) (s : State) (h1 : -9223372036854775808 ≤ r)
    (h2 : r ≤ 9223372036854775807) : ∃ t, aluResult r sat dz s = .next t ∧ AluWrote s t r sat dz := by
  refine ⟨_, rfl, ?_, rfl, rfl, rfl⟩
  simp only [State.finish_aluRHi, State.finish_aluRLo]
  rw [aluHalves_join, BitVec.toInt_ofInt]
  exact Int.bmod_eq_of_le (by omega) (by omega)

/-- Every ALU command is one write-back. -/
theorem exec_alu (i : Instr) (hi : i ∉ engineCommands) (s : State) :
    ∃ r sat dz, exec i s = aluResult r sat dz s := by
  cases i <;>
    first
    | (exfalso; exact hi (by decide))
    | exact ⟨_, _, _, rfl⟩
    | (simp only [exec, execDivg]; split <;> exact ⟨_, _, _, rfl⟩)

/-! ### The checks in the spec's words -/

/-- A number is `2` to the floor of its logarithm exactly when it is a power of two. -/
theorem two_pow_log2_eq_iff (f : Nat) : 2 ^ f.log2 = f ↔ ∃ L, f = 2 ^ L := by
  constructor
  · exact fun h => ⟨f.log2, h.symm⟩
  · rintro ⟨L, rfl⟩
    rw [Nat.log2_two_pow]

theorem frameOk_iff (p : Params) (f h c : Nat) : frameOk p f h c = true ↔
    (∃ L, 1 ≤ L ∧ f = 2 ^ L) ∧ f ≤ p.maxFrameLen ∧ 1 ≤ h ∧ h ∣ f ∧ 2 * h ≤ f ∧ 1 ≤ c ∧ c ≤ p.maxChannels := by
  simp only [frameOk, Bool.and_eq_true, decide_eq_true_eq, two_pow_log2_eq_iff, Nat.dvd_iff_mod_eq_zero]
  constructor
  · rintro ⟨⟨⟨h1, h2, L, rfl⟩, h3, h4, h5⟩, h6, h7⟩
    refine ⟨⟨L, ?_, rfl⟩, h2, h3, h4, h5, h6, h7⟩
    rcases L with - | L
    · simp at h1
    · omega
  · rintro ⟨⟨L, hL, rfl⟩, h2, h3, h4, h5, h6, h7⟩
    refine ⟨⟨⟨?_, h2, L, rfl⟩, h3, h4, h5⟩, h6, h7⟩
    calc 2 = 2 ^ 1 := rfl
      _ ≤ 2 ^ L := Nat.pow_le_pow_right (by omega) hL

/-! The fields of the registers as the host reads them. -/

theorem field_frameLen (s : State) : s.field 0x010 0 16 = s.regs.frameLen.toNat := by
  simp [State.field, State.readReg, Regs.frameLen, BitVec.extractLsb'_toNat]

theorem field_hopLen (s : State) : s.field 0x010 16 16 = s.regs.hopLen.toNat := by
  simp [State.field, State.readReg, Regs.hopLen, BitVec.extractLsb'_toNat, Nat.shiftRight_eq_div_pow]

theorem field_chan (s : State) : s.field 0x014 0 8 = s.regs.cfgChan.toNat := by
  have := s.regs.cfgChan.isLt
  simp [State.field, State.readReg]
  omega

theorem field_mintrack (s : State) : s.field 0x02C 0 16 = s.regs.nsMintrack.toNat := by
  have := s.regs.nsMintrack.isLt
  simp [State.field, State.readReg]
  omega

/-- A bit of CFG_CTRL as the host reads it. -/
theorem readReg_ctrl_bit (s : State) (i : Nat) : (s.readReg 0x00C).getLsbD i = s.regs.cfgCtrl.getLsbD i := by
  simp only [State.readReg, BitVec.getLsbD_setWidth]
  by_cases h : i < 32
  · simp [h]
  · simp [h, BitVec.getLsbD_of_ge _ i (show 6 ≤ i by omega)]

theorem scratchNeed_eq (s : State) : s.scratchNeed = s.regs.scratchBytes := by
  simp only [State.scratchNeed, Regs.scratchBytes, scratchBytes, field_frameLen, field_chan, readReg_ctrl_bit,
    Regs.nsEn]
  by_cases h : s.regs.cfgCtrl.getLsbD 0 = true
  · simp only [h, if_true]
    ring
  · simp only [h, Bool.false_eq_true, if_false]

theorem scratchLen_eq (a : Act) : a.scratchLen = a.SB := by
  simp only [Act.scratchLen, Act.SB, scratchBytes]
  by_cases h : a.nsEn = true
  · simp only [h, if_true]; ring
  · simp only [h, Bool.false_eq_true, if_false]; ring

theorem validConfig_iff (s : State) : validConfig s.params s.regs = true ↔ ConfigValid s := by
  simp only [validConfig, ConfigValid, Bool.and_eq_true, frameOk_iff, Bool.or_eq_true, Bool.not_eq_true',
    decide_eq_true_eq, field_frameLen, field_hopLen, field_chan, field_mintrack, readReg_ctrl_bit, Regs.nsEn,
    Regs.agcEn, Regs.featEn]
  tauto

theorem disjoint_iff_apart (b1 n1 b2 n2 : Nat) :
    (Region.mk b1 n1).disjoint (Region.mk b2 n2) = true ↔ apart b1 n1 b2 n2 := by
  simp [Region.disjoint, apart]

theorem inside_iff (b n m : Nat) : (Region.mk b n).inside m = true ↔ b + n ≤ m := by simp [Region.inside]

theorem initRegionsOk_iff (s : State) : initRegionsOk s.params s.regs = true ↔ TablesPlaced s := by
  simp only [initRegionsOk, tableRegionsOk, TablesPlaced, winRegion, twiddleRegion, Bool.and_eq_true,
    disjoint_iff_apart, inside_iff, scratchNeed_eq, field_frameLen, State.readReg]
  tauto

theorem hopRegionsOk_iff (s : State) : hopRegionsOk s.params s.act s.regs = true ↔ HopPlaced s := by
  simp only [hopRegionsOk, HopPlaced, inRegion, outRegion, Act.winRegion, Act.twcRegion, Act.twsRegion,
    Act.scrRegion, winRegion, twiddleRegion, Bool.and_eq_true, disjoint_iff_apart, inside_iff, scratchLen_eq,
    State.readReg]
  tauto

theorem hopNull_eq_false_iff (s : State) :
    s.regs.hopNull = false ↔ s.readReg 0x044 ≠ 0 ∧ s.readReg 0x048 ≠ 0 := by
  simp [Regs.hopNull, State.readReg]

theorem hopReady_iff (s : State) : HopReady s ↔ hopRuns s s.regs = true := by
  simp only [HopReady, hopRuns, Bool.and_eq_true, decide_eq_true_eq, Bool.not_eq_true', hopNull_eq_false_iff,
    hopRegionsOk_iff]
  tauto

theorem has_iff_inRange (b n a : Nat) : (Region.mk b n).has a = true ↔ inRange b n a := by simp [Region.has, inRange]

/-- The regions a hop writes, as the model computes them. -/
theorem hopWrites_iff (s : State) (a : Nat) :
    HopWrites s a ↔ ((outRegion s.act s.regs).has a || s.act.scrRegion.has a) = true := by
  simp only [HopWrites, outRegion, Act.scrRegion, Bool.or_eq_true, has_iff_inRange, scratchLen_eq, State.readReg]

/-- The regions a hop reads or writes, as the model computes them. -/
theorem hopUses_iff (s : State) (a : Nat) :
    HopUses s a ↔
      ((inRegion s.act s.regs).has a || (outRegion s.act s.regs).has a || s.act.winRegion.has a ||
        s.act.twcRegion.has a || s.act.twsRegion.has a || s.act.scrRegion.has a) = true := by
  simp only [HopUses, HopWrites, inRegion, outRegion, Act.winRegion, Act.twcRegion, Act.twsRegion, Act.scrRegion,
    winRegion, twiddleRegion, Bool.or_eq_true, has_iff_inRange, scratchLen_eq, State.readReg]
  tauto

/-- The running command is a hop whose checks pass exactly when the model's `runningHop` finds one. -/
theorem runningHop_eq (s : State) (r : Running) (h : s.run = some r) :
    (RunsHop s r → runningHop s = some r.snap) ∧ (¬ RunsHop s r → runningHop s = none) := by
  have hr : HopReady (State.withSnapshot r s) ↔ hopRuns s r.snap = true := hopReady_iff _
  simp only [RunsHop, runningHop, h, hr]
  by_cases hd : decode r.word = .ok .processHop
  · by_cases hh : hopRuns s r.snap = true <;> simp [hd, hh]
  · simp [hd]

/-- The regions of an active configuration that INIT latches lie in DMEM. -/
theorem actInside_of_actOk (p : Params) (a : Act) (h : actOk p a) : actInside p a = true := by
  have h3 := h.2.2.1
  simp only [tableRegionsOk, Bool.and_eq_true] at h3
  simp only [actInside, Act.winRegion, Act.twcRegion, Act.twsRegion, Act.scrRegion, Bool.and_eq_true]
  tauto

/-! ### The commands case by case -/

/-- What INIT can do. -/
theorem execInit_cases (s t : State) (h : execInit s = .next t) :
    (∃ c, c ≠ .ok ∧ t = s.finish c) ∨
    (s.estate ≠ .freed ∧ s.regs.initNull = false ∧ validConfig s.params s.regs = true ∧
      s.regs.scratchBytes ≤ s.regs.scratchSize.toNat ∧ initRegionsOk s.params s.regs = true ∧ t = initEffect s) := by
  simp only [execInit] at h
  split at h
  · cases h; exact .inl ⟨_, by decide, rfl⟩
  · split at h
    · cases h; exact .inl ⟨_, by decide, rfl⟩
    · split at h
      · cases h; exact .inl ⟨_, by decide, rfl⟩
      · split at h
        · cases h; exact .inl ⟨_, by decide, rfl⟩
        · split at h
          · cases h; exact .inl ⟨_, by decide, rfl⟩
          · cases h
            refine .inr ⟨by assumption, ?_, ?_, ?_, ?_, rfl⟩
            all_goals simp_all

/-- What RESET can do. -/
theorem execReset_cases (s t : State) (h : execReset s = .next t) :
    (s.estate ≠ .ready ∧ t = s.finish .notInitialised) ∨
    (s.estate = .ready ∧ t = State.finish .ok s.postInitValues) := by
  simp only [execReset] at h
  split at h
  · cases h; exact .inl ⟨by assumption, rfl⟩
  · cases h; exact .inr ⟨not_not.mp (by assumption), rfl⟩

/-- What FREE can do. -/
theorem execFree_cases (s t : State) (h : execFree s = .next t) :
    (s.estate = .freed ∧ t = s.finish .notInitialised) ∨
    (s.estate ≠ .freed ∧ t = State.finish .ok { s with estate := .freed }) := by
  simp only [execFree] at h
  split at h
  · cases h; exact .inl ⟨by assumption, rfl⟩
  · cases h; exact .inr ⟨by assumption, rfl⟩

/-- What PROCESS_HOP can do. -/
theorem execProcessHop_cases (s t : State) (h : execProcessHop s = .next t) :
    (∃ c, c ≠ .ok ∧ t = s.finish c) ∨
    (HopReady s ∧ actInside s.params s.act = true ∧
      ((s.raced = true ∧ t = hopRaced s) ∨ (s.raced = false ∧ t = hopEffect s))) := by
  simp only [execProcessHop] at h
  split at h
  · cases h; exact .inl ⟨_, by decide, rfl⟩
  · split at h
    · cases h; exact .inl ⟨_, by decide, rfl⟩
    · split at h
      · cases h; exact .inl ⟨_, by decide, rfl⟩
      · split at h
        · cases h
        · rename_i h1 h2 h3 h4
          have hr : HopReady s := by
            rw [hopReady_iff, hopRuns]
            simp_all
          have ha : actInside s.params s.act = true := by simpa using h4
          split at h
          · cases h; exact .inr ⟨hr, ha, .inl ⟨by assumption, rfl⟩⟩
          · cases h; exact .inr ⟨hr, ha, .inr ⟨by simpa using ‹¬ s.raced = true›, rfl⟩⟩

/-- A hop whose checks pass, on regions inside DMEM, runs. -/
theorem execProcessHop_ready (s : State) (h : HopReady s) (ha : actInside s.params s.act = true) :
    execProcessHop s = .next (if s.raced then hopRaced s else hopEffect s) := by
  rw [hopReady_iff, hopRuns] at h
  simp only [Bool.and_eq_true, decide_eq_true_eq, Bool.not_eq_true'] at h
  obtain ⟨⟨h1, h2⟩, h3⟩ := h
  simp only [execProcessHop, h1, h2, h3, ha, ne_eq, not_true_eq_false, if_false, Bool.not_true, Bool.false_eq_true]
  split <;> rfl

/-! ### Who moves next -/

theorem nextMove_engine (s : State) (r : Running) (h : s.engineTurn r) : nextMove s = .engine r := by
  obtain ⟨hr, h⟩ := h
  unfold nextMove
  rw [hr]
  rcases hs : s.host with - | ⟨op, rest⟩
  · rfl
  · cases op with
    | wait => rfl
    | _ => simp_all

theorem step_engine (s : State) (r : Running) (h : s.engineTurn r) : step s = engineMove r s := by
  rw [step, move, nextMove_engine s r h]

/-- What a step can do: the engine's turn, the host's next operation, or nothing. -/
theorem step_cases (s t : State) (h : step s = .next t) :
    (∃ r, s.engineTurn r ∧ engineMove r s = .next t) ∨
    (∃ op rest, s.host = op :: rest ∧ t = hostMove op rest s) ∨ (s.run = none ∧ s.host = [] ∧ t = s) := by
  simp only [step, move] at h
  rcases hr : s.run with - | r <;> rcases hs : s.host with - | ⟨op, rest⟩
  · simp only [nextMove, hr, hs] at h
    exact .inr (.inr ⟨rfl, rfl, by simpa using h.symm⟩)
  · simp only [nextMove, hr, hs] at h
    exact .inr (.inl ⟨op, rest, rfl, by simpa using h.symm⟩)
  · rw [nextMove_engine s r ⟨hr, .inr (.inl hs)⟩] at h
    exact .inl ⟨r, ⟨hr, .inr (.inl hs)⟩, h⟩
  · by_cases hw : op = .wait ∨ r.left = 0
    · have ht : s.engineTurn r := by
        rcases hw with rfl | hw
        · exact ⟨hr, .inr (.inr (by simp [hs]))⟩
        · exact ⟨hr, .inl hw⟩
      rw [nextMove_engine s r ht] at h
      exact .inl ⟨r, ht, h⟩
    · obtain ⟨h1, h2⟩ := not_or.mp hw
      have hn : nextMove s = .host op rest := by
        unfold nextMove
        rw [hr, hs]
        cases op with
        | wait => exact absurd rfl h1
        | _ => simp [h2]
      rw [hn] at h
      exact .inr (.inl ⟨op, rest, rfl, by simpa using h.symm⟩)

/-- What the engine can do with the word it holds. -/
theorem engineMove_cases (r : Running) (s t : State) (h : engineMove r s = .next t) :
    (∃ e, decode r.word = .error e ∧ t = s.finish .illegalCmd) ∨
    (∃ i u, decode r.word = .ok i ∧ exec i (State.withSnapshot r s) = .next u ∧ t = State.withRegs s.regs u) := by
  simp only [engineMove] at h
  split at h
  · obtain ⟨u, hu, ht⟩ := (onNext_eq_next _ _ _).mp h
    exact .inr ⟨_, u, by assumption, hu, ht⟩
  · cases h
    exact .inl ⟨_, by assumption, rfl⟩

end Sys2Proof.Machine
end

