-- ==== Sys2Proof/Laws/PerInstr.lean ====
section
/-! SUPPORT. A family of lemmas per constructor: the fields of an encoding (30_encoding.md R81, R85). -/

namespace Sys2Proof.Laws

/-- The encoding of a well-formed command has RSVD 0 and its shift amount in SHAMT (30_encoding.md R81). -/
def EncodeFields.Statement (i : Instr) : Prop :=
  i.WellFormed → rsvdOf (encode i) = 0 ∧ shamtOf (encode i) = i.shamt

/-- The fields of the word of a shifting function, for every shift amount a word encodes (30_encoding.md R84, R85). -/
theorem shiftWord_fields (fn sh : Nat) (hf : fn = 0x0F ∨ fn = 0x10) (hs : sh ≤ 31) :
    opcodeOf (aluWord fn sh) = 0x10 ∧ funcOf (aluWord fn sh) = fn ∧ shamtOf (aluWord fn sh) = sh ∧
    rsvdOf (aluWord fn sh) = 0 := by
  rcases hf with rfl | rfl <;> interval_cases sh <;> decide

theorem EncodeFields.init : EncodeFields.Statement .init := fun _ => by decide

theorem EncodeFields.processHop : EncodeFields.Statement .processHop := fun _ => by decide

theorem EncodeFields.reset : EncodeFields.Statement .reset := fun _ => by decide

theorem EncodeFields.free : EncodeFields.Statement .free := fun _ => by decide

theorem EncodeFields.sat16 : EncodeFields.Statement .sat16 := fun _ => by decide

theorem EncodeFields.sat32 : EncodeFields.Statement .sat32 := fun _ => by decide

theorem EncodeFields.widen : EncodeFields.Statement .widen := fun _ => by decide

theorem EncodeFields.narrow : EncodeFields.Statement .narrow := fun _ => by decide

theorem EncodeFields.mulq15 : EncodeFields.Statement .mulq15 := fun _ => by decide

theorem EncodeFields.mulq31 : EncodeFields.Statement .mulq31 := fun _ => by decide

theorem EncodeFields.mulw : EncodeFields.Statement .mulw := fun _ => by decide

theorem EncodeFields.mac2 : EncodeFields.Statement .mac2 := fun _ => by decide

theorem EncodeFields.msu2 : EncodeFields.Statement .msu2 := fun _ => by decide

theorem EncodeFields.adds32 : EncodeFields.Statement .adds32 := fun _ => by decide

theorem EncodeFields.subs32 : EncodeFields.Statement .subs32 := fun _ => by decide

theorem EncodeFields.negs32 : EncodeFields.Statement .negs32 := fun _ => by decide

theorem EncodeFields.adds16 : EncodeFields.Statement .adds16 := fun _ => by decide

theorem EncodeFields.subs16 : EncodeFields.Statement .subs16 := fun _ => by decide

theorem EncodeFields.asr32 (n : Nat) : EncodeFields.Statement (.asr32 n) := fun h =>
  ⟨(shiftWord_fields 0x0F n (.inl rfl) h).2.2.2, (shiftWord_fields 0x0F n (.inl rfl) h).2.2.1⟩

theorem EncodeFields.shls32 (n : Nat) : EncodeFields.Statement (.shls32 n) := fun h =>
  ⟨(shiftWord_fields 0x10 n (.inr rfl) h).2.2.2, (shiftWord_fields 0x10 n (.inr rfl) h).2.2.1⟩

theorem EncodeFields.mulg : EncodeFields.Statement .mulg := fun _ => by decide

theorem EncodeFields.divg : EncodeFields.Statement .divg := fun _ => by decide

theorem EncodeFields.powq31 : EncodeFields.Statement .powq31 := fun _ => by decide

end Sys2Proof.Laws
end

