-- ==== Sys2Proof/Laws/Pipeline.lean ====
section
/-! SUPPORT. The stages of a hop: the length each gives, and the state window each leaves canonical. -/

namespace Sys2Proof.Machine

/-! ### Lengths -/

@[simp] theorem prefilter_nil (sym : Bool) (al pe : Int) (st : Pre) : prefilter sym al pe st [] = ([], st) := rfl

theorem prefilter_cons (sym : Bool) (al pe : Int) (st : Pre) (x : Int) (xs : List Int) :
    prefilter sym al pe st (x :: xs) =
      ((preStep sym al pe st x).1 :: (prefilter sym al pe (preStep sym al pe st x).2 xs).1,
        (prefilter sym al pe (preStep sym al pe st x).2 xs).2) := rfl

@[simp] theorem prefilter_length (sym : Bool) (al pe : Int) (st : Pre) (xs : List Int) :
    (prefilter sym al pe st xs).1.length = xs.length := by
  induction xs generalizing st with
  | nil => rfl
  | cons x xs ih => simp [prefilter_cons, ih]

/-- The filters run over a joined stream as over its parts. -/
theorem prefilter_append (sym : Bool) (al pe : Int) (st : Pre) (xs ys : List Int) :
    prefilter sym al pe st (xs ++ ys) =
      ((prefilter sym al pe st xs).1 ++ (prefilter sym al pe (prefilter sym al pe st xs).2 ys).1,
        (prefilter sym al pe (prefilter sym al pe st xs).2 ys).2) := by
  induction xs generalizing st with
  | nil => rfl
  | cons x xs ih => simp [prefilter_cons, ih]

theorem bufferStep_length (h f : Nat) (buf e : List Int) (hb : buf.length = f) (he : e.length = h) (hf : h ≤ f) :
    (bufferStep h buf e).length = f := by simp [bufferStep, hb, he]; omega

@[simp] theorem windowStep_length (sym : Bool) (buf win : List Int) :
    (windowStep sym buf win).length = min buf.length win.length := by simp [windowStep]

@[simp] theorem loadFrame_length (xw : List Int) : (loadFrame xw).length = xw.length := by simp [loadFrame]

@[simp] theorem blockScale_length (z : List Cx) : (blockScale z).length = z.length := by simp [blockScale]

@[simp] theorem swapAt_length (z : List Cx) (i j : Nat) : (swapAt z i j).length = z.length := by simp [swapAt]

@[simp] theorem butterfly_length (sym inv : Bool) (wr wi : Int) (p q : Nat) (z : List Cx) :
    (butterfly sym inv wr wi p q z).length = z.length := by simp [butterfly]

/-- A fold of length-keeping changes keeps the length. -/
theorem foldl_length {β : Type} (f : List Cx → β → List Cx) (hf : ∀ z b, (f z b).length = z.length) (l : List β)
    (z : List Cx) : (l.foldl f z).length = z.length := by
  induction l generalizing z with
  | nil => rfl
  | cons b l ih => rw [List.foldl_cons, ih, hf]

@[simp] theorem bitrevPermute_length (L : Nat) (z : List Cx) : (bitrevPermute L z).length = z.length :=
  foldl_length _ (fun z b => by split <;> simp) _ _

@[simp] theorem butterflyGroup_length (sym inv : Bool) (cos sin : List Int) (m stride g : Nat) (z : List Cx) :
    (butterflyGroup sym inv cos sin m stride g z).length = z.length :=
  foldl_length _ (fun z b => by simp) _ _

@[simp] theorem stage_length (sym inv : Bool) (cos sin : List Int) (L s : Nat) (z : List Cx) :
    (stage sym inv cos sin L s z).length = z.length := by
  rw [stage, foldl_length _ fun z b => by simp]
  simp

@[simp] theorem transform_length (sym inv : Bool) (cos sin : List Int) (L : Nat) (z : List Cx) :
    (transform sym inv cos sin L z).length = z.length := by
  rw [transform, foldl_length _ fun z b => by simp]
  simp

@[simp] theorem hermitianRebuild_length (sym : Bool) (f : Nat) (z : List Cx) :
    (hermitianRebuild sym f z).length = z.length := foldl_length _ (fun z b => by simp) _ _

@[simp] theorem rescale_length (sym : Bool) (lf : Nat) (z : List Cx) : (rescale sym lf z).length = z.length := by
  simp [rescale]

@[simp] theorem narrowFrame_length (sym : Bool) (z : List Cx) : (narrowFrame sym z).length = z.length := by
  simp [narrowFrame]

@[simp] theorem olaAdd_length (ola y : List Int) : (olaAdd ola y).length = min ola.length y.length := by
  simp [olaAdd]

theorem olaStep_output_length (sym : Bool) (h nsh : Nat) (ola y : List Int) :
    (olaStep sym h nsh ola y).1.length = min h (min ola.length y.length) := by simp [olaStep]

@[simp] theorem olaStep_state_length (sym : Bool) (h nsh : Nat) (ola y : List Int) :
    (olaStep sym h nsh ola y).2.length = min ola.length y.length := by simp [olaStep]; omega

@[simp] theorem combine_length (c h : Nat) (outs : List (List Int)) : (combine c h outs).length = h := by
  simp [combine]

@[simp] theorem binPowers_length (nb : Nat) (z : List Cx) : (binPowers nb z).length = min nb z.length := by
  simp [binPowers]

@[simp] theorem minUpdate_length (p mn : List Int) : (minUpdate p mn).length = min p.length mn.length := by
  simp [minUpdate]

/-- The lengths a suppressor step gives, for lists of the frame's lengths. -/
theorem nsStep_lengths (sym : Bool) (cfg : NsCfg) (nb : Nat) (st : Ns) (z : List Cx) (hz : nb ≤ z.length)
    (hm : st.min.length = nb) (he : st.est.length = nb) :
    (nsStep sym cfg nb st z).ns.min.length = nb ∧ (nsStep sym cfg nb st z).ns.est.length = nb ∧
    (nsStep sym cfg nb st z).gain.length = nb ∧ (nsStep sym cfg nb st z).z.length = z.length := by
  refine ⟨?_, ?_, ?_, ?_⟩ <;> simp only [nsStep]
  · split <;> simp [hm, hz]
  · simp [hm, he, hz]
  · simp [hm, he, hz]
  · simp [hm, he, hz]

/-! ### A channel's state in the window -/

@[simp] theorem loadChan_buf_length (p : Params) (a : Act) (w : Window) (c : Nat) :
    (loadChan p a w c).buf.length = a.F := by simp [loadChan]

@[simp] theorem loadChan_ola_length (p : Params) (a : Act) (w : Window) (c : Nat) :
    (loadChan p a w c).ola.length = a.F := by simp [loadChan]

@[simp] theorem loadChan_min_length (p : Params) (a : Act) (w : Window) (c : Nat) :
    (loadChan p a w c).ns.min.length = a.NB := by simp [loadChan]

@[simp] theorem loadChan_est_length (p : Params) (a : Act) (w : Window) (c : Nat) :
    (loadChan p a w c).ns.est.length = a.NB := by simp [loadChan]

@[simp] theorem readInput_length (a : Act) (r : Regs) (m : Memory) (c : Nat) : (readInput a r m c).length = a.H := by
  simp [readInput]

/-- The post-init window meets the window's part of the invariant. -/
theorem postInit_windowOk (p : Params) : windowWf p postInit ∧ windowTyped postInit := by
  simp [windowWf, windowTyped, postInit, sparseWf]

/-! ### Ranges -/

/-- The power of an int32 pair lies in 0 .. MAXPOW. -/
theorem powq31_range (re im : Int) : 0 ≤ powq31 re im ∧ powq31 re im ≤ 2147483647 := by
  have h1 : 0 ≤ re * re / 2147483648 := Int.ediv_nonneg (mul_self_nonneg re) (by norm_num)
  have h2 : 0 ≤ im * im / 2147483648 := Int.ediv_nonneg (mul_self_nonneg im) (by norm_num)
  simp only [powq31, powq31Raw, asr, maxPow]
  norm_num
  exact add_nonneg h1 h2

/-- Every minimum after an update is a power or an old minimum. -/
theorem minUpdate_range (p mn : List Int) (hp : ∀ v ∈ p, 0 ≤ v ∧ v ≤ 2147483647)
    (hm : ∀ v ∈ mn, 0 ≤ v ∧ v ≤ 2147483647) : ∀ v ∈ minUpdate p mn, 0 ≤ v ∧ v ≤ 2147483647 := by
  intro v hv
  simp only [minUpdate] at hv
  obtain ⟨i, hi, rfl⟩ := List.mem_iff_getElem.mp hv
  simp only [List.getElem_zipWith]
  split
  · exact hp _ (List.getElem_mem _)
  · exact hm _ (List.getElem_mem _)

end Sys2Proof.Machine
end

