-- ==== Sys2Proof/Tests/Slice0.lean ====
section
/-! SUPPORT. The model's own tests. Expected values come from spec/95_test_vectors.md (section 3, programs P1 and P2) or
from the rule named; the witnesses at the end show states and operands that meet the hypotheses of each statement. -/

open Sys2Proof Sys2Proof.Machine

/-! ### Well-formedness: what it refuses (95_test_vectors.md 3.1.2: SHAMT has 5 bits) -/

theorem test_asr32_by_32_is_ill_formed : ¬ (Instr.asr32 32).WellFormed := by decide

theorem test_shls32_by_32_is_ill_formed : ¬ (Instr.shls32 32).WellFormed := by decide

theorem test_shift_by_31_is_well_formed : (Instr.asr32 31).WellFormed ∧ (Instr.shls32 31).WellFormed := by decide

/-! ### Decoding: words written out field by field, RSVD SHAMT FUNC OPCODE (30_encoding.md R81 to R84) -/

theorem test_decode_init :
    decode (0b00000000000#11 ++ 0b00000#5 ++ 0b00000000#8 ++ 0b00000001#8) = .ok .init := by decide

theorem test_decode_processHop :
    decode (0b00000000000#11 ++ 0b00000#5 ++ 0b00000000#8 ++ 0b00000010#8) = .ok .processHop := by decide

theorem test_decode_reset :
    decode (0b00000000000#11 ++ 0b00000#5 ++ 0b00000000#8 ++ 0b00000011#8) = .ok .reset := by decide

theorem test_decode_free :
    decode (0b00000000000#11 ++ 0b00000#5 ++ 0b00000000#8 ++ 0b00000100#8) = .ok .free := by decide

theorem test_decode_sat16 :
    decode (0b00000000000#11 ++ 0b00000#5 ++ 0b00000001#8 ++ 0b00010000#8) = .ok .sat16 := by decide

theorem test_decode_sat32 :
    decode (0b00000000000#11 ++ 0b00000#5 ++ 0b00000010#8 ++ 0b00010000#8) = .ok .sat32 := by decide

theorem test_decode_widen :
    decode (0b00000000000#11 ++ 0b00000#5 ++ 0b00000011#8 ++ 0b00010000#8) = .ok .widen := by decide

theorem test_decode_narrow :
    decode (0b00000000000#11 ++ 0b00000#5 ++ 0b00000100#8 ++ 0b00010000#8) = .ok .narrow := by decide

theorem test_decode_mulq15 :
    decode (0b00000000000#11 ++ 0b00000#5 ++ 0b00000101#8 ++ 0b00010000#8) = .ok .mulq15 := by decide

theorem test_decode_mulq31 :
    decode (0b00000000000#11 ++ 0b00000#5 ++ 0b00000110#8 ++ 0b00010000#8) = .ok .mulq31 := by decide

theorem test_decode_mulw :
    decode (0b00000000000#11 ++ 0b00000#5 ++ 0b00000111#8 ++ 0b00010000#8) = .ok .mulw := by decide

theorem test_decode_mac2 :
    decode (0b00000000000#11 ++ 0b00000#5 ++ 0b00001000#8 ++ 0b00010000#8) = .ok .mac2 := by decide

theorem test_decode_msu2 :
    decode (0b00000000000#11 ++ 0b00000#5 ++ 0b00001001#8 ++ 0b00010000#8) = .ok .msu2 := by decide

theorem test_decode_adds32 :
    decode (0b00000000000#11 ++ 0b00000#5 ++ 0b00001010#8 ++ 0b00010000#8) = .ok .adds32 := by decide

theorem test_decode_subs32 :
    decode (0b00000000000#11 ++ 0b00000#5 ++ 0b00001011#8 ++ 0b00010000#8) = .ok .subs32 := by decide

theorem test_decode_negs32 :
    decode (0b00000000000#11 ++ 0b00000#5 ++ 0b00001100#8 ++ 0b00010000#8) = .ok .negs32 := by decide

theorem test_decode_adds16 :
    decode (0b00000000000#11 ++ 0b00000#5 ++ 0b00001101#8 ++ 0b00010000#8) = .ok .adds16 := by decide

theorem test_decode_subs16 :
    decode (0b00000000000#11 ++ 0b00000#5 ++ 0b00001110#8 ++ 0b00010000#8) = .ok .subs16 := by decide

theorem test_decode_asr32 :
    decode (0b00000000000#11 ++ 0b10011#5 ++ 0b00001111#8 ++ 0b00010000#8) = .ok (.asr32 19) := by decide

theorem test_decode_shls32 :
    decode (0b00000000000#11 ++ 0b01010#5 ++ 0b00010000#8 ++ 0b00010000#8) = .ok (.shls32 10) := by decide

theorem test_decode_mulg :
    decode (0b00000000000#11 ++ 0b00000#5 ++ 0b00010001#8 ++ 0b00010000#8) = .ok .mulg := by decide

theorem test_decode_divg :
    decode (0b00000000000#11 ++ 0b00000#5 ++ 0b00010010#8 ++ 0b00010000#8) = .ok .divg := by decide

theorem test_decode_powq31 :
    decode (0b00000000000#11 ++ 0b00000#5 ++ 0b00010011#8 ++ 0b00010000#8) = .ok .powq31 := by decide

/-- The illegal words of 95_test_vectors.md 3.1.2, each rejected by its name. -/
theorem test_decode_illegal :
    decode 0x00000000#32 = .error .unknownOpcode ∧ decode 0x00000005#32 = .error .unknownOpcode ∧
    decode 0x00000010#32 = .error .unknownFunction ∧ decode 0x00001410#32 = .error .unknownFunction ∧
    decode 0x00010110#32 = .error .unusedShamt ∧ decode 0x00200F10#32 = .error .reservedBits ∧
    decode 0x00000101#32 = .error .lifecycleField ∧ decode 0x01000002#32 = .error .reservedBits := by decide

/-- A row's bits decode as the word does (30_encoding.md R80). -/
theorem test_table_word : decodeTableWord 32 0x001F0F10 = some (.asr32 31) := by decide

/-! ### ALU commands: one step from a CMD word (95_test_vectors.md 3.1, 3.1.1) -/

/-- A state after reset with the ALU operands given, as `A_HI A_LO B C D`, and the saturation parameter. -/
def Test.operands (sym : Bool) (ahi alo b c d : Word) : State :=
  { State.reset with
    params := { defaultParams with symSat := sym }
    regs := { resetRegs with aluAHi := ahi, aluALo := alo, aluBLo := b, aluC := c, aluD := d } }

/-- A word run from a state: ALU_R_HI, ALU_R_LO, ALU_FLAGS, STATUS. -/
def Test.alu (w : Nat) (s : State) : Option (Word × Word × Word × Word) :=
  match step (s.withFetchWord 32 w) with
  | .next t => some (t.readReg 0x07C, t.readReg 0x078, t.readReg 0x080, t.readReg 0x004)
  | _ => none

theorem test_sat16_reads_64_bits :
    Test.alu 0x110 (Test.operands false 0x80000000 0 0 0 0) = some (0xFFFFFFFF, 0xFFFF8000, 1, 0) := by decide

theorem test_sat16_symmetric :
    Test.alu 0x110 (Test.operands true 0xFFFFFFFF 0xFFFF8000 0 0 0) = some (0xFFFFFFFF, 0xFFFF8001, 1, 0) := by decide

theorem test_sat32_exact :
    Test.alu 0x210 (Test.operands false 0xFFFFFFFF 0x80000000 0 0 0) = some (0xFFFFFFFF, 0x80000000, 0, 0) := by decide

theorem test_sat32_clamps :
    Test.alu 0x210 (Test.operands false 0 0x80000000 0 0 0) = some (0, 0x7FFFFFFF, 1, 0) := by decide

theorem test_widen_low_half :
    Test.alu 0x310 (Test.operands true 0 0xABCD8000 0 0 0) = some (0xFFFFFFFF, 0x80000000, 0, 0) := by decide

theorem test_narrow_rounds_up_and_clamps :
    Test.alu 0x410 (Test.operands false 0 0x7FFF8000 0 0 0) = some (0, 0x7FFF, 1, 0) := by decide

theorem test_narrow_rounds_half_up :
    Test.alu 0x410 (Test.operands false 0 0xFFFE8000 0 0 0) = some (0xFFFFFFFF, 0xFFFFFFFF, 0, 0) := by decide

theorem test_mulq15_saturates :
    Test.alu 0x510 (Test.operands false 0 0x8000 0x8000 0 0) = some (0, 0x7FFF, 1, 0) := by decide

theorem test_mulq15_floors :
    Test.alu 0x510 (Test.operands false 0 3 0xC000 0 0) = some (0xFFFFFFFF, 0xFFFFFFFE, 0, 0) := by decide

theorem test_mulq31_saturates :
    Test.alu 0x610 (Test.operands false 0 0x80000000 0x80000000 0 0) = some (0, 0x7FFFFFFF, 1, 0) := by decide

theorem test_mulq31_floors :
    Test.alu 0x610 (Test.operands false 0 3 0xC0000000 0 0) = some (0xFFFFFFFF, 0xFFFFFFFE, 0, 0) := by decide

theorem test_mulw_full_product :
    Test.alu 0x710 (Test.operands false 0 0x80000000 0x80000000 0 0) = some (0x40000000, 0, 0, 0) := by decide

theorem test_mulw_sign :
    Test.alu 0x710 (Test.operands false 0 0xFFFFFFFF 1 0 0) = some (0xFFFFFFFF, 0xFFFFFFFF, 0, 0) := by decide

theorem test_mac2_exact_sum :
    Test.alu 0x810 (Test.operands false 0 0x80000000 0x80000000 0x80000000 0x7FFFFFFF) = some (0, 1, 0, 0) := by decide

theorem test_mac2_saturates :
    Test.alu 0x810 (Test.operands false 0 0x80000000 0x80000000 0x80000000 0x80000000) = some (0, 0x7FFFFFFF, 1, 0) := by decide

theorem test_msu2_cancels :
    Test.alu 0x910 (Test.operands false 0 0x80000000 0x80000000 0x80000000 0x80000000) = some (0, 0, 0, 0) := by decide

theorem test_msu2_subtracts :
    Test.alu 0x910 (Test.operands false 0 0x00640000 0x5A82799A 0x00C80000 0x5A82799A) = some (0xFFFFFFFF, 0xFFB94A10, 0, 0) := by decide

theorem test_adds32_saturates :
    Test.alu 0xA10 (Test.operands false 0 0x80000000 0x80000000 0 0) = some (0xFFFFFFFF, 0x80000000, 1, 0) := by decide

theorem test_adds32_mixed_signs :
    Test.alu 0xA10 (Test.operands false 0 0x7FFFFFFF 0x80000000 0 0) = some (0xFFFFFFFF, 0xFFFFFFFF, 0, 0) := by decide

theorem test_subs32_reaches_the_bound :
    Test.alu 0xB10 (Test.operands false 0 0xFFFFFFFF 0x7FFFFFFF 0 0) = some (0xFFFFFFFF, 0x80000000, 0, 0) := by decide

theorem test_subs32_saturates :
    Test.alu 0xB10 (Test.operands false 0 0 0x80000000 0 0) = some (0, 0x7FFFFFFF, 1, 0) := by decide

theorem test_negs32_most_negative :
    Test.alu 0xC10 (Test.operands false 0 0x80000000 0 0 0) = some (0, 0x7FFFFFFF, 1, 0) := by decide

theorem test_negs32_positive :
    Test.alu 0xC10 (Test.operands false 0 0x7FFFFFFF 0 0 0) = some (0xFFFFFFFF, 0x80000001, 0, 0) := by decide

theorem test_adds16_low_halves :
    Test.alu 0xD10 (Test.operands false 0 0x12340005 0xFFFF0003 0 0) = some (0, 8, 0, 0) := by decide

theorem test_adds16_saturates :
    Test.alu 0xD10 (Test.operands false 0 0x8000 0x8000 0 0) = some (0xFFFFFFFF, 0xFFFF8000, 1, 0) := by decide

theorem test_subs16_saturates :
    Test.alu 0xE10 (Test.operands false 0 0x7FFF 0xFFFF 0 0) = some (0, 0x7FFF, 1, 0) := by decide

theorem test_subs16_reaches_the_bound :
    Test.alu 0xE10 (Test.operands false 0 0xFFFF 0x7FFF 0 0) = some (0xFFFFFFFF, 0xFFFF8000, 0, 0) := by decide

theorem test_asr32_by_31 :
    Test.alu 0x1F0F10 (Test.operands false 0 0x80000000 0 0 0) = some (0xFFFFFFFF, 0xFFFFFFFF, 0, 0) := by decide

theorem test_asr32_floors :
    Test.alu 0x20F10 (Test.operands false 0 0xFFFFFFFB 0 0 0) = some (0xFFFFFFFF, 0xFFFFFFFE, 0, 0) := by decide

theorem test_shls32_by_31 :
    Test.alu 0x1F1010 (Test.operands false 0 1 0 0 0) = some (0, 0x7FFFFFFF, 1, 0) := by decide

theorem test_shls32_exact :
    Test.alu 0xF1010 (Test.operands false 0 0xFFFF0000 0 0 0) = some (0xFFFFFFFF, 0x80000000, 0, 0) := by decide

theorem test_mulg_gain_low_half :
    Test.alu 0x1110 (Test.operands false 0 0x3E9 0xFFFF0100 0 0) = some (0, 0x1F4, 0, 0) := by decide

theorem test_mulg_saturates :
    Test.alu 0x1110 (Test.operands false 0 0x80000000 0x201 0 0) = some (0xFFFFFFFF, 0x80000000, 1, 0) := by decide

theorem test_divg_by_zero :
    Test.alu 0x1210 (Test.operands false 0 7 0 0 0) = some (0, 0, 2, 0) := by decide

theorem test_divg_negative_divisor :
    Test.alu 0x1210 (Test.operands false 0 0x80000000 0xFFFFFFFF 0 0) = some (0, 0x7FFF, 1, 0) := by decide

theorem test_powq31_clamps :
    Test.alu 0x1310 (Test.operands false 0 0x5A82799A 0x5A82799A 0 0) = some (0, 0x7FFFFFFF, 1, 0) := by decide

theorem test_powq31_floors_each_square :
    Test.alu 0x1310 (Test.operands false 0 0xB504 0xB505 0 0) = some (0, 1, 0, 0) := by decide

/-! ### Lifecycle (95_test_vectors.md 3.2) -/

/-- The registers of program P2 (41_lifecycle.md R173), with CFG_CTRL, CFG_FRAME, SCRATCH_BASE and SCRATCH_SIZE given. -/
def Test.p2Regs (ctrl : BitVec 6) (frame scr size : Word) : Regs :=
  { resetRegs with
    cfgCtrl := ctrl
    cfgFrame := frame
    cfgChan := 1
    nsMintrack := 1
    winBase := baseBits 0x100
    twcBase := baseBits 0x110
    twsBase := baseBits 0x120
    scratchBase := baseBits scr
    scratchSize := size
    inBase := baseBits 0x300
    outBase := baseBits 0x320 }

/-- The state after reset with given registers. -/
def Test.withRegisters (r : Regs) : State := { State.reset with regs := r }

/-- STATUS after a word run from a state. -/
def Test.status (w : Nat) (s : State) : Option Word :=
  match step (s.withFetchWord 32 w) with
  | .next t => some (t.readReg 0x004)
  | _ => none

/-- Row 1: a valid INIT. -/
theorem test_init_valid :
    Test.status 1 (Test.withRegisters (Test.p2Regs 0x20 0x00020004 0x200 0x1000)) = some 0x00000002 := by decide

/-- Rows 5, 14, 17, 21 and 25: one failure for each code. -/
theorem test_init_failures :
    Test.status 1 (Test.withRegisters (Test.p2Regs 0x20 0x00030008 0x200 0x1000)) = some 0x00000020 ∧
    Test.status 1 (Test.withRegisters (Test.p2Regs 0x22 0x00020004 0x200 0x1000)) = some 0x00000020 ∧
    Test.status 1 (Test.withRegisters (Test.p2Regs 0x21 0x00020004 0x200 51)) = some 0x00000030 ∧
    Test.status 1 (Test.withRegisters (Test.p2Regs 0x20 0x00020004 0xFFDC 0x1000)) = some 0x00000050 ∧
    Test.status 1 (Test.withRegisters (Test.p2Regs 0x20 0x00030008 0 0x1000)) = some 0x00000010 := by decide

/-- RESET and FREE in UNINITIALISED, and FREE in FREED (the transition table). -/
theorem test_reset_uninitialised : Test.status 3 State.reset = some 0x00000040 := by decide

theorem test_free_transitions :
    Test.status 4 State.reset = some 0x00000004 ∧
    Test.status 4 { State.reset with estate := .freed } = some 0x00000044 := by decide

/-- A word without a row completes with code 6 (95_test_vectors.md 3.1.2). -/
theorem test_illegal_word : Test.status 0x00001410 State.reset = some 0x00000060 := by decide

/-! ### A hop (program P2, 95_test_vectors.md 4.2, the row of hop 1) -/

/-- Program P2 before hop 1: the tables, the input 300, 400, and the state window as the row of hop 0 gives it. -/
def Test.beforeHop1 : State :=
  let r := Test.p2Regs 0x20 0x00020004 0x200 40
  { State.reset with
    regs := r
    act := r.latch
    estate := .ready
    win :=
      { postInit with
        dcX := [(0, 13107200)]
        dcY := [(0, 6553600)]
        peX := [(0, 100)]
        buf := [(2, 100), (3, 100)]
        ola := [(0, 99), (1, 50)] }
    dmem := wrI16s (wrI32s (wrI32s (wrI16s [] 0x100 [0, 16384, 32767, 16384]) 0x110 [2147483647, 0]) 0x120
      [0, 2147483647]) 0x300 [300, 400] }

/-- A view of the state after a word. -/
def Test.after {α : Type} (w : Nat) (s : State) (f : State → α) : Option α :=
  match step (s.withFetchWord 32 w) with
  | .next t => some (f t)
  | _ => none

theorem test_hop_output_and_frame :
    Test.after 2 Test.beforeHop1
      (fun t => (rdI16s t.dmem 0x320 2, rdI16s t.dmem 0x200 4, t.readReg 0x004, t.readReg 0x054)) =
      some ([49, 50], [0, 50, 99, 50], 0x00000002, 2) := by decide +kernel

theorem test_hop_spectrum_and_state :
    Test.after 2 Test.beforeHop1
      (fun t => (rdI32s t.dmem 0x208 4, rdI32s t.dmem 0x218 4, t.win)) =
      some ([-4, 3276796, 6488060, 3276796], [0, 0, 0, 0],
        { postInit with
          dcX := [(0, 26214400)]
          dcY := [(0, 6553600)]
          peX := [(0, 100)]
          buf := [(0, 100), (1, 100), (2, 100), (3, 100)]
          ola := [(0, 99), (1, 50)] }) := by decide +kernel

/-- RESET restores the post-init state (program P2, the continuation). -/
theorem test_reset_ready :
    Test.after 3 { Test.beforeHop1 with fftShift := 2 } (fun t => (t.win, t.fftShift, t.readReg 0x004)) =
      some (postInit, 0, 0x00000002) := by decide +kernel

/-! ### The stages of a hop -/

/-- DC-1, the row that saturates (95_test_vectors.md 3.3). -/
theorem test_dc_saturates_once :
    dcStep false 0x40000000 ⟨2147418112, 2147418112, 0⟩ (-32768) = (-32768, ⟨-2147483648, -2147483648, 0⟩) := by decide

/-- PE-1, the third row. -/
theorem test_pe_floors : peStep false 31785 ⟨0, 0, 1000⟩ (-1000) = (-1971, ⟨0, 0, -1000⟩) := by decide

/-- The vector impulse1 (95_test_vectors.md 3.5) with its twiddle tables: the sign of the kernel. -/
theorem test_transform_impulse :
    transform false false [2147483647, 1518500250, 0, -1518500250] [0, 1518500250, 2147483647, 1518500250] 3
      (loadFrame [0, 16384, 0, 0, 0, 0, 0, 0]) =
      [(134217727, 0), (94906265, -94906266), (0, -134217728), (-94906266, -94906266), (-134217727, 0),
        (-94906265, 94906266), (0, 134217728), (94906266, 94906266)] := by decide +kernel

/-- NS-1, hop 0 from its powers: the estimates, the minima and the gains (95_test_vectors.md 3.6). -/
theorem test_suppressor_gains :
    List.zipWith (estUpdate (rateShift true)) [0, 343292, 3999498, 19656206, 31999999] [0, 0, 0, 0, 0] =
      [0, 10727, 124984, 614256, 999999] ∧
    List.zipWith (binGain false ⟨512, 0, 2⟩) [0, 343292, 3999498, 19656206, 31999999]
      [0, 10727, 124984, 614256, 999999] = [0, 496, 496, 496, 496] := by decide

/-- The suppressor example, hop 1 (45_noise_suppressor.md R277): speech-like, the tracker reset, the total, the gains. -/
theorem test_suppressor_step :
    (fun o : NsOut => (o.ns, o.gain))
      (nsStep false ⟨512, 0, 2⟩ 3 ⟨[2775, 1537, 300], [86, 48, 9], 143, 1⟩
        (transform false false [2147483647, 0] [0, 2147483647] 2 (loadFrame [0, 50, 99, 50]))) =
      (⟨[2147483647, 2147483647, 2147483647], [170, 84, 9], 263, 0⟩, [494, 476, 0]) := by decide +kernel

/-- OLA-3 and OLA-4: the normalisation floors; the output is clamped, the accumulator is not. -/
theorem test_ola :
    olaStep false 2 1 [0, 0, 0, 0] [-3, -3, -3, -3] = ([-2, -2], [-3, -3, 0, 0]) ∧
    olaStep false 2 0 [32767, 32767, 0, 0] [32767, 32767, 32767, 32767] =
      ([32767, 32767], [32767, 32767, 0, 0]) := by decide

/-- The channel combination truncates toward zero. -/
theorem test_combine : combine 2 2 [[3, -3], [-4, -4]] = [0, -3] := by decide

/-! ### The bus (95_test_vectors.md 3.8) -/

/-- The data and the error bit of a read at an address. -/
def Test.readAt (addr : Nat) (size : AccessSize) (s : State) : Option BusResp := (busRead addr size s).resp

/-- M1 to M3: little-endian. -/
theorem test_dmem_byte_order :
    Test.readAt 0x100400 .half (busWrite 0x100400 .word 0x11223344 State.reset) = some ⟨false, 0x3344⟩ ∧
    Test.readAt 0x100402 .half (busWrite 0x100400 .word 0x11223344 State.reset) = some ⟨false, 0x1122⟩ ∧
    Test.readAt 0x100403 .byte (busWrite 0x100400 .word 0x11223344 State.reset) = some ⟨false, 0x11⟩ := by decide

/-- M4, M5 and M6: bus errors; M7: beyond DMEM. -/
theorem test_bus_errors :
    Test.readAt 0x004 .half State.reset = some ⟨true, 0⟩ ∧ (busWrite 0x008 .half 1 State.reset).run = none ∧
    Test.readAt 0x100402 .word State.reset = some ⟨true, 0⟩ ∧
    Test.readAt 0x110000 .word State.reset = some ⟨false, 0⟩ := by decide

/-- STATE_BYTES of the default parameters, and the post-init MIN[0] at offset 24672 (3.2, 3.8). -/
theorem test_state_window :
    Test.readAt 0x04C .word State.reset = some ⟨false, 41088⟩ ∧
    Test.readAt (0x080000 + 24672) .word State.reset = some ⟨false, 0x7FFFFFFF⟩ ∧
    Test.readAt (0x080000 + 41088) .word State.reset = some ⟨false, 0⟩ := by decide

/-- M11b and M12: OVR is cleared by writing 1; reserved bits read 0. -/
theorem test_register_writes :
    (State.writeReg 0x004 0x100 { State.reset with ovr := true, estate := .ready }).readReg 0x004 = 0x00000002 ∧
    (State.writeReg 0x014 0xFFFFFF03 State.reset).readReg 0x014 = 0x00000003 := by decide

/-! ### Witnesses: states and operands that meet the hypotheses of the statements -/

/-- A state with a running command: the word, what is left of its duration, the race mark, the host's operations. -/
def Test.running (w : Word) (left : Nat) (raced : Bool) (host : List HostOp) (s : State) : State :=
  { s with run := some { word := w, snap := s.regs, raced := raced, left := left }, host := host }

/-- Program P2 before its INIT. -/
def Test.beforeInit : State := Test.withRegisters (Test.p2Regs 0x20 0x00020004 0x200 40)

/-- Program P2's engine, with noise suppression, on a stream of zeros. -/
def Test.silent : State :=
  let r := Test.p2Regs 0x21 0x00020004 0x200 0x1000
  { State.reset with regs := r, act := r.latch, estate := .ready, win := { postInit with min := [(0, 0)] } }

/-- Illegal words, one or two of each kind (30_encoding.md R87). -/
def Test.illegalWords : List Word :=
  [0x00200F10, 0x80000001, 0x00000101, 0x00010004, 0x00000010, 0x00001410, 0x0000FF10, 0x00010E10, 0x00011110,
    0x00000000, 0x00000005, 0x0000000F, 0x00000011, 0x000000FF]

theorem Test.illegalWords_no_shift :
    Test.illegalWords.all (fun w => !(decide (opcodeOf w = 0x10) && decide (funcOf w = 0x0F ∨ funcOf w = 0x10) &&
      decide (rsvdOf w = 0))) = true := by decide

/-- IllegalWordOnlyReports: each kind of illegal word is no encoding, and the engine's turn comes. -/
theorem witness_IllegalWordOnlyReports :
    (∀ w ∈ Test.illegalWords, ∀ i : Instr, i.WellFormed → encode i ≠ w) ∧
    (Test.running 0x00001410 0 false [] State.reset).engineTurn ⟨0x00001410, resetRegs, false, 0⟩ := by
  refine ⟨fun w hw i hi => ?_, by decide⟩
  cases i with
  | asr32 n =>
    rintro rfl
    obtain ⟨h1, h2, -, h4⟩ := Laws.shiftWord_fields 0x0F n (.inl rfl) hi
    have := List.all_eq_true.mp Test.illegalWords_no_shift _ hw
    simp [encode, h1, h2, h4] at this
  | shls32 n =>
    rintro rfl
    obtain ⟨h1, h2, -, h4⟩ := Laws.shiftWord_fields 0x10 n (.inr rfl) hi
    have := List.all_eq_true.mp Test.illegalWords_no_shift _ hw
    simp [encode, h1, h2, h4] at this
  | _ => rintro rfl; exact absurd hw (by decide)

/-- StepRunsTheHeldCommand and RunningCommandSeesItsSnapshot: the three ways the engine's turn comes. -/
theorem witness_StepRunsTheHeldCommand :
    (Test.running 0x110 0 false [.por] State.reset).engineTurn ⟨0x110, resetRegs, false, 0⟩ ∧
    (Test.running 0x110 7 false [] State.reset).engineTurn ⟨0x110, resetRegs, false, 7⟩ ∧
    (Test.running 0x110 7 false [.wait] State.reset).engineTurn ⟨0x110, resetRegs, false, 7⟩ ∧
    decode 0x110 = .ok .sat16 := by decide

theorem witness_RunningCommandSeesItsSnapshot :
    (Test.running 0x410 0 false [] Test.beforeInit).engineTurn ⟨0x410, Test.beforeInit.regs, false, 0⟩ ∧
    Test.beforeInit.regs ≠ resetRegs := by decide

/-- HostOperationIsOneStep: each clause, the second with the least duration that is not over. -/
theorem witness_HostOperationIsOneStep :
    (∃ s : State, s.run = none ∧ s.host = [.wait, .por]) ∧
    (∃ (s : State) (r : Running), s.run = some r ∧ r.left = 1 ∧ s.host = [.read 4 .word] ∧
      HostOp.read 4 .word ≠ .wait) ∧
    (State.reset.run = none ∧ State.reset.host = []) ∧
    (0x1FFFFF < State.reset.params.blockBase + 0x200000 ∧ State.reset.params.blockBase + 0x200000 ≤ 0x200000) :=
  ⟨⟨{ State.reset with host := [.wait, .por] }, rfl, rfl⟩,
   ⟨Test.running 0x110 1 false [.read 4 .word] State.reset, _, rfl, rfl, rfl, by decide⟩, ⟨rfl, rfl⟩, by decide⟩

/-- StepKeepsInvariant and StepNeverStops: a READY engine about to run RESET, or a hop, meets the invariant. -/
theorem witness_StepKeepsInvariant :
    (Test.running 3 0 false [] Test.beforeHop1).Inv ∧ ∃ t, step (Test.running 3 0 false [] Test.beforeHop1) = .next t :=
  ⟨⟨by decide, by decide, by decide, by decide⟩, _, rfl⟩

theorem witness_StepNeverStops : (Test.running 2 3 true [.por] Test.beforeHop1).Inv :=
  ⟨by decide, by decide, by decide, by decide⟩

/-- FailedCommandOnlyReports: a RESET of an engine that is not initialised. -/
theorem witness_FailedCommandOnlyReports :
    ∃ t, exec .reset State.reset = .next t ∧ t.lastStatus ≠ .ok := ⟨_, rfl, by decide⟩

theorem witness_CommandsKeepHostState : ∃ t, exec .mulw Test.beforeHop1 = .next t := ⟨_, rfl⟩

theorem witness_PersistentStateWriters :
    ∃ t, exec .reset Test.beforeHop1 = .next t ∧ t.win ≠ Test.beforeHop1.win := ⟨_, rfl, by decide⟩

/-- EngineStateWriters: INIT changes ACT and ESTATE, FREE changes ESTATE, RESET changes FFT_SHIFT. -/
theorem witness_EngineStateWriters :
    (∃ t, exec .init Test.beforeInit = .next t ∧ t.act ≠ Test.beforeInit.act ∧
      t.estate ≠ Test.beforeInit.estate) ∧
    (∃ t, exec .free State.reset = .next t ∧ t.estate ≠ State.reset.estate) ∧
    (∃ t, exec .reset { Test.beforeHop1 with fftShift := 2 } = .next t ∧ t.fftShift ≠ 2) :=
  ⟨⟨_, rfl, by decide, by decide⟩, ⟨_, rfl, by decide⟩, ⟨_, rfl, by decide⟩⟩

theorem witness_AluAndDmemWriters :
    (∃ t, exec .free Test.beforeHop1 = .next t) ∧ .free ∈ engineCommands ∧
    (∃ t, exec .sat16 Test.beforeHop1 = .next t) ∧ Instr.sat16 ≠ .processHop :=
  ⟨⟨_, rfl⟩, by decide, ⟨_, rfl⟩, by decide⟩

theorem witness_CommandsReportTheirCodes :
    ∃ t, exec .init { State.reset with estate := .freed } = .next t := ⟨_, rfl⟩

/-- FreedIsTerminal: each clause, the last by a power-on reset. -/
theorem witness_FreedIsTerminal :
    (Instr.init ∈ engineCommands ∧ Instr.free ∈ engineCommands) ∧ Instr.adds16 ∉ engineCommands ∧
    ∃ t, step { State.reset with estate := .freed, host := [.por] } = .next t ∧ t.estate ≠ .freed :=
  ⟨by decide, by decide, _, rfl, by decide⟩

/-- InitFollowsItsChecks: the registers of one state for each case. SCRATCH_BYTES is 40 with noise suppression off. -/
theorem witness_InitFollowsItsChecks :
    (Test.beforeInit.estate ≠ .freed ∧ ConfigValid Test.beforeInit ∧ TablesPlaced Test.beforeInit ∧
      Test.beforeInit.scratchNeed = (Test.beforeInit.readReg 0x040).toNat) ∧
    (ConfigValid (Test.withRegisters (Test.p2Regs 0x20 0x00020004 0x200 39)) ∧
      (Test.withRegisters (Test.p2Regs 0x20 0x00020004 0x200 39)).scratchNeed = 40) ∧
    ¬ ConfigValid (Test.withRegisters (Test.p2Regs 0x20 0x00040004 0x200 40)) ∧
    (ConfigValid (Test.withRegisters (Test.p2Regs 0x20 0x00020004 0xFFDC 40)) ∧
      ¬ TablesPlaced (Test.withRegisters (Test.p2Regs 0x20 0x00020004 0xFFDC 40))) ∧
    (Test.withRegisters (Test.p2Regs 0x20 0x00020004 3 40)).readReg 0x03C = 0 ∧
    (Test.beforeInit.readReg 0x030 ≠ 0 ∧ Test.beforeInit.readReg 0x034 ≠ 0 ∧ Test.beforeInit.readReg 0x038 ≠ 0 ∧
      Test.beforeInit.readReg 0x03C ≠ 0) := by
  simp only [← validConfig_iff, ← initRegionsOk_iff]
  decide

theorem witness_ValidHopIsPowerOfTwo : Test.beforeInit.params.Legal ∧ ConfigValid Test.beforeInit :=
  ⟨by decide, (validConfig_iff _).mp (by decide)⟩

theorem witness_PostInitWindowBytes :
    (∃ t, exec .init Test.beforeInit = .next t ∧ t.lastStatus = .ok) ∧
    (∃ t, exec .reset Test.beforeHop1 = .next t ∧ t.lastStatus = .ok) := ⟨⟨_, rfl, by decide⟩, ⟨_, rfl, by decide⟩⟩

theorem witness_ResetRestoresPostInit : Test.beforeHop1.estate = .ready ∧ State.reset.estate ≠ .ready := by decide

theorem witness_FreeOnlyChangesEngineState :
    State.reset.estate ≠ .freed ∧ ({ State.reset with estate := .freed } : State).estate = .freed := by decide

/-- The hop of program P2 passes its checks. -/
theorem Test.beforeHop1_ready : HopReady Test.beforeHop1 := (hopReady_iff _).mpr (by decide)

theorem Test.silent_ready : HopReady Test.silent := (hopReady_iff _).mpr (by decide)

/-- The hop of program P2 with another OUT_BASE. -/
def Test.hopTo (out : Word) : State :=
  { Test.beforeHop1 with regs := { Test.beforeHop1.regs with outBase := baseBits out } }

/-- HopFailuresReport: an engine that is not READY, a null base, and an OUT at the first or last word of SCR, and beside it. -/
theorem witness_HopFailuresReport :
    State.reset.estate ≠ .ready ∧ (Test.hopTo 3).readReg 0x048 = 0 ∧ (Test.hopTo 0x200).readReg 0x044 ≠ 0 ∧
    (Test.hopTo 0x200).readReg 0x048 ≠ 0 ∧ (Test.hopTo 0x200).estate = .ready ∧
    ¬ HopPlaced (Test.hopTo 0x200) ∧ HopPlaced (Test.hopTo 0x1FC) ∧ ¬ HopPlaced (Test.hopTo 0x224) ∧
    HopPlaced (Test.hopTo 0x228) := by
  simp only [← hopRegionsOk_iff]
  decide

/-- HopCompletesWithinItsRegions, HopRunsChannelsIndependently and ScratchAfterHop. -/
theorem witness_HopCompletesWithinItsRegions :
    Test.beforeHop1.Inv ∧ HopReady Test.beforeHop1 ∧ Test.beforeHop1.raced = false :=
  ⟨⟨by decide, by decide, by decide, by decide⟩, Test.beforeHop1_ready, by decide⟩

theorem witness_HopRunsChannelsIndependently :
    Test.beforeHop1.Inv ∧ HopReady Test.beforeHop1 ∧ Test.beforeHop1.raced = false ∧
    (∃ t, exec .processHop Test.beforeHop1 = .next t) ∧ 1 < Test.beforeHop1.act.H ∧ 0 < Test.beforeHop1.act.C ∧
    (Test.beforeHop1.act.nsEn = false ∧ Test.silent.act.nsEn = true) ∧
    (∀ n, n < Test.beforeHop1.act.F →
      -(2 ^ 31) + 32768 ≤ (sparseGet 0 Test.beforeHop1.win.ola n).toInt ∧
        (sparseGet 0 Test.beforeHop1.win.ola n).toInt < 2 ^ 31 - 32768) :=
  ⟨⟨by decide, by decide, by decide, by decide⟩, Test.beforeHop1_ready, by decide,
   ⟨_, execProcessHop_ready _ Test.beforeHop1_ready (by decide)⟩, by decide, by decide, by decide, by decide⟩

theorem witness_ScratchAfterHop :
    Test.silent.Inv ∧ HopReady Test.silent ∧ Test.silent.raced = false ∧
    (∃ t, exec .processHop Test.silent = .next t) ∧ Test.silent.act.nsEn = true ∧ 0 < Test.silent.act.C :=
  ⟨⟨by decide, by decide, by decide, by decide⟩, Test.silent_ready, by decide,
   ⟨_, execProcessHop_ready _ Test.silent_ready (by decide)⟩, by decide, by decide⟩

theorem witness_RacedHopStaysInItsRegions :
    (Test.running 2 0 true [] Test.beforeHop1).Inv ∧ HopReady (Test.running 2 0 true [] Test.beforeHop1) ∧
    (Test.running 2 0 true [] Test.beforeHop1).raced = true :=
  ⟨⟨by decide, by decide, by decide, by decide⟩, (hopReady_iff _).mpr (by decide), by decide⟩

/-- SuppressorOffTouchesNothing: a hop, and one the host has raced. -/
theorem witness_SuppressorOffTouchesNothing :
    (Test.beforeHop1.act.nsEn = false ∧ ∃ t, exec .processHop Test.beforeHop1 = .next t) ∧
    ((Test.running 2 0 true [] Test.beforeHop1).raced = true ∧
      ∃ t, exec .processHop (Test.running 2 0 true [] Test.beforeHop1) = .next t) :=
  ⟨⟨by decide, _, execProcessHop_ready _ Test.beforeHop1_ready (by decide)⟩,
   by decide, _, execProcessHop_ready _ ((hopReady_iff _).mpr (by decide)) (by decide)⟩

/-- SilenceStaysSilent: the stream of zeros, with a minimum that is not MAXPOW. -/
theorem witness_SilenceStaysSilent :
    Test.silent.Inv ∧ HopReady Test.silent ∧ Test.silent.raced = false ∧ Silent Test.silent.win ∧
    (∀ j, j < Test.silent.act.C * Test.silent.act.H →
      rdI16 Test.silent.dmem ((Test.silent.readReg 0x044).toNat + 2 * j) = 0) ∧
    (∃ t, exec .processHop Test.silent = .next t) ∧ Test.silent.act.nsEn = true :=
  ⟨⟨by decide, by decide, by decide, by decide⟩, Test.silent_ready, by decide,
   ⟨rfl, rfl, rfl, rfl, rfl, rfl, rfl⟩, by decide, ⟨_, execProcessHop_ready _ Test.silent_ready (by decide)⟩,
   by decide⟩

/-- DcRemovalConverges: both signs of the input, and the largest coefficient of the last clause. -/
theorem witness_DcRemovalConverges :
    ((0 : Int) < 2 ^ 31 - 2 ^ 16 ∧ (2 ^ 31 - 2 ^ 16 : Int) < 2 ^ 31) ∧ ((-32768 : Int) ≤ -1 ∧ (-1 : Int) < 0) ∧
    ((0 : Int) ≤ 0 ∧ (0 : Int) ≤ 32767) := by decide

theorem witness_BufferHoldsTheStream :
    (loadChan defaultParams Test.beforeHop1.act Test.beforeHop1.win 0).buf.length = Test.beforeHop1.act.F ∧
    Test.beforeHop1.act.H ≤ Test.beforeHop1.act.F ∧
    ∀ xs ∈ [[300, 400], [-1, -2]], xs.length = Test.beforeHop1.act.H := by decide

theorem witness_BitReversalPermutes : (List.replicate 8 ((1, 2) : Cx)).length = 2 ^ 3 ∧ 7 < 2 ^ 3 ∧ 2 < 3 := by decide

theorem witness_StageIsSimultaneous :
    (List.replicate 8 ((1, 2) : Cx)).length = 2 ^ 3 ∧ 1 ≤ 3 ∧ 3 ≤ 3 ∧ 7 < 2 ^ 3 := by decide

theorem witness_HermitianRebuildMirrors :
    2 ≤ 8 ∧ 8 % 2 = 0 ∧ (List.replicate 8 ((1, 2) : Cx)).length = 8 ∧ 5 < 8 := by decide

theorem witness_EstimateStaysInRange : 0 ≤ maxPow ∧ maxPow ≤ maxPow ∧ (0 : Int) ≤ 0 ∧ 0 ≤ maxPow := by decide

/-- GainAtMostUnity: a power at the floor, one above it. -/
theorem witness_GainAtMostUnity :
    0 ≤ (⟨512, 7, 2⟩ : NsCfg).floor ∧ 0 ≤ (⟨512, 7, 2⟩ : NsCfg).oversub ∧ (0 : Int) ≤ 3 ∧
    (7 ≤ (⟨512, 7, 2⟩ : NsCfg).floor) ∧ (⟨512, 7, 2⟩ : NsCfg).floor < 8 := by decide

/-- TrackerResetsEveryMintrackHops: one step over fewer bins than the buffers hold, the counter at its bound; two hops. -/
theorem witness_TrackerResetsEveryMintrackHops :
    (1 ≤ 2 ∧ 2 ≤ [(5, -7), (3, 4), ((1, 2) : Cx)].length ∧ [0, 9].length = 2 ∧ [8, 0].length = 2 ∧
      (⟨[0, 9], [8, 0], 3, 65535⟩ : Ns).cnt ≤ 65535 ∧ 0 ≤ (⟨512, 0, 2⟩ : NsCfg).floor) ∧
    1 ≤ (⟨512, 0, 2⟩ : NsCfg).mintrack ∧ (⟨512, 0, 65535⟩ : NsCfg).mintrack ≤ 65535 ∧
    (⟨[0, 0], [0, 0], 0, 0⟩ : Ns).cnt = 0 ∧
    [[(0, 0)], [(0, 0)]] ≠ ([] : List (List Cx)) ∧ [[(0, 0)], [((0, 0) : Cx)]].length % 2 = 0 := by decide

theorem witness_ConstantFramesReproduced :
    defaultParams.Legal ∧
    frameOk defaultParams Test.beforeHop1.act.F Test.beforeHop1.act.H Test.beforeHop1.act.C = true ∧
    (if defaultParams.symSat then (-32767 : Int) else -32768) ≤ -32768 ∧ Test.beforeHop1.act.R ≤ 1 + 1 :=
  ⟨by decide, by decide, by decide, by decide⟩

theorem witness_CombinationFitsInt16 :
    [[32767, -32768], [-32768, 0]] ≠ ([] : List (List Int)) ∧
    [[32767, -32768], [(-32768 : Int), 0]].length ≤ 255 ∧
    (∀ o ∈ [[32767, -32768], [(-32768 : Int), 0]], o.length = 2 ∧ ∀ v ∈ o, -32768 ≤ v ∧ v ≤ 32767) := by decide

theorem witness_ShiftCommands : 0 ≤ 31 ∧ 31 ≤ 31 := by decide

theorem witness_ConvertCommands : State.reset.params.symSat = false := by decide

theorem witness_MultiplyCommands : Test.beforeHop1.params.symSat = false := by decide

/-- GainCommands: a divisor 0, a positive one, a negative one. -/
theorem witness_GainCommands :
    State.reset.regs.aluBLo = 0 ∧
    ((Test.operands false 0 7 2 0 0).regs.aluBLo ≠ 0 ∧ 0 < (Test.operands false 0 7 2 0 0).regs.aluBLo.toInt) ∧
    ((Test.operands false 0 7 0xFFFFFFFF 0 0).regs.aluBLo ≠ 0 ∧
      (Test.operands false 0 7 0xFFFFFFFF 0 0).regs.aluBLo.toInt < 0) := by decide

theorem witness_FormatRoundTrips :
    ((-32768 : Int) ≤ -32768 ∧ (-32768 : Int) ≤ 32767) ∧
    (-(2 ^ 31) ≤ (0x7FFF7FFF : Int) ∧ (0x7FFF7FFF : Int) < 0x7FFF8000) := by decide

theorem witness_CmdWriteStartsOrOverruns :
    State.reset.run = none ∧ (Test.running 2 0 false [] State.reset).run ≠ none := by decide

/-- IllegalAccessIsBusError: a window and an access it does not take, for each window; the last offset of each window. -/
theorem witness_IllegalAccessIsBusError :
    (busTarget defaultParams 0x004 = some (.register 4) ∧ accessLegal (.register 4) .half = false) ∧
    (busTarget defaultParams 0x080001 = some (.stateWindow 1) ∧ accessLegal (.stateWindow 1) .half = false) ∧
    (busTarget defaultParams 0x1FFFFE = some (.dmem 0xFFFFE) ∧ accessLegal (.dmem 0xFFFFE) .word = false) ∧
    (0x07FFFC < 0x080000 ∧ 0x07FFFC % 4 = 0) ∧ 0x080000 % AccessSize.half.bytes = 0 ∧
    (0x1FFFFF < 0x200000 ∧ 0x1FFFFF % AccessSize.byte.bytes = 0) := by decide

theorem witness_ReservedBitsReadZero : definedBits 0x058 = 0 ∧ definedBits 0x084 = 0 := by decide

theorem witness_RegisterWriteReadsBack :
    0x00C ∈ readWriteOffsets ∧ 0x074 ∈ readWriteOffsets ∧ (0x010 ≠ 0x00C ∧ 0x010 ≠ 0x050) ∧
    (0x000 ∈ readOnlyOffsets ∧ 0x080 ∈ readOnlyOffsets) ∧ 0x07FFFC < 0x080000 ∧ 0x07FFFC % 4 = 0 ∧
    State.reset.run = none := by decide

theorem witness_SizingRegistersAreExact : State.reset.params.Legal := by decide

/-- DmemWordReadsBack: the last word and the last byte of DMEM, the parts of a word, and a byte on each side of it. -/
theorem witness_DmemWordReadsBack :
    State.reset.Inv ∧ State.reset.run = none ∧
    (65532 % AccessSize.word.bytes = 0 ∧ 65532 + AccessSize.word.bytes ≤ State.reset.params.dmemBytes) ∧
    (65535 % AccessSize.byte.bytes = 0 ∧ 65535 + AccessSize.byte.bytes ≤ State.reset.params.dmemBytes) ∧
    ((65532 + 2) % AccessSize.half.bytes = 0 ∧ 2 + AccessSize.half.bytes ≤ AccessSize.word.bytes ∧
      3 + AccessSize.byte.bytes ≤ AccessSize.word.bytes) ∧
    (65531 < 65532 ∨ 65532 + AccessSize.word.bytes ≤ 65531) :=
  ⟨⟨by decide, by decide, by decide, by decide⟩, by decide, by decide, by decide, by decide, by decide⟩

/-- WindowReadsItsElements: the last element of each array, and the last word of the window. -/
theorem witness_WindowReadsItsElements :
    (0x07FFFC % AccessSize.word.bytes = 0 ∧ 0x07FFFC < 0x080000) ∧
    State.reset.params.Legal ∧ State.reset.run = none ∧ 3 < State.reset.params.maxChannels ∧
    4095 < State.reset.params.maxChannels * State.reset.params.maxFrameLen ∧
    2051 < State.reset.params.maxChannels * (State.reset.params.maxFrameLen / 2 + 1) := by decide

/-- BeyondTheWindowsReadsZero: the first and last offset of each clause, with a hop running too. -/
theorem witness_BeyondTheWindowsReadsZero :
    State.reset.params.Legal ∧ (Test.running 2 5 false [] Test.beforeHop1).params.Legal ∧
    (41088 % AccessSize.word.bytes = 0 ∧
      State.reset.params.maxChannels * (24 + 6 * State.reset.params.maxFrameLen +
        8 * (State.reset.params.maxFrameLen / 2 + 1)) ≤ 41088 ∧ 0x07FFFF < 0x080000) ∧
    State.reset.params.dmemBytes ≤ 65536 ∧ 0x0FFFFF < 0x100000 ∧ 0x0FFFFF % AccessSize.byte.bytes = 0 := by decide

/-- Program P2's hop with its checks passed, running. -/
def Test.hopRunning : Running := ⟨2, Test.beforeHop1.regs, false, 5⟩

theorem Test.hopRunning_runs : RunsHop (Test.running 2 5 false [] Test.beforeHop1) Test.hopRunning :=
  ⟨by decide, (hopReady_iff _).mpr (by decide)⟩

/-- ReadsWhileBusy: a running hop and the bytes before OUT, which it does not write; a running ALU command. -/
theorem witness_ReadsWhileBusy :
    Test.beforeHop1.params.Legal ∧
    (Test.running 2 5 false [] Test.beforeHop1).run = some Test.hopRunning ∧
    RunsHop (Test.running 2 5 false [] Test.beforeHop1) Test.hopRunning ∧
    (∀ k, k < AccessSize.half.bytes →
      ¬ HopWrites (State.withSnapshot Test.hopRunning (Test.running 2 5 false [] Test.beforeHop1)) (0x31E + k)) ∧
    HopWrites (State.withSnapshot Test.hopRunning (Test.running 2 5 false [] Test.beforeHop1)) 0x320 ∧
    (Test.running 0x110 5 false [] Test.beforeHop1).run = some ⟨0x110, Test.beforeHop1.regs, false, 5⟩ ∧
    ¬ RunsHop (Test.running 0x110 5 false [] Test.beforeHop1) ⟨0x110, Test.beforeHop1.regs, false, 5⟩ :=
  ⟨by decide, by decide, Test.hopRunning_runs, by simp only [hopWrites_iff]; decide,
   by simp only [hopWrites_iff]; decide, by decide, fun h => absurd h.1 (by decide)⟩

/-- WriteIntoRunningHopRaces: a running hop, a word that holds the last bytes of IN, and the word after it, which lies in
no region; a running ALU command. -/
theorem witness_WriteIntoRunningHopRaces :
    (Test.running 2 5 false [] Test.beforeHop1).Inv ∧
    (Test.running 2 5 false [] Test.beforeHop1).run = some Test.hopRunning ∧
    (RunsHop (Test.running 2 5 false [] Test.beforeHop1) Test.hopRunning ∧
      ∃ k, k < AccessSize.word.bytes ∧
        HopUses (State.withSnapshot Test.hopRunning (Test.running 2 5 false [] Test.beforeHop1)) (0x300 + k)) ∧
    ¬ (RunsHop (Test.running 2 5 false [] Test.beforeHop1) Test.hopRunning ∧
      ∃ k, k < AccessSize.word.bytes ∧
        HopUses (State.withSnapshot Test.hopRunning (Test.running 2 5 false [] Test.beforeHop1)) (0x304 + k)) ∧
    (Test.running 0x110 5 false [] Test.beforeHop1).Inv ∧ 65532 + AccessSize.word.bytes ≤ Test.beforeHop1.params.dmemBytes :=
  ⟨⟨by decide, by decide, by decide, by decide⟩, by decide,
   ⟨Test.hopRunning_runs, 3, by decide, by simp only [hopUses_iff]; decide⟩,
   fun h => absurd h.2 (by simp only [hopUses_iff]; decide), ⟨by decide, by decide, by decide, by decide⟩, by decide⟩

/-- R60: beyond STATE_BYTES a host reads 0 while a command runs too, and STATUS shows BUSY and the READY engine. -/
theorem test_busy_reads :
    Test.readAt (0x080000 + 41088) .word (Test.running 2 5 false [] Test.beforeHop1) = some ⟨false, 0⟩ ∧
    Test.readAt 0x004 .word (Test.running 2 5 false [] Test.beforeHop1) = some ⟨false, 3⟩ := by decide

/-- Pending host operations are bus accesses: an ALU operand written at its offset reads back, a command starts, a wait
reads STATUS (10_state.md R47, 30_encoding.md R91). -/
theorem test_host_operations :
    (hostOp (.write 0x060 .word 7) State.reset).regs.aluALo = 7 ∧
    (hostOp (.write 0x06C .word 7) State.reset).regs.aluBHi = 7 ∧
    (hostOp (.read 0x00C .word) State.reset).resp = some ⟨false, 0x20⟩ ∧
    (hostOp .wait State.reset).resp = some ⟨false, 0⟩ := by decide
end

section
/-! PROOFS. What a command leaves of the host's side of the state (00_scope.md R12, 70_reset_and_hazards.md R345). -/

namespace Sys2Proof.Machine

/-- `t` has the parameters, the host's registers, OVR, the host's pending operations and the last response of `s`, and
no command runs in it. -/
def HostSideKept (s t : State) : Prop :=
  t.regs = s.regs ∧ t.params = s.params ∧ t.ovr = s.ovr ∧ t.host = s.host ∧ t.resp = s.resp ∧ t.run = none

theorem finish_hostSideKept (c : StatusCode) (s : State) : HostSideKept s (s.finish c) := by
  simp [HostSideKept]

theorem aluResult_hostSideKept (r : Int) (sat dz : Bool) (s t : State) (h : aluResult r sat dz s = .next t) :
    HostSideKept s t := by
  cases h
  simp [HostSideKept]

theorem execInit_hostSideKept (s t : State) (h : execInit s = .next t) : HostSideKept s t := by
  obtain ⟨c, -, rfl⟩ | ⟨-, -, -, -, -, rfl⟩ := execInit_cases s t h
  · exact finish_hostSideKept c s
  · simp [HostSideKept, initEffect]

theorem execReset_hostSideKept (s t : State) (h : execReset s = .next t) : HostSideKept s t := by
  obtain ⟨-, rfl⟩ | ⟨-, rfl⟩ := execReset_cases s t h
  · exact finish_hostSideKept _ s
  · simp [HostSideKept]

theorem execFree_hostSideKept (s t : State) (h : execFree s = .next t) : HostSideKept s t := by
  obtain ⟨-, rfl⟩ | ⟨-, rfl⟩ := execFree_cases s t h
  · exact finish_hostSideKept _ s
  · simp [HostSideKept]

/-- A raced hop and an unraced one both end in `finish` on a state of the same host side. -/
theorem execProcessHop_hostSideKept (s t : State) (h : execProcessHop s = .next t) : HostSideKept s t := by
  obtain ⟨c, -, rfl⟩ | ⟨-, -, ⟨-, rfl⟩ | ⟨-, rfl⟩⟩ := execProcessHop_cases s t h
  · exact finish_hostSideKept c s
  · simp [HostSideKept, hopRaced]
  · simp [HostSideKept, hopEffect]

/-- The engine commands one by one; every other command is one ALU write-back. -/
theorem exec_hostSideKept (i : Instr) (s t : State) (h : exec i s = .next t) : HostSideKept s t := by
  by_cases hi : i ∈ engineCommands
  · simp only [engineCommands, List.mem_cons, List.not_mem_nil, or_false] at hi
    obtain rfl | rfl | rfl | rfl := hi
    · exact execInit_hostSideKept s t h
    · exact execProcessHop_hostSideKept s t h
    · exact execReset_hostSideKept s t h
    · exact execFree_hostSideKept s t h
  · obtain ⟨r, sat, dz, he⟩ := exec_alu i hi s
    exact aluResult_hostSideKept r sat dz s t (he ▸ h)

/-- Settles O11: what each command leaves of the host's side, by the cases of exec. -/
theorem commandsKeepHostState : Obligations.CommandsKeepHostState :=
  fun i s t h => exec_hostSideKept i s t h

end Sys2Proof.Machine
end

section
/-! PROOFS. Valid configurations in powers of two (41_lifecycle.md R167), and the latched configuration's shorthands
over them (00_scope.md R15). -/

namespace Sys2Proof.Machine

/-- A divisor of a power of two that is at most its half is a smaller power of two. -/
theorem exists_pow_of_dvd_two_pow (L n : Nat) (hd : n ∣ 2 ^ L) (h2 : 2 * n ≤ 2 ^ L) : ∃ h, n = 2 ^ h ∧ h < L := by
  obtain ⟨h, -, rfl⟩ := (Nat.dvd_prime_pow Nat.prime_two).mp hd
  refine ⟨h, rfl, (Nat.pow_lt_pow_iff_right (a := 2) (by omega)).mp ?_⟩
  have := Nat.two_pow_pos h
  omega

/-- The frame and the hop of a valid configuration: FRAME_LEN is `2^L`, HOP_LEN is `2^h` with `h < L`, and `L` is at most
15, since no frame is longer than 32768 (00_scope.md R6). -/
theorem ConfigValid.exists_exponents {s : State} (hv : ConfigValid s) (hp : s.params.Legal) :
    ∃ L h, s.field 0x010 0 16 = 2 ^ L ∧ s.field 0x010 16 16 = 2 ^ h ∧ h < L ∧ L ≤ 15 := by
  obtain ⟨-, hmax, -⟩ := hp
  obtain ⟨⟨L, -, hF⟩, hle, -, hd, h2, -⟩ := hv
  rw [hF] at hd h2 hle
  obtain ⟨h, hH, hlt⟩ := exists_pow_of_dvd_two_pow L _ hd h2
  have hL : 2 ^ L ≤ 2 ^ 15 := hle.trans hmax
  exact ⟨L, h, hF, hH, hlt, (Nat.pow_le_pow_iff_right (a := 2) (by omega)).mp hL⟩

theorem latch_F (s : State) : s.regs.latch.F = s.field 0x010 0 16 := (field_frameLen s).symm

theorem latch_H (s : State) : s.regs.latch.H = s.field 0x010 16 16 := (field_hopLen s).symm

theorem latch_olaNorm (s : State) : s.regs.latch.olaNorm = (s.readReg 0x00C).getLsbD 5 := (readReg_ctrl_bit s 5).symm

/-- Settles O18: the exponents of FRAME_LEN and HOP_LEN give every quantity named. -/
theorem validHopIsPowerOfTwo : Obligations.ValidHopIsPowerOfTwo := by
  intro s hp hv
  obtain ⟨L, h, hF, hH, hlt, hL⟩ := hv.exists_exponents hp
  have hsplit : 2 ^ L = 2 ^ (L - h) * 2 ^ h := by rw [← Nat.pow_add, Nat.sub_add_cancel hlt.le]
  have hR : s.regs.latch.R.log2 = L - h := by
    rw [Act.R, latch_F, latch_H, hF, hH, Nat.pow_div hlt.le (by omega), Nat.log2_two_pow]
  refine ⟨h, L - h, hH, by omega, by omega, ?_, hR, ?_, ?_, ?_⟩
  · rw [hF, hH, hsplit]
  · rw [Act.nsh, hR, latch_olaNorm]
  · rw [Act.L, latch_F, hF, Nat.log2_two_pow]
  · rw [Act.NB, latch_F]

end Sys2Proof.Machine
end

section
/-! PROOFS. The bit reversal of an index (00_scope.md R10) and the exchanges made from it (44_transform.md R233). -/

namespace Sys2Proof.Machine

/-! ### The reversed index -/

theorem bitrev_lt (L i : Nat) : bitrev L i < 2 ^ L := by
  induction L generalizing i with
  | zero => simp [bitrev]
  | succ n ih =>
    have hrest := ih (i / 2)
    have hbit : i % 2 * 2 ^ n ≤ 1 * 2 ^ n := Nat.mul_le_mul_right _ (by omega)
    rw [bitrev, Nat.pow_succ]
    omega

theorem testBit_bitrev (L i j : Nat) (hj : j < L) : (bitrev L i).testBit j = i.testBit (L - 1 - j) := by
  induction L generalizing i with
  | zero => omega
  | succ n ih =>
    rw [bitrev, Nat.mul_comm, Nat.testBit_two_pow_mul_add _ (bitrev_lt n (i / 2))]
    by_cases hlow : j < n
    · rw [if_pos hlow, ih (i / 2) hlow, ← Nat.testBit_succ]
      congr 1
      omega
    · obtain rfl : j = n := by omega
      simp [Nat.testBit_zero]

theorem bitrev_bitrev (L i : Nat) (hi : i < 2 ^ L) : bitrev L (bitrev L i) = i := by
  refine Nat.eq_of_testBit_eq fun j => ?_
  by_cases hj : j < L
  · rw [testBit_bitrev L _ j hj, testBit_bitrev L _ _ (by omega)]
    congr 1
    omega
  · have hpow : 2 ^ L ≤ 2 ^ j := Nat.pow_le_pow_right (by omega) (by omega)
    rw [Nat.testBit_lt_two_pow ((bitrev_lt L _).trans_le hpow), Nat.testBit_lt_two_pow (hi.trans_le hpow)]

/-! ### The exchanges -/

theorem cxAt_set (z : List Cx) (i k : Nat) (v : Cx) (hi : i < z.length) :
    cxAt (z.set i v) k = if k = i then v else cxAt z k := by
  simp only [cxAt, List.getD_eq_getElem?_getD, List.getElem?_set]
  by_cases h : k = i
  · simp [h, hi]
  · simp [h, Ne.symm h]

theorem cxAt_swapAt (z : List Cx) (i j k : Nat) (hi : i < z.length) (hj : j < z.length) :
    cxAt (swapAt z i j) k = if k = j then cxAt z i else if k = i then cxAt z j else cxAt z k := by
  rw [swapAt, cxAt_set _ _ _ _ (by simpa using hj), cxAt_set _ _ _ _ hi]

/-- The first `n` turns of the permutation. -/
def bitrevTurns (L : Nat) (z : List Cx) (n : Nat) : List Cx :=
  (List.range n).foldl (fun z i => if i < bitrev L i then swapAt z i (bitrev L i) else z) z

theorem bitrevPermute_eq_turns (L : Nat) (z : List Cx) : bitrevPermute L z = bitrevTurns L z (2 ^ L) := rfl

theorem bitrevTurns_succ (L : Nat) (z : List Cx) (n : Nat) :
    bitrevTurns L z (n + 1) =
      if n < bitrev L n then swapAt (bitrevTurns L z n) n (bitrev L n) else bitrevTurns L z n := by
  simp [bitrevTurns, List.range_succ]

@[simp] theorem bitrevTurns_length (L : Nat) (z : List Cx) (n : Nat) : (bitrevTurns L z n).length = z.length :=
  foldl_length _ (fun z b => by split <;> simp) _ _

/-- After `n` turns exactly the elements with their index or its reversal below `n` have been exchanged: turn `n`
exchanges the pair of `n` when `n` is its smaller index, and otherwise the pair has been exchanged, or is one element. -/
theorem cxAt_bitrevTurns (L : Nat) (z : List Cx) (hz : z.length = 2 ^ L) (n : Nat) (hn : n ≤ 2 ^ L) (k : Nat)
    (hk : k < 2 ^ L) :
    cxAt (bitrevTurns L z n) k = if k < n ∨ bitrev L k < n then cxAt z (bitrev L k) else cxAt z k := by
  induction n generalizing k with
  | zero => simp [bitrevTurns]
  | succ n ih =>
    have hr := bitrev_lt L n
    have hrr := bitrev_bitrev L n hn
    have hkk := bitrev_bitrev L k hk
    have ihk := ih (by omega) k hk
    rw [bitrevTurns_succ]
    by_cases hlt : n < bitrev L n
    · rw [if_pos hlt, cxAt_swapAt _ _ _ _ (by simpa [hz]) (by simpa [hz])]
      by_cases hkr : k = bitrev L n
      · subst hkr
        rw [if_pos rfl, ih (by omega) n hn, hrr, if_neg (by omega), if_pos (by omega)]
      · by_cases hkn : k = n
        · subst hkn
          rw [if_neg hkr, if_pos rfl, ih (by omega) _ hr, hrr, if_neg (by omega), if_pos (by omega)]
        · have hrn : bitrev L k ≠ n := fun h => hkr (by rw [← h, hkk])
          rw [if_neg hkr, if_neg hkn, ihk]
          exact if_congr (by omega) rfl rfl
    · rw [if_neg hlt, ihk]
      by_cases hself : k = bitrev L k
      · rw [← hself, ite_self, ite_self]
      · have hrn : bitrev L k = n → k < n := fun h => by rw [← h, hkk] at hlt; omega
        have hkn : k = n → bitrev L k < n := fun h => by rw [← h] at hlt ⊢; omega
        exact if_congr (by omega) rfl rfl

/-- Settles O32: all `2^L` turns exchange every element with that of its reversed index. -/
theorem bitReversalPermutes : Obligations.BitReversalPermutes := by
  intro L z hz i hi
  refine ⟨?_, bitrev_lt L i, bitrev_bitrev L i hi, testBit_bitrev L i⟩
  rw [bitrevPermute_eq_turns, cxAt_bitrevTurns L z hz _ le_rfl i hi, if_pos (.inl hi)]

end Sys2Proof.Machine
end

section
/-! PROOFS. Bytes and numbers of DMEM (00_scope.md R11), and the bus over DMEM with the engine idle (20_memory.md R60,
R64, R65, R68). -/

namespace Sys2Proof.Machine

/-! ### Numbers in memory -/

theorem memRead_lt (m : Memory) (a n : Nat) : memRead m a n < 256 ^ n := by
  induction n generalizing a with
  | zero => simp [memRead]
  | succ n ih =>
    have hb := (Memory.byte m a).isLt
    have hrest := ih (a + 1)
    rw [memRead, Nat.pow_succ]
    omega

theorem memRead_one (m : Memory) (a : Nat) : memRead m a 1 = (Memory.byte m a).toNat := by simp [memRead]

/-- A number of `k + p` bytes is that of its low `k` bytes and that of the `p` above. -/
theorem memRead_add (m : Memory) (a k p : Nat) :
    memRead m a (k + p) = memRead m a k + 256 ^ k * memRead m (a + k) p := by
  induction k generalizing a with
  | zero => simp [memRead]
  | succ k ih =>
    rw [Nat.add_right_comm, memRead, memRead, ih, Nat.add_right_comm a 1 k, Nat.add_assoc a k 1]
    ring

/-- The `p` bytes from byte `k` of a number on. -/
theorem memRead_part (m : Memory) (a n k p : Nat) (h : k + p ≤ n) :
    memRead m (a + k) p = memRead m a n / 256 ^ k % 256 ^ p := by
  obtain ⟨r, rfl⟩ := Nat.exists_eq_add_of_le h
  rw [Nat.add_assoc, memRead_add m a k, Nat.add_mul_div_left _ _ (by positivity), Nat.div_eq_of_lt (memRead_lt m a k),
    Nat.zero_add, memRead_add m (a + k) p, Nat.add_mul_mod_self_left, Nat.mod_eq_of_lt (memRead_lt _ _ _)]

/-- A part of a number just written is that part of the value. -/
theorem memRead_memWrite_part (m : Memory) (a n v k p : Nat) (hm : m.Pairwise (fun x y => x.1 < y.1))
    (h : k + p ≤ n) : memRead (memWrite m a n v) (a + k) p = v / 256 ^ k % 256 ^ p := by
  have hsplit : 256 ^ n = 256 ^ k * 256 ^ (n - k) := by rw [← Nat.pow_add]; congr 1; omega
  rw [memRead_part _ a n k p h, memRead_memWrite n m a v hm, hsplit, Nat.mod_mul_right_div_self,
    Nat.mod_mod_of_dvd _ (Nat.pow_dvd_pow 256 (by omega))]

/-- A number above a byte, as bits. -/
theorem ofNat_byte_add (w : Nat) (b : Byte) (n : Nat) :
    BitVec.ofNat (w + 8) (b.toNat + 256 * n) = BitVec.ofNat w n ++ b := by
  have hb := b.isLt
  have hlow : (b.toNat + 256 * n) % 2 ^ 8 = b.toNat := by omega
  have hhigh : (b.toNat + 256 * n) / 2 ^ 8 = n := by omega
  refine BitVec.eq_of_toNat_eq ?_
  rw [BitVec.toNat_append, BitVec.toNat_ofNat, BitVec.toNat_ofNat, ← Nat.shiftLeft_add_eq_or_of_lt hb,
    Nat.shiftLeft_eq, Nat.pow_add, Nat.mul_comm (2 ^ w), Nat.mod_mul, hlow, hhigh, Nat.add_comm, Nat.mul_comm]

theorem rdI16_eq_bytes (m : Memory) (a : Nat) :
    rdI16 m a = (Memory.byte m (a + 1) ++ Memory.byte m a).toInt := by
  have h : BitVec.ofNat (8 + 8) (memRead m a 2) = Memory.byte m (a + 1) ++ Memory.byte m a := by
    rw [memRead, memRead_one, ofNat_byte_add, BitVec.ofNat_toNat, BitVec.setWidth_eq]
  exact congrArg BitVec.toInt h

theorem rdI32_eq_bytes (m : Memory) (a : Nat) :
    rdI32 m a =
      (Memory.byte m (a + 3) ++ Memory.byte m (a + 2) ++ Memory.byte m (a + 1) ++ Memory.byte m a).toInt := by
  have h : BitVec.ofNat (8 + 8 + 8 + 8) (memRead m a 4) =
      Memory.byte m (a + 3) ++ Memory.byte m (a + 2) ++ Memory.byte m (a + 1) ++ Memory.byte m a := by
    simp only [memRead, ofNat_byte_add, Nat.mul_zero, Nat.add_zero, Nat.add_assoc, Nat.reduceAdd, BitVec.ofNat_toNat,
      BitVec.setWidth_eq]
  exact congrArg BitVec.toInt h

/-- A word just written is what the engine's RdI32 reads. -/
theorem rdI32_memWrite (m : Memory) (a : Nat) (v : Word) (hm : m.Pairwise (fun x y => x.1 < y.1)) :
    rdI32 (memWrite m a 4 v.toNat) a = v.toInt := by
  have hw : memWrite m a 4 v.toNat = wrI32 m a v.toInt := by rw [wrI32, BitVec.ofInt_toInt]
  rw [hw, rdI32_wrI32 m a _ hm, BitVec.ofInt_toInt]

/-- A half just written is what the engine's RdI16 reads. -/
theorem rdI16_memWrite (m : Memory) (a : Nat) (v : Word) (hm : m.Pairwise (fun x y => x.1 < y.1)) :
    rdI16 (memWrite m a 2 v.toNat) a = (v.extractLsb' 0 16).toInt := by
  have hv : BitVec.ofNat 16 (v.toNat % 256 ^ 2) = v.extractLsb' 0 16 := by
    refine BitVec.eq_of_toNat_eq ?_
    simp [BitVec.extractLsb'_toNat]
  rw [rdI16, memRead_memWrite 2 m a _ hm, hv]

/-! ### Parts of a word -/

theorem two_pow_eight_mul (n : Nat) : 2 ^ (8 * n) = 256 ^ n := by rw [Nat.pow_mul]

/-- The bytes `k .. k + p - 1` of a word, zero-extended. -/
theorem extractBytes_setWidth (v : Word) (k p : Nat) :
    (v.extractLsb' (8 * k) (8 * p)).setWidth 32 = BitVec.ofNat 32 (v.toNat / 256 ^ k % 256 ^ p) := by
  refine BitVec.eq_of_toNat_eq ?_
  rw [BitVec.toNat_setWidth, BitVec.extractLsb'_toNat, Nat.shiftRight_eq_div_pow, two_pow_eight_mul, two_pow_eight_mul,
    BitVec.toNat_ofNat]

/-- The number of an access's bytes fits a word. -/
theorem memRead_toNat_word (m : Memory) (a : Nat) (size : AccessSize) :
    (BitVec.ofNat 32 (memRead m a size.bytes)).toNat = memRead m a size.bytes := by
  have hlt := memRead_lt m a size.bytes
  have hle : 256 ^ size.bytes ≤ 2 ^ 32 := by cases size <;> decide
  rw [BitVec.toNat_ofNat, Nat.mod_eq_of_lt (hlt.trans_le hle)]

/-- Byte `k` of the word an access reads. -/
theorem extractByte_memRead (m : Memory) (a k : Nat) (size : AccessSize) (hk : k < size.bytes) :
    (BitVec.ofNat 32 (memRead m a size.bytes)).extractLsb' (8 * k) 8 = Memory.byte m (a + k) := by
  refine BitVec.eq_of_toNat_eq ?_
  rw [BitVec.extractLsb'_toNat, memRead_toNat_word, Nat.shiftRight_eq_div_pow, two_pow_eight_mul, ← memRead_one,
    memRead_part m a size.bytes k 1 hk, Nat.pow_one]

/-! ### The bus over DMEM, with the engine idle -/

theorem AccessSize.bytes_pos (size : AccessSize) : 0 < size.bytes := by cases size <;> decide

theorem busTarget_dmem (p : Params) (o : Nat) (ho : o < 0x100000) :
    busTarget p (p.blockBase + 0x100000 + o) = some (.dmem o) := by
  have hoff : p.blockBase + 0x100000 + o - p.blockBase = 0x100000 + o := by omega
  have hblock : 0x100000 + o < blockBytes := by unfold blockBytes; omega
  simp only [busTarget, hoff]
  rw [if_neg (by omega), if_neg (by omega), if_neg (by omega), if_pos hblock, Nat.add_sub_cancel_left]

theorem busy_eq_false (s : State) (h : s.run = none) : s.busy = false := by simp [State.busy, h]

theorem runningHop_idle (s : State) (h : s.run = none) : runningHop s = none := by simp [runningHop, h]

theorem racesCommand_idle (s : State) (a n : Nat) (h : s.run = none) : racesCommand s a n = false := by
  simp [racesCommand, commandUses, runningHop_idle s h]

theorem hostDmemByte_idle (s : State) (a : Nat) (h : s.run = none) (ha : a < s.params.dmemBytes) :
    hostDmemByte s a = Memory.byte s.dmem a := by
  simp [hostDmemByte, commandWrites, runningHop_idle s h, ha]

/-- What the host reads inside DMEM is the number in memory. -/
theorem bytesLE_idle (s : State) (a n : Nat) (h : s.run = none) (ha : a + n ≤ s.params.dmemBytes) :
    bytesLE (hostDmemByte s) a n = memRead s.dmem a n := by
  induction n generalizing a with
  | zero => rfl
  | succ n ih => rw [bytesLE, memRead, hostDmemByte_idle s a h (by omega), ih (a + 1) (by omega)]

/-- What the host writes inside DMEM is written whole. -/
theorem hostDmemWrite_inside (n : Nat) (m : Memory) (a k v : Nat) (ha : a + k ≤ n) :
    hostDmemWrite n m a k v = memWrite m a k v := by
  induction k generalizing m a v with
  | zero => rfl
  | succ k ih => rw [hostDmemWrite, memWrite, if_pos (by omega), ih _ _ _ (by omega)]

/-- A legal host read, with the engine idle. -/
theorem busRead_legal_idle (s : State) (addr : Nat) (size : AccessSize) (t : BusTarget) (h : s.run = none)
    (ht : busTarget s.params addr = some t) (hl : accessLegal t size = true) :
    busRead addr size s = s.respond false (busReadData s t size) := by
  simp only [busRead, ht, hl, busy_eq_false s h, Bool.false_eq_true, if_true, if_false]

/-- With the engine idle a bus read records a response and does nothing else (20_memory.md R68). -/
theorem busRead_idle_frame (s : State) (addr : Nat) (size : AccessSize) (h : s.run = none) :
    busRead addr size s = { s with resp := (busRead addr size s).resp } := by
  cases ht : busTarget s.params addr with
  | none => simp only [busRead, ht]
  | some t =>
    by_cases hl : accessLegal t size = true
    · rw [busRead_legal_idle s addr size t h ht hl, State.respond]
    · simp only [busRead, ht, hl, Bool.false_eq_true, if_false, State.respond]

/-- A legal host write. -/
theorem busWrite_legal (s : State) (addr : Nat) (size : AccessSize) (v : Word) (t : BusTarget)
    (ht : busTarget s.params addr = some t) (hl : accessLegal t size = true) :
    busWrite addr size v s = (busWriteEffect t size v s).respond false 0 := by
  simp only [busWrite, ht, hl, if_true]

theorem accessLegal_dmem (a : Nat) (size : AccessSize) (hal : a % size.bytes = 0) :
    accessLegal (.dmem a) size = true := decide_eq_true hal

/-- An aligned host read inside DMEM, with the engine idle. -/
theorem busRead_dmem_idle (s : State) (a : Nat) (size : AccessSize) (hp : s.params.Legal) (h : s.run = none)
    (hal : a % size.bytes = 0) (ha : a + size.bytes ≤ s.params.dmemBytes) :
    busRead (s.params.blockBase + 0x100000 + a) size s =
      { s with resp := some { error := false, data := BitVec.ofNat 32 (memRead s.dmem a size.bytes) } } := by
  obtain ⟨-, -, -, -, -, -, hmax, -⟩ := hp
  have hpos := size.bytes_pos
  rw [busRead_legal_idle s _ size _ h (busTarget_dmem s.params a (by omega)) (accessLegal_dmem a size hal), busReadData,
    bytesLE_idle s a _ h ha, State.respond]

/-- An aligned host write inside DMEM, with the engine idle. -/
theorem busWrite_dmem_idle (s : State) (a : Nat) (size : AccessSize) (v : Word) (hp : s.params.Legal)
    (h : s.run = none) (hal : a % size.bytes = 0) (ha : a + size.bytes ≤ s.params.dmemBytes) :
    busWrite (s.params.blockBase + 0x100000 + a) size v s =
      { s with
        dmem := memWrite s.dmem a size.bytes v.toNat
        resp := some { error := false, data := 0 } } := by
  obtain ⟨-, -, -, -, -, -, hmax, -⟩ := hp
  have hpos := size.bytes_pos
  rw [busWrite_legal s _ size v _ (busTarget_dmem s.params a (by omega)) (accessLegal_dmem a size hal)]
  simp only [busWriteEffect, State.writeDmem, racesCommand_idle s a _ h, Bool.false_eq_true, if_false,
    hostDmemWrite_inside _ _ _ _ _ ha, State.respond]

/-- Settles O55: the bus accesses as one read and one write of a number, and the parts of a number written. -/
theorem dmemWordReadsBack : Obligations.DmemWordReadsBack := by
  refine ⟨?_, fun s addr size h => busRead_idle_frame s addr size h,
    fun m a => ⟨rdI16_eq_bytes m a, rdI32_eq_bytes m a⟩⟩
  intro s a size v hinv hrun hal ha addr t
  obtain ⟨hp, hm, -, -⟩ := hinv
  have ht : t = { s with
      dmem := memWrite s.dmem a size.bytes v.toNat
      resp := some { error := false, data := 0 } } := busWrite_dmem_idle s a size v hp hrun hal ha
  have hdmem : t.dmem = memWrite s.dmem a size.bytes v.toNat := by rw [ht]
  refine ⟨⟨BitVec.ofNat 32 (memRead s.dmem a size.bytes), busRead_dmem_idle s a size hp hrun hal ha, ?_,
    fun k hk => extractByte_memRead s.dmem a k size hk⟩, ?_, ?_, ?_, ?_, ?_⟩
  · rw [memRead_toNat_word, two_pow_eight_mul]
    exact memRead_lt _ _ _
  · intro part k hpart hk
    have hread := busRead_dmem_idle t (a + k) part (by rw [ht]; exact hp) (by rw [ht]; exact hrun) hpart
      (by rw [ht]; exact (by omega : a + k + part.bytes ≤ s.params.dmemBytes))
    have hbase : t.params.blockBase + 0x100000 + (a + k) = addr + k := by
      rw [ht]; exact (Nat.add_assoc _ a k).symm
    rw [← hbase, hread, hdmem, memRead_memWrite_part _ _ _ _ _ _ hm.1 hk, extractBytes_setWidth]
  · rintro rfl
    rw [hdmem]
    exact rdI32_memWrite _ _ _ hm.1
  · rintro rfl
    rw [hdmem]
    exact rdI16_memWrite _ _ _ hm.1
  · rw [ht]
  · intro b hb
    rw [hdmem]
    exact byte_memWrite_outside _ _ _ _ _ hb

end Sys2Proof.Machine
end

section
/-! PROOFS. The host's turn (20_memory.md R71, 70_reset_and_hazards.md R351) and the bus port by window: which accesses
are legal (20_memory.md R60, R65), what lies beyond the layouts, and host writes that meet a running command
(70_reset_and_hazards.md R346). -/

namespace Sys2Proof.Machine

/-! ### The windows of the block -/

theorem busTarget_register (p : Params) (o : Nat) (ho : o < 0x080000) :
    busTarget p (p.blockBase + o) = some (.register o) := by
  simp only [busTarget, Nat.add_sub_cancel_left]
  rw [if_neg (by omega), if_pos ho]

theorem busTarget_stateWindow (p : Params) (o : Nat) (ho : o < 0x080000) :
    busTarget p (p.blockBase + 0x080000 + o) = some (.stateWindow o) := by
  have hoff : p.blockBase + 0x080000 + o - p.blockBase = 0x080000 + o := by omega
  simp only [busTarget, hoff]
  rw [if_neg (by omega), if_neg (by omega), if_pos (by omega), Nat.add_sub_cancel_left]

theorem busTarget_outside (p : Params) (addr : Nat) (h : addr < p.blockBase ∨ p.blockBase + 0x200000 ≤ addr) :
    busTarget p addr = none := by
  rcases h with hbelow | habove
  · simp only [busTarget, if_pos hbelow]
  · have hoff : ¬ addr - p.blockBase < blockBytes := by unfold blockBytes; omega
    simp only [busTarget]
    rw [if_neg (by omega), if_neg (by omega), if_neg (by omega), if_neg hoff]

theorem accessLegal_register_iff (o : Nat) (size : AccessSize) :
    accessLegal (.register o) size = true ↔ size = .word ∧ o % 4 = 0 := decide_eq_true_iff

theorem accessLegal_stateWindow_iff (o : Nat) (size : AccessSize) :
    accessLegal (.stateWindow o) size = true ↔ o % size.bytes = 0 := decide_eq_true_iff

theorem accessLegal_dmem_iff (o : Nat) (size : AccessSize) :
    accessLegal (.dmem o) size = true ↔ o % size.bytes = 0 := decide_eq_true_iff

/-- A window that starts at a multiple of every access size keeps the alignment of an offset. -/
theorem windowBase_add_mod_bytes (n o : Nat) (size : AccessSize) :
    (0x080000 * n + o) % size.bytes = o % size.bytes := by
  have hdvd : size.bytes ∣ 0x080000 := by cases size <;> decide
  obtain ⟨c, hc⟩ := hdvd
  rw [hc, Nat.mul_assoc, Nat.mul_add_mod]

/-- Every offset of the block has a target, and the accesses it takes are told by the offset alone (20_memory.md R65). -/
theorem exists_busTarget_legal_iff (p : Params) (off : Nat) (size : AccessSize) (hoff : off < 0x200000) :
    ∃ t, busTarget p (p.blockBase + off) = some t ∧
      (accessLegal t size = true ↔
        if off < 0x080000 then size = .word ∧ off % 4 = 0 else off % size.bytes = 0) := by
  by_cases hreg : off < 0x080000
  · exact ⟨_, busTarget_register p off hreg, by rw [if_pos hreg, accessLegal_register_iff]⟩
  rw [if_neg hreg]
  by_cases hwin : off < 0x100000
  · obtain ⟨o, rfl⟩ := Nat.exists_eq_add_of_le (not_lt.mp hreg)
    rw [← Nat.add_assoc]
    exact ⟨_, busTarget_stateWindow p o (by omega),
      by rw [accessLegal_stateWindow_iff, windowBase_add_mod_bytes 1 o size]⟩
  · obtain ⟨o, rfl⟩ := Nat.exists_eq_add_of_le (not_lt.mp hwin)
    rw [← Nat.add_assoc]
    exact ⟨_, busTarget_dmem p o (by omega), by rw [accessLegal_dmem_iff, windowBase_add_mod_bytes 2 o size]⟩

/-! ### Accesses by target and legality -/

theorem busRead_outside (s : State) (addr : Nat) (size : AccessSize) (ht : busTarget s.params addr = none) :
    busRead addr size s = { s with resp := none } := by
  simp only [busRead, ht]

theorem busWrite_outside (s : State) (addr : Nat) (size : AccessSize) (v : Word)
    (ht : busTarget s.params addr = none) : busWrite addr size v s = { s with resp := none } := by
  simp only [busWrite, ht]

theorem busRead_illegal (s : State) (addr : Nat) (size : AccessSize) (t : BusTarget)
    (ht : busTarget s.params addr = some t) (hl : accessLegal t size = false) :
    busRead addr size s = s.respond true 0 := by
  simp only [busRead, ht, hl, Bool.false_eq_true, if_false]

theorem busWrite_illegal (s : State) (addr : Nat) (size : AccessSize) (v : Word) (t : BusTarget)
    (ht : busTarget s.params addr = some t) (hl : accessLegal t size = false) :
    busWrite addr size v s = s.respond true 0 := by
  simp only [busWrite, ht, hl, Bool.false_eq_true, if_false]

/-- The response to a legal host read, with the engine idle or running. -/
theorem busRead_legal_resp (s : State) (addr : Nat) (size : AccessSize) (t : BusTarget)
    (ht : busTarget s.params addr = some t) (hl : accessLegal t size = true) :
    (busRead addr size s).resp = some { error := false, data := busReadData s t size } := by
  by_cases hb : s.busy = true
  · simp only [busRead, ht, hl, hb, if_true, State.respond_resp]
  · simp only [busRead, ht, hl, hb, if_true, if_false, Bool.false_eq_true, State.respond_resp]

/-- Settles O51, by the target of each offset of the block. -/
theorem illegalAccessIsBusError : Obligations.IllegalAccessIsBusError := by
  refine ⟨fun off size => ⟨accessLegal_register_iff off size, accessLegal_stateWindow_iff off size,
    accessLegal_dmem_iff off size⟩,
    fun s addr size t v ht hl => ⟨busRead_illegal s addr size t ht hl, busWrite_illegal s addr size v t ht hl⟩, ?_⟩
  intro s off size v hoff
  obtain ⟨t, ht, hiff⟩ := exists_busTarget_legal_iff s.params off size hoff
  constructor
  · intro hrule
    have hl := hiff.mpr hrule
    rw [busRead_legal_resp s _ size t ht hl, busWrite_legal s _ size v t ht hl]
    exact ⟨rfl, rfl⟩
  · intro hrule
    have hl : accessLegal t size = false := Bool.eq_false_iff.mpr fun hl => hrule (hiff.mp hl)
    exact ⟨busRead_illegal s _ size t ht hl, busWrite_illegal s _ size v t ht hl⟩

/-! ### The host's turn -/

theorem nextMove_host_idle (s : State) (op : HostOp) (rest : List HostOp) (hr : s.run = none)
    (hs : s.host = op :: rest) : nextMove s = .host op rest := by
  simp only [nextMove, hr, hs]

theorem nextMove_host_running (s : State) (r : Running) (op : HostOp) (rest : List HostOp) (hr : s.run = some r)
    (hl : r.left ≠ 0) (hop : op ≠ .wait) (hs : s.host = op :: rest) : nextMove s = .host op rest := by
  cases op with
  | wait => exact absurd rfl hop
  | _ => simp only [nextMove, hr, hs, if_neg hl]

theorem nextMove_idle (s : State) (hr : s.run = none) (hs : s.host = []) : nextMove s = .idle := by
  simp only [nextMove, hr, hs]

theorem step_host (s : State) (op : HostOp) (rest : List HostOp) (h : nextMove s = .host op rest) :
    step s = .next (hostMove op rest s) := by
  rw [step, move, h]

/-- A register of an idle core over the bus: nothing is drawn (70_reset_and_hazards.md R345). -/
theorem busRead_register_idle (s : State) (o : Nat) (hr : s.run = none) (ho : o < 0x080000) (hal : o % 4 = 0) :
    busRead (s.params.blockBase + o) .word s = s.respond false (s.readReg o) := by
  rw [busRead_legal_idle s _ .word _ hr (busTarget_register s.params o ho)
    ((accessLegal_register_iff o .word).mpr ⟨rfl, hal⟩)]
  simp only [busReadData, hostReg, busy_eq_false s hr, Bool.false_and, Bool.false_eq_true, if_false]

/-- Settles O6, by who moves next in each case. -/
theorem hostOperationIsOneStep : Obligations.HostOperationIsOneStep := by
  refine ⟨?_, ?_, ?_, ?_, ?_⟩
  · intro s op rest hr hs
    have hidle : State.countDown { s with host := rest } = { s with host := rest } := by
      simp only [State.countDown, hr, Option.map_none]
    rw [step_host s op rest (nextMove_host_idle s op rest hr hs), hostMove, hidle]
  · intro s r op rest hr hl hop hs
    rw [step_host s op rest (nextMove_host_running s r op rest hr hl hop hs), hostMove]
    simp only [State.countDown, hr, Option.map_some]
  · intro s hr hs
    rw [step, move, nextMove_idle s hr hs]
  · intro s addr size v
    refine ⟨rfl, rfl, fun hout => ?_⟩
    have ht := busTarget_outside s.params addr hout
    exact ⟨busRead_outside s addr size ht, busWrite_outside s addr size v ht⟩
  · intro s hr
    exact ⟨rfl, (busRead_register_idle s 0x004 hr (by decide) (by decide)).symm⟩

/-! ### Beyond the state layout and DMEM -/

theorem bytesLE_eq_zero (f : Nat → Byte) (o n : Nat) (h : ∀ b, o ≤ b → f b = 0#8) : bytesLE f o n = 0 := by
  induction n generalizing o with
  | zero => rfl
  | succ n ih => rw [bytesLE, h o (le_refl o), ih (o + 1) fun b hb => h b (by omega)]; rfl

theorem busReadData_stateWindow_beyond (s : State) (o : Nat) (size : AccessSize) (ho : s.params.stateBytes ≤ o) :
    busReadData s (.stateWindow o) size = 0 := by
  have hz : bytesLE (hostWindowByte s) o size.bytes = 0 :=
    bytesLE_eq_zero _ _ _ fun b hb => if_pos (ho.trans hb)
  rw [busReadData, hz]
  rfl

theorem busReadData_dmem_beyond (s : State) (o : Nat) (size : AccessSize) (ho : s.params.dmemBytes ≤ o) :
    busReadData s (.dmem o) size = 0 := by
  have hz : bytesLE (hostDmemByte s) o size.bytes = 0 :=
    bytesLE_eq_zero _ _ _ fun b hb => if_pos (ho.trans hb)
  rw [busReadData, hz]
  rfl

theorem hostDmemWrite_beyond (n k : Nat) (m : Memory) (a v : Nat) (h : n ≤ a) : hostDmemWrite n m a k v = m := by
  induction k generalizing a v with
  | zero => rfl
  | succ k ih => rw [hostDmemWrite, if_neg (by omega), ih _ _ (by omega)]

/-- A host write races the running command exactly when one of its DMEM bytes is in use. -/
theorem racesCommand_iff (s : State) (a n : Nat) :
    racesCommand s a n = true ↔ ∃ k, k < n ∧ a + k < s.params.dmemBytes ∧ commandUses s (a + k) = true := by
  simp only [racesCommand, List.any_eq_true, List.mem_range, Bool.and_eq_true, decide_eq_true_eq]

theorem writeDmem_beyond (s : State) (a : Nat) (size : AccessSize) (v : Word) (h : s.params.dmemBytes ≤ a) :
    State.writeDmem a size v s = s := by
  have hrace : ¬ racesCommand s a size.bytes = true := by
    rw [racesCommand_iff]
    rintro ⟨k, -, hin, -⟩
    omega
  simp only [State.writeDmem, if_neg hrace, hostDmemWrite_beyond _ _ _ _ _ h]

/-- A legal host read whose data is 0: the response at any time, and the whole next state of an idle core. -/
theorem busRead_legal_zero (s : State) (addr : Nat) (size : AccessSize) (t : BusTarget)
    (ht : busTarget s.params addr = some t) (hl : accessLegal t size = true) (hz : busReadData s t size = 0) :
    (busRead addr size s).resp = some { error := false, data := 0 } ∧
    (s.run = none → busRead addr size s = { s with resp := some { error := false, data := 0 } }) := by
  constructor
  · rw [busRead_legal_resp s addr size t ht hl, hz]
  · intro hr
    rw [busRead_legal_idle s addr size t hr ht hl, hz, State.respond]

/-- Settles O57: beyond its layout each window reads zero bytes and drops the bytes written. -/
theorem beyondTheWindowsReadsZero : Obligations.BeyondTheWindowsReadsZero := by
  intro s o size v _ hal
  constructor
  · intro ho
    have ht := busTarget_stateWindow s.params o ho
    have hl := (accessLegal_stateWindow_iff o size).mpr hal
    exact ⟨fun hbeyond => busRead_legal_zero s _ size _ ht hl (busReadData_stateWindow_beyond s o size hbeyond),
      busWrite_legal s _ size v _ ht hl⟩
  · intro ho hbeyond
    have ht := busTarget_dmem s.params o ho
    have hl := accessLegal_dmem o size hal
    obtain ⟨hresp, hidle⟩ := busRead_legal_zero s _ size _ ht hl (busReadData_dmem_beyond s o size hbeyond)
    refine ⟨hresp, hidle, ?_⟩
    rw [busWrite_legal s _ size v _ ht hl, busWriteEffect, writeDmem_beyond s o size v hbeyond, State.respond]

/-! ### Host writes while a command runs -/

/-- The bytes a running command uses are those of a hop whose checks pass, in the regions of its snapshot. -/
theorem commandUses_iff (s : State) (r : Running) (a : Nat) (hr : s.run = some r) :
    commandUses s a = true ↔ RunsHop s r ∧ HopUses (State.withSnapshot r s) a := by
  obtain ⟨hruns, hnot⟩ := runningHop_eq s r hr
  by_cases hhop : RunsHop s r
  · rw [hopUses_iff]
    simp only [commandUses, hruns hhop, hhop, true_and, State.withSnapshot_act, State.withSnapshot_regs]
  · simp only [commandUses, hnot hhop, hhop, false_and, Bool.false_eq_true]

theorem racesCommand_running_iff (s : State) (r : Running) (a n : Nat) (hr : s.run = some r)
    (ha : a + n ≤ s.params.dmemBytes) :
    racesCommand s a n = true ↔ RunsHop s r ∧ ∃ k, k < n ∧ HopUses (State.withSnapshot r s) (a + k) := by
  simp only [racesCommand_iff, commandUses_iff s r _ hr]
  constructor
  · rintro ⟨k, hk, -, hhop, huses⟩
    exact ⟨hhop, k, hk, huses⟩
  · rintro ⟨hhop, k, hk, huses⟩
    exact ⟨k, hk, by omega, hhop, huses⟩

/-- An aligned host write inside DMEM while a command runs: it is stored whole, and marks the race. -/
theorem busWrite_dmem_running (s : State) (r : Running) (a : Nat) (size : AccessSize) (v : Word) (hp : s.params.Legal)
    (hr : s.run = some r) (hal : a % size.bytes = 0) (ha : a + size.bytes ≤ s.params.dmemBytes) :
    busWrite (s.params.blockBase + 0x100000 + a) size v s =
      { s with
        dmem := memWrite s.dmem a size.bytes v.toNat
        run := if racesCommand s a size.bytes then some { r with raced := true } else some r
        resp := some { error := false, data := 0 } } := by
  obtain ⟨-, -, -, -, -, -, hmax, -⟩ := hp
  have hpos := size.bytes_pos
  rw [busWrite_legal s _ size v _ (busTarget_dmem s.params a (by omega)) (accessLegal_dmem a size hal), busWriteEffect,
    State.writeDmem, hostDmemWrite_inside _ _ _ _ _ ha]
  by_cases hrace : racesCommand s a size.bytes = true
  · simp only [hrace, if_true, State.markRaced, hr, Option.map_some, State.respond]
  · simp only [hrace, if_false, Bool.false_eq_true, ← hr, State.respond]

/-- Byte `k` of a word just written. -/
theorem byte_memWrite_word (m : Memory) (a n k : Nat) (v : Word) (hm : m.Pairwise (fun x y => x.1 < y.1))
    (hk : k < n) : Memory.byte (memWrite m a n v.toNat) (a + k) = v.extractLsb' (8 * k) 8 := by
  refine BitVec.eq_of_toNat_eq ?_
  rw [← memRead_one, memRead_memWrite_part m a n v.toNat k 1 hm hk, BitVec.extractLsb'_toNat,
    Nat.shiftRight_eq_div_pow, two_pow_eight_mul, Nat.pow_one]

/-- Settles O59: the write as one number stored and one test for the race. -/
theorem writeIntoRunningHopRaces : Obligations.WriteIntoRunningHopRaces := by
  intro s r a size v hinv hr hal ha t
  obtain ⟨hp, hm, -, -⟩ := hinv
  have ht : t = { s with
      dmem := memWrite s.dmem a size.bytes v.toNat
      run := if racesCommand s a size.bytes then some { r with raced := true } else some r
      resp := some { error := false, data := 0 } } := busWrite_dmem_running s r a size v hp hr hal ha
  have hdmem : t.dmem = memWrite s.dmem a size.bytes v.toNat := by rw [ht]
  have hrun : t.run = if racesCommand s a size.bytes then some { r with raced := true } else some r := by rw [ht]
  have hrace := racesCommand_running_iff s r a size.bytes hr ha
  refine ⟨by rw [ht], fun k hk => ?_, fun b hb => ?_, fun huses => ?_, fun hfree => ?_⟩
  · rw [hdmem]
    exact byte_memWrite_word _ _ _ _ _ hm.1 hk
  · rw [hdmem]
    exact byte_memWrite_outside _ _ _ _ _ hb
  · rw [hrun, if_pos (hrace.mpr huses)]
  · rw [hrun, if_neg fun h => hfree (hrace.mp h)]

end Sys2Proof.Machine
end

section
/-! PROOFS. Integers of the Q-format unit (40_qformat_alu.md R100 to R109, R128, R132): the ranges of the operands,
floored quotients and their bounds, the formats' round trips, and the gain of a bin (45_noise_suppressor.md R268). -/

namespace Sys2Proof.Machine

/-! ### Operand ranges -/

theorem word_toInt_mem (w : Word) : -2147483648 ≤ w.toInt ∧ w.toInt ≤ 2147483647 :=
  ⟨w.le_toInt, Int.le_of_lt_add_one w.toInt_lt⟩

theorem half_toInt_mem (h : BitVec 16) : -32768 ≤ h.toInt ∧ h.toInt ≤ 32767 :=
  ⟨h.le_toInt, Int.le_of_lt_add_one h.toInt_lt⟩

/-! ### Floored quotients -/

/-- A quotient by a positive divisor stays in every interval around 0 that the dividend is in. -/
theorem ediv_mem_of_mem {lo hi a d : Int} (hlo : lo ≤ 0) (hhi : 0 ≤ hi) (ha : lo ≤ a ∧ a ≤ hi) (hd : 0 < d) :
    lo ≤ a / d ∧ a / d ≤ hi := by
  obtain ⟨hal, hah⟩ := ha
  refine ⟨(Int.le_ediv_iff_mul_le hd).mpr ?_, Int.ediv_le_of_le_mul hd ?_⟩
  · nlinarith
  · nlinarith

/-- A product of two signed fractions of unit `n`, scaled back, leaves the range only for the most negative value
squared. -/
theorem scaled_product_outside_iff {n x y : Int} (hx : -n ≤ x ∧ x < n) (hy : -n ≤ y ∧ y < n) :
    (x * y / n < -n ∨ n - 1 < x * y / n) ↔ x = -n ∧ y = -n := by
  obtain ⟨hxl, hxh⟩ := hx
  obtain ⟨hyl, hyh⟩ := hy
  have hn : 0 < n := by omega
  have hlow : -n * n ≤ x * y := by nlinarith
  rw [Int.ediv_lt_iff_lt_mul hn, ← Int.add_one_le_iff (a := n - 1), sub_add_cancel, Int.le_ediv_iff_mul_le hn]
  constructor
  · rintro (h | h)
    · omega
    · constructor <;> nlinarith
  · rintro ⟨rfl, rfl⟩
    exact .inr (by rw [neg_mul_neg])

/-- The product of two 32-bit words fits 64 signed bits. -/
theorem word_mul_mem (v w : Word) :
    -9223372036854775808 ≤ v.toInt * w.toInt ∧ v.toInt * w.toInt ≤ 9223372036854775807 := by
  obtain ⟨hvl, hvh⟩ := word_toInt_mem v
  obtain ⟨hwl, hwh⟩ := word_toInt_mem w
  constructor <;> nlinarith

/-! ### The quotient of DIVG -/

theorem fdiv_bounds_of_pos {a b : Int} (hb : 0 < b) : fdiv a b * b ≤ a ∧ a < (fdiv a b + 1) * b := by
  rw [fdiv, Int.fdiv_eq_ediv_of_nonneg a hb.le]
  exact ⟨Int.ediv_mul_le a hb.ne', Int.lt_ediv_add_one_mul_self a hb⟩

/-- A negative divisor: the quotient is that of the two opposites. -/
theorem fdiv_bounds_of_neg {a b : Int} (hb : b < 0) : a ≤ fdiv a b * b ∧ (fdiv a b + 1) * b < a := by
  obtain ⟨hle, hlt⟩ := fdiv_bounds_of_pos (a := -a) (b := -b) (by omega)
  have hneg : fdiv (-a) (-b) = fdiv a b := Int.neg_fdiv_neg a b
  rw [hneg] at hle hlt
  constructor <;> linarith

theorem divZeroFlag_word (w : Word) : divZeroFlag w.toInt = decide (w = 0) :=
  decide_eq_decide.mpr (BitVec.toInt_inj (y := 0#32))

/-! ### Saturation that changes nothing -/

theorem sat16_eq_self (sym : Bool) {v : Int} (h1 : -32767 ≤ v) (h2 : v ≤ 32767) : sat16 sym v = v := by
  unfold sat16 clamp lo16 hi16; split <;> omega

/-- With the default bounds every int16 is kept (00_scope.md R14). -/
theorem sat16_default_eq_self {v : Int} (h1 : -32768 ≤ v) (h2 : v ≤ 32767) : sat16 false v = v := by
  simp only [sat16, clamp, lo16, hi16, Bool.false_eq_true, if_false]
  omega

/-! ### Round trips -/

theorem narrowRaw_eq_div (v : Int) : narrowRaw v = (v + 32768) / 65536 := asr_eq_div _ 16

theorem narrowRaw_widen (x : Int) : narrowRaw (widen x) = x := by
  rw [narrowRaw_eq_div, widen]
  omega

/-- Settles O49: `narrow` has `x` as its raw value after `widen`, and rounds to the nearest multiple of 2^16. -/
theorem formatRoundTrips : Obligations.FormatRoundTrips := by
  refine ⟨fun x hlo hhi => ?_, fun v hlo hhi => ?_⟩
  · have hkeep := sat16_default_eq_self hlo hhi
    rw [narrow, satFlag16, narrowRaw_widen, hkeep]
    exact ⟨rfl, decide_eq_false (not_not.mpr rfl)⟩
  · have hraw := narrowRaw_eq_div v
    rw [narrow, sat16_default_eq_self (by omega) (by omega), widen]
    omega

/-! ### The gain of a bin -/

/-- A part of a power, in units of 1/512 of it (45_noise_suppressor.md R268). -/
theorem unit_quotient {m p : Int} (hp : 0 < p) (hm : 0 ≤ m) (hmp : m ≤ p) :
    0 ≤ m * 512 / p ∧ m * 512 / p ≤ 512 ∧ (m * 512 / p = 512 ↔ m = p) := by
  have hle : m * 512 / p ≤ 512 := Int.ediv_le_of_le_mul hp (by omega)
  have hge : 512 ≤ m * 512 / p ↔ p ≤ m := by rw [Int.le_ediv_iff_mul_le hp]; omega
  exact ⟨Int.ediv_nonneg (by omega) hp.le, hle, by omega⟩

/-- The quotient of a part of a positive power needs no saturation. -/
theorem divg_of_le (sym : Bool) {m p : Int} (hp : 0 < p) (hm : 0 ≤ m) (hmp : m ≤ p) :
    divg sym m p = m * 512 / p := by
  obtain ⟨hlo, hhi, -⟩ := unit_quotient hp hm hmp
  rw [divg, divgRaw, fdiv, Int.fdiv_eq_ediv_of_nonneg _ hp.le, sat16_eq_self sym (by omega) (by omega)]

/-- Settles O36: the clamped numerator is a part of the power, and the whole of it exactly when nothing is subtracted,
since the power exceeds the floor. -/
theorem gainAtMostUnity : Obligations.GainAtMostUnity := by
  intro sym cfg p est hfloor hover hest hp
  refine ⟨fun hle => if_neg hle.not_gt, fun hlt => ?_⟩
  have hsub : 0 ≤ cfg.oversub * est / 512 := Int.ediv_nonneg (mul_nonneg hover hest) (by norm_num)
  have hp0 : 0 < p := by omega
  have hm : 0 ≤ max (p - cfg.oversub * est / 512) cfg.floor := by omega
  have hmp : max (p - cfg.oversub * est / 512) cfg.floor ≤ p := by omega
  have hgain : binGain sym cfg p est = max (p - cfg.oversub * est / 512) cfg.floor * 512 / p := by
    rw [binGain, if_pos hlt, asr_eq_div]
    exact divg_of_le sym hp0 hm hmp
  obtain ⟨hlo, hhi, hunit⟩ := unit_quotient hp0 hm hmp
  rw [hgain]
  exact ⟨rfl, hlo, hhi, hunit.trans (by omega)⟩

end Sys2Proof.Machine
end

section
/-! PROOFS. The ALU commands (40_qformat_alu.md R110 to R129): the words of the functions, and what each command
writes. -/

namespace Sys2Proof.Machine

/-! ### Write-backs of saturated results -/

/-- A result saturated to 16 bits and its flag, written back. -/
theorem aluResult_sat16_wrote (s : State) (v : Int) (dz : Bool) :
    ∃ t, aluResult (sat16 s.sym v) (satFlag16 s.sym v) dz s = .next t ∧
      AluWrote s t (bounded s.low16 32767 v) (outside s.low16 32767 v) dz := by
  obtain ⟨hlo, hhi⟩ := sat16_mem s.sym v
  rw [← sat16_eq_bounded, ← satFlag16_eq_outside]
  exact aluResult_wrote _ _ _ s (by omega) (by omega)

/-- A result saturated to 32 bits and its flag, written back. -/
theorem aluResult_sat32_wrote (s : State) (v : Int) (dz : Bool) :
    ∃ t, aluResult (sat32 s.sym v) (satFlag32 s.sym v) dz s = .next t ∧
      AluWrote s t (bounded s.low32 (2 ^ 31 - 1) v) (outside s.low32 (2 ^ 31 - 1) v) dz := by
  obtain ⟨hlo, hhi⟩ := sat32_mem s.sym v
  rw [← sat32_eq_bounded, ← satFlag32_eq_outside]
  exact aluResult_wrote _ _ _ s (by omega) (by omega)

/-- SAT of a 16-bit result with the default bounds (00_scope.md R14). -/
theorem AluWrote.sat16_iff {s t : State} {r v : Int} {dz : Bool} (h : AluWrote s t r (outside s.low16 32767 v) dz)
    (hsym : s.params.symSat = false) : t.aluSat = true ↔ v < -32768 ∨ 32767 < v := by
  obtain ⟨-, hsat, -⟩ := h
  simp [hsat, outside, State.low16, hsym]

/-- SAT of a 32-bit result with the default bounds (00_scope.md R14). -/
theorem AluWrote.sat32_iff {s t : State} {r v : Int} {dz : Bool}
    (h : AluWrote s t r (outside s.low32 (2 ^ 31 - 1) v) dz) (hsym : s.params.symSat = false) :
    t.aluSat = true ↔ v < -(2 ^ 31) ∨ 2 ^ 31 - 1 < v := by
  obtain ⟨-, hsat, -⟩ := h
  simp [hsat, outside, State.low32, hsym]

/-! ### The commands -/

/-- Settles O40: both commands saturate the 64-bit operand. -/
theorem saturateCommands : Obligations.SaturateCommands :=
  ⟨rfl, rfl, fun s => ⟨aluResult_sat16_wrote s s.regs.opA false, aluResult_sat32_wrote s s.regs.opA false⟩⟩

theorem execWiden_wrote (s : State) :
    ∃ t, exec .widen s = .next t ∧
      AluWrote s t ((s.regs.aluALo.extractLsb' 0 16).toInt * 2 ^ 16) false false := by
  have hwiden : widen s.regs.opa16 = (s.regs.aluALo.extractLsb' 0 16).toInt * 2 ^ 16 := by
    norm_num [widen, Regs.opa16]
  obtain ⟨hlo, hhi⟩ := half_toInt_mem (s.regs.aluALo.extractLsb' 0 16)
  rw [← hwiden]
  exact aluResult_wrote (widen s.regs.opa16) false false s (by omega) (by omega)

theorem execNarrow_wrote (s : State) :
    ∃ t, exec .narrow s = .next t ∧
      AluWrote s t (bounded s.low16 32767 ((s.regs.aluALo.toInt + 2 ^ 15) / 2 ^ 16))
        (outside s.low16 32767 ((s.regs.aluALo.toInt + 2 ^ 15) / 2 ^ 16)) false ∧
      (s.params.symSat = false → (t.aluSat = true ↔ 0x7FFF8000 ≤ s.regs.aluALo.toInt)) := by
  obtain ⟨t, hexec, hwrote⟩ := aluResult_sat16_wrote s (narrowRaw s.regs.opa) false
  have hraw : narrowRaw s.regs.opa = (s.regs.aluALo.toInt + 2 ^ 15) / 2 ^ 16 := asr_eq_div _ 16
  obtain ⟨hlo, hhi⟩ := word_toInt_mem s.regs.aluALo
  rw [hraw] at hwrote
  exact ⟨t, hexec, hwrote, fun hsym => (hwrote.sat16_iff hsym).trans (by omega)⟩

/-- Settles O41: WIDEN is exact, and NARROW rounds and saturates once. -/
theorem convertCommands : Obligations.ConvertCommands :=
  ⟨rfl, rfl, fun s => ⟨execWiden_wrote s, execNarrow_wrote s⟩⟩

theorem execMulq15_wrote (s : State) :
    ∃ t, exec .mulq15 s = .next t ∧
      AluWrote s t (bounded s.low16 32767 (s.regs.opa16 * s.regs.opb16 / 2 ^ 15))
        (outside s.low16 32767 (s.regs.opa16 * s.regs.opb16 / 2 ^ 15)) false ∧
      (s.params.symSat = false → (t.aluSat = true ↔ s.regs.opa16 = -32768 ∧ s.regs.opb16 = -32768)) := by
  obtain ⟨t, hexec, hwrote⟩ := aluResult_sat16_wrote s (mulq15Raw s.regs.opa16 s.regs.opb16) false
  have hraw : mulq15Raw s.regs.opa16 s.regs.opb16 = s.regs.opa16 * s.regs.opb16 / 2 ^ 15 := asr_eq_div _ 15
  obtain ⟨hal, hah⟩ := half_toInt_mem (s.regs.aluALo.extractLsb' 0 16)
  obtain ⟨hbl, hbh⟩ := half_toInt_mem (s.regs.aluBLo.extractLsb' 0 16)
  rw [hraw] at hwrote
  exact ⟨t, hexec, hwrote, fun hsym => (hwrote.sat16_iff hsym).trans
    (scaled_product_outside_iff (n := 2 ^ 15) ⟨hal, Int.lt_add_one_of_le hah⟩ ⟨hbl, Int.lt_add_one_of_le hbh⟩)⟩

theorem execMulq31_wrote (s : State) :
    ∃ t, exec .mulq31 s = .next t ∧
      AluWrote s t (bounded s.low32 (2 ^ 31 - 1) (s.regs.opa * s.regs.opb / 2 ^ 31))
        (outside s.low32 (2 ^ 31 - 1) (s.regs.opa * s.regs.opb / 2 ^ 31)) false ∧
      (s.params.symSat = false → (t.aluSat = true ↔ s.regs.opa = -(2 ^ 31) ∧ s.regs.opb = -(2 ^ 31))) := by
  obtain ⟨t, hexec, hwrote⟩ := aluResult_sat32_wrote s (mulq31Raw s.regs.opa s.regs.opb) false
  have hraw : mulq31Raw s.regs.opa s.regs.opb = s.regs.opa * s.regs.opb / 2 ^ 31 := asr_eq_div _ 31
  obtain ⟨hal, hah⟩ := word_toInt_mem s.regs.aluALo
  obtain ⟨hbl, hbh⟩ := word_toInt_mem s.regs.aluBLo
  rw [hraw] at hwrote
  exact ⟨t, hexec, hwrote, fun hsym => (hwrote.sat32_iff hsym).trans
    (scaled_product_outside_iff ⟨hal, Int.lt_add_one_of_le hah⟩ ⟨hbl, Int.lt_add_one_of_le hbh⟩)⟩

theorem execMulw_wrote (s : State) :
    ∃ t, exec .mulw s = .next t ∧ AluWrote s t (s.regs.aluALo.toInt * s.regs.aluBLo.toInt) false false := by
  obtain ⟨hlo, hhi⟩ := word_mul_mem s.regs.aluALo s.regs.aluBLo
  exact aluResult_wrote _ false false s hlo hhi

/-- Settles O42: each command by its own lemma. -/
theorem multiplyCommands : Obligations.MultiplyCommands :=
  ⟨rfl, rfl, rfl, fun s => ⟨execMulq15_wrote s, execMulq31_wrote s, execMulw_wrote s⟩⟩

/-- Settles O43: the raw values are the exact sum and difference, floored once. -/
theorem multiplyAccumulateCommands : Obligations.MultiplyAccumulateCommands := by
  refine ⟨rfl, rfl, fun s => ⟨?_, ?_⟩⟩
  · have h := aluResult_sat32_wrote s (mac2Raw s.regs.opa s.regs.opb s.regs.opc s.regs.opd) false
    rwa [mac2Raw, asr_eq_div] at h
  · have h := aluResult_sat32_wrote s (msu2Raw s.regs.opa s.regs.opb s.regs.opc s.regs.opd) false
    rwa [msu2Raw, asr_eq_div] at h

/-- Settles O44: three 32-bit saturations of exact values. -/
theorem wideAddCommands : Obligations.WideAddCommands :=
  ⟨rfl, rfl, rfl, fun s =>
    ⟨aluResult_sat32_wrote s (s.regs.opa + s.regs.opb) false, aluResult_sat32_wrote s (s.regs.opa - s.regs.opb) false,
      aluResult_sat32_wrote s (-s.regs.opa) false⟩⟩

/-- Settles O45: two 16-bit saturations of exact values. -/
theorem narrowAddCommands : Obligations.NarrowAddCommands :=
  ⟨rfl, rfl, fun s =>
    ⟨aluResult_sat16_wrote s (s.regs.opa16 + s.regs.opb16) false,
      aluResult_sat16_wrote s (s.regs.opa16 - s.regs.opb16) false⟩⟩

/-- The words of the shifting functions, for every shift amount SHAMT holds (30_encoding.md R84, R85). -/
theorem encode_shift (n : Nat) (hn : n ≤ 31) :
    encode (.asr32 n) = BitVec.ofNat 32 (0x00000F10 + n * 2 ^ 16) ∧
    encode (.shls32 n) = BitVec.ofNat 32 (0x00001010 + n * 2 ^ 16) := by
  interval_cases n <;> decide

theorem execAsr32_wrote (n : Nat) (s : State) :
    ∃ t, exec (.asr32 n) s = .next t ∧ AluWrote s t (s.regs.aluALo.toInt / 2 ^ n) false false := by
  obtain ⟨hlo, hhi⟩ := ediv_mem_of_mem (by omega) (by omega) (word_toInt_mem s.regs.aluALo) (d := 2 ^ n)
    (by positivity)
  rw [← asr_eq_div] at hlo hhi ⊢
  exact aluResult_wrote (asr s.regs.aluALo.toInt n) false false s (by omega) (by omega)

theorem execShls32_wrote (n : Nat) (s : State) :
    ∃ t, exec (.shls32 n) s = .next t ∧
      AluWrote s t (bounded s.low32 (2 ^ 31 - 1) (s.regs.aluALo.toInt * 2 ^ n))
        (outside s.low32 (2 ^ 31 - 1) (s.regs.aluALo.toInt * 2 ^ n)) false := by
  have hraw : shls32Raw s.regs.opa n = s.regs.aluALo.toInt * 2 ^ n := by
    rw [shls32Raw, Nat.cast_pow, Nat.cast_ofNat, Regs.opa]
  rw [← hraw]
  exact aluResult_sat32_wrote s (shls32Raw s.regs.opa n) false

/-- Settles O46: the words by the shift amounts SHAMT holds, the results for every amount. -/
theorem shiftCommands : Obligations.ShiftCommands := by
  intro s n hn
  obtain ⟨hasr, hshls⟩ := encode_shift n hn
  exact ⟨hasr, hshls, execAsr32_wrote n s, execShls32_wrote n s⟩

theorem execMulg_wrote (s : State) :
    ∃ t, exec .mulg s = .next t ∧
      AluWrote s t
        (bounded s.low32 (2 ^ 31 - 1) (s.regs.aluALo.toInt * (s.regs.aluBLo.toNat % 65536 : Nat) / 512))
        (outside s.low32 (2 ^ 31 - 1) (s.regs.aluALo.toInt * (s.regs.aluBLo.toNat % 65536 : Nat) / 512)) false := by
  have hgain : s.regs.opbu16 = (s.regs.aluBLo.toNat % 65536 : Nat) := by
    rw [Regs.opbu16, BitVec.extractLsb'_toNat, Nat.shiftRight_zero]
  have hraw : mulgRaw s.regs.opa s.regs.opbu16 = s.regs.aluALo.toInt * (s.regs.aluBLo.toNat % 65536 : Nat) / 512 := by
    rw [mulgRaw, asr_eq_div, hgain]
    rfl
  rw [← hraw]
  exact aluResult_sat32_wrote s (mulgRaw s.regs.opa s.regs.opbu16) false

theorem execDivg_zero_wrote (s : State) (hb : s.regs.aluBLo = 0) :
    ∃ t, exec .divg s = .next t ∧ AluWrote s t 0 false true := by
  have hexec : exec .divg s = aluResult 0 false true s :=
    if_pos (by rw [Regs.opb, divZeroFlag_word, hb]; rfl)
  rw [hexec]
  exact aluResult_wrote 0 false true s (by omega) (by omega)

theorem execDivg_ne_zero_wrote (s : State) (hb : s.regs.aluBLo ≠ 0) :
    ∃ t, exec .divg s = .next t ∧
      AluWrote s t (bounded s.low16 32767 (fdiv (s.regs.opa * 512) s.regs.opb))
        (outside s.low16 32767 (fdiv (s.regs.opa * 512) s.regs.opb)) false := by
  have hexec : exec .divg s =
      aluResult (divg s.sym s.regs.opa s.regs.opb) (satFlag16 s.sym (divgRaw s.regs.opa s.regs.opb)) false s :=
    if_neg (by rw [Regs.opb, divZeroFlag_word, decide_eq_true_eq]; exact hb)
  rw [hexec]
  exact aluResult_sat16_wrote s (divgRaw s.regs.opa s.regs.opb) false

/-- Settles O47: DIVG by its divisor, and its quotient by the divisor's sign. -/
theorem gainCommands : Obligations.GainCommands := by
  refine ⟨rfl, rfl, fun s => ⟨execMulg_wrote s, execDivg_zero_wrote s, fun hb => ?_⟩⟩
  obtain ⟨t, hexec, hwrote⟩ := execDivg_ne_zero_wrote s hb
  exact ⟨t, _, hexec, hwrote, fdiv_bounds_of_pos, fdiv_bounds_of_neg⟩

/-- The bound of POWQ31 clamps exactly the sums above MAXPOW (40_qformat_alu.md R103, R129). -/
theorem satFlagPow_eq (raw : Int) : satFlagPow raw = decide (2 ^ 31 - 1 < raw) :=
  decide_eq_decide.mpr (by unfold maxPow; omega)

/-- Settles O48: a bounded sum of floored squares. -/
theorem powerCommand : Obligations.PowerCommand := by
  refine ⟨rfl, fun s => ?_⟩
  obtain ⟨hnonneg, hmax⟩ := powq31_range s.regs.opa s.regs.opb
  obtain ⟨t, hexec, hwrote⟩ := aluResult_wrote (powq31 s.regs.opa s.regs.opb)
    (satFlagPow (powq31Raw s.regs.opa s.regs.opb)) false s (by omega) (by omega)
  have hraw : powq31Raw s.regs.opa s.regs.opb =
      s.regs.aluALo.toInt * s.regs.aluALo.toInt / 2 ^ 31 + s.regs.aluBLo.toInt * s.regs.aluBLo.toInt / 2 ^ 31 := by
    rw [powq31Raw, asr_eq_div, asr_eq_div, Regs.opa, Regs.opb]
  rw [satFlagPow_eq, hraw] at hwrote
  exact ⟨t, _, hexec, hwrote, by rw [powq31, hraw]; rfl, hnonneg⟩

end Sys2Proof.Machine
end

section
/-! PROOFS. The lifecycle commands INIT, RESET and FREE case by case (41_lifecycle.md R165, R175, R177), and the codes
of every command (60_exceptions.md R315). -/

namespace Sys2Proof.Machine

/-! ### INIT, check by check -/

section InitChecks

variable {s : State}

theorem initNull_iff (s : State) : s.regs.initNull = true ↔
    (s.readReg 0x030 = 0 ∨ s.readReg 0x034 = 0 ∨ s.readReg 0x038 = 0 ∨ s.readReg 0x03C = 0) := decide_eq_true_iff

theorem configRefused_iff (s : State) : (!validConfig s.params s.regs) = true ↔ ¬ ConfigValid s := by
  rw [← validConfig_iff, Bool.not_eq_true', Bool.not_eq_true]

theorem scratchTooSmall_iff (s : State) :
    s.regs.scratchSize.toNat < s.regs.scratchBytes ↔ (s.readReg 0x040).toNat < s.scratchNeed := by
  rw [scratchNeed_eq]; rfl

theorem regionsRefused_iff (s : State) : (!initRegionsOk s.params s.regs) = true ↔ ¬ TablesPlaced s := by
  rw [← initRegionsOk_iff, Bool.not_eq_true', Bool.not_eq_true]

theorem execInit_freed (hf : s.estate = .freed) : execInit s = .next (s.failed .notInitialised) := if_pos hf

variable (hf : s.estate ≠ .freed)
include hf

theorem execInit_null (hn : s.regs.initNull = true) : execInit s = .next (s.failed .nullArg) := by
  rw [execInit, if_neg hf, if_pos hn]; rfl

variable (hn : ¬ s.regs.initNull = true)
include hn

theorem execInit_invalid (hv : ¬ ConfigValid s) : execInit s = .next (s.failed .invalidConfig) := by
  rw [execInit, if_neg hf, if_neg hn, if_pos ((configRefused_iff s).mpr hv)]; rfl

variable (hv : ConfigValid s)
include hv

theorem execInit_small (hsz : (s.readReg 0x040).toNat < s.scratchNeed) :
    execInit s = .next (s.failed .scratchTooSmall) := by
  rw [execInit, if_neg hf, if_neg hn, if_neg (mt (configRefused_iff s).mp (not_not.mpr hv)),
    if_pos ((scratchTooSmall_iff s).mpr hsz)]
  rfl

variable (hsz : s.scratchNeed ≤ (s.readReg 0x040).toNat)
include hsz

theorem execInit_badRegion (hr : ¬ TablesPlaced s) : execInit s = .next (s.failed .badRegion) := by
  rw [execInit, if_neg hf, if_neg hn, if_neg (mt (configRefused_iff s).mp (not_not.mpr hv)),
    if_neg (mt (scratchTooSmall_iff s).mp (Nat.not_lt.mpr hsz)), if_pos ((regionsRefused_iff s).mpr hr)]
  rfl

theorem execInit_passes (hr : TablesPlaced s) : execInit s = .next (initEffect s) := by
  rw [execInit, if_neg hf, if_neg hn, if_neg (mt (configRefused_iff s).mp (not_not.mpr hv)),
    if_neg (mt (scratchTooSmall_iff s).mp (Nat.not_lt.mpr hsz)),
    if_neg (mt (regionsRefused_iff s).mp (not_not.mpr hr))]

end InitChecks

/-- A register of `n` stored bits, none of them above bit 31, reads back whole in its field. -/
theorem field_of_readReg {n : Nat} (s : State) (off : Nat) (v : BitVec n) (hn : n ≤ 32)
    (h : s.readReg off = v.setWidth 32) : s.field off 0 n = v.toNat := by
  rw [State.field, h, BitVec.toNat_setWidth_of_le hn, pow_zero, Nat.div_one, Nat.mod_eq_of_lt v.isLt]

/-- The latch copies each register's field as the host reads it (10_state.md R44). -/
theorem actLatched_latch (s : State) : ActLatched s s.regs.latch := by
  have hframe := field_frameLen s
  have hhop := field_hopLen s
  have hchan := field_chan s
  have hpe := field_of_readReg s 0x020 s.regs.peAlpha (by omega) rfl
  have hover := field_of_readReg s 0x024 s.regs.nsOversub (by omega) rfl
  have hfloor := field_of_readReg s 0x028 s.regs.nsFloor (by omega) rfl
  have hmin := field_of_readReg s 0x02C s.regs.nsMintrack (by omega) rfl
  exact ⟨hframe.symm, hhop.symm, hchan.symm, (readReg_ctrl_bit s 0).symm, (readReg_ctrl_bit s 2).symm,
    (readReg_ctrl_bit s 3).symm, (readReg_ctrl_bit s 5).symm, rfl, rfl, hpe.symm, hover.symm, hfloor.symm, hmin.symm,
    rfl, rfl, rfl, rfl, hframe.symm, hhop.symm, hchan.symm⟩

/-- Settles O17: one equation of INIT for each check, in their order. -/
theorem initFollowsItsChecks : Obligations.InitFollowsItsChecks := by
  refine ⟨rfl, fun s => ⟨execInit_freed, fun hf => ⟨fun hnull => execInit_null hf ((initNull_iff s).mpr hnull), ?_⟩⟩⟩
  intro hwin htwc htws hscr
  have hn : ¬ s.regs.initNull = true := fun hnull => by
    obtain h | h | h | h := (initNull_iff s).mp hnull
    · exact hwin h
    · exact htwc h
    · exact htws h
    · exact hscr h
  refine ⟨execInit_invalid hf hn, fun hv => ⟨execInit_small hf hn hv, fun hsz => ⟨?_, fun hr => ?_⟩⟩⟩
  · exact execInit_badRegion hf hn hv hsz
  · exact ⟨s.regs.latch, actLatched_latch s, execInit_passes hf hn hv hsz hr⟩

/-! ### RESET and FREE -/

theorem execReset_ready {s : State} (hr : s.estate = .ready) :
    execReset s = .next (State.finish .ok s.postInitValues) := by
  rw [execReset, if_neg (not_not.mpr hr)]

theorem execReset_notReady {s : State} (hr : s.estate ≠ .ready) : execReset s = .next (s.failed .notInitialised) :=
  if_pos hr

theorem execFree_freed {s : State} (hf : s.estate = .freed) : execFree s = .next (s.failed .notInitialised) :=
  if_pos hf

theorem execFree_notFreed {s : State} (hf : s.estate ≠ .freed) :
    execFree s = .next (State.finish .ok { s with estate := .freed }) := if_neg hf

/-- Settles O20: the post-init values are written once more by a second RESET. -/
theorem resetRestoresPostInit : Obligations.ResetRestoresPostInit :=
  ⟨rfl, fun s => ⟨fun hr => ⟨State.finish .ok s.postInitValues, execReset_ready hr, rfl,
    execReset_ready (s := State.finish .ok s.postInitValues) hr⟩, execReset_notReady⟩⟩

/-- Settles O21: the state after a FREE is FREED, where a second FREE is an error. -/
theorem freeOnlyChangesEngineState : Obligations.FreeOnlyChangesEngineState :=
  ⟨rfl, fun s => ⟨fun hf => ⟨State.finish .ok { s with estate := .freed }, execFree_notFreed hf, rfl,
    execFree_freed (s := State.finish .ok { s with estate := .freed }) rfl⟩, execFree_freed⟩⟩

/-! ### PROCESS_HOP outside READY -/

theorem execProcessHop_notReady {s : State} (hr : s.estate ≠ .ready) :
    execProcessHop s = .next (s.failed .notInitialised) := if_pos hr

/-! ### The codes of each command -/

theorem codesOf_init_freed : codesOf .init .freed = [.notInitialised] := rfl

theorem codesOf_init {e : EState} (he : e ≠ .freed) :
    codesOf .init e = [.nullArg, .invalidConfig, .scratchTooSmall, .badRegion, .ok] := if_neg he

theorem codesOf_processHop_ready : codesOf .processHop .ready = [.nullArg, .badRegion, .ok] := rfl

theorem codesOf_processHop {e : EState} (he : e ≠ .ready) : codesOf .processHop e = [.notInitialised] := if_neg he

theorem codesOf_reset_ready : codesOf .reset .ready = [.ok] := rfl

theorem codesOf_reset {e : EState} (he : e ≠ .ready) : codesOf .reset e = [.notInitialised] := if_neg he

theorem codesOf_free_freed : codesOf .free .freed = [.notInitialised] := rfl

theorem codesOf_free {e : EState} (he : e ≠ .freed) : codesOf .free e = [.ok] := if_neg he

/-- Outside FREED every code of INIT's row is one of its checks (41_lifecycle.md R165). -/
theorem execInit_code (s t : State) (h : execInit s = .next t) : t.lastStatus ∈ codesOf .init s.estate := by
  by_cases hf : s.estate = .freed
  · cases (execInit_freed hf).symm.trans h
    rw [hf, codesOf_init_freed, State.failed_lastStatus]
    exact List.mem_singleton_self _
  rw [codesOf_init hf]
  by_cases hn : s.regs.initNull = true
  · cases (execInit_null hf hn).symm.trans h
    simp
  by_cases hv : ConfigValid s
  · obtain hsz | hsz := Nat.lt_or_ge (s.readReg 0x040).toNat s.scratchNeed
    · cases (execInit_small hf hn hv hsz).symm.trans h
      simp
    · by_cases hr : TablesPlaced s
      · cases (execInit_passes hf hn hv hsz hr).symm.trans h
        simp [initEffect]
      · cases (execInit_badRegion hf hn hv hsz hr).symm.trans h
        simp
  · cases (execInit_invalid hf hn hv).symm.trans h
    simp

/-- In READY a hop reports its two failing checks or OK, raced or not (46_synthesis_hop.md R300). -/
theorem execProcessHop_code (s t : State) (h : execProcessHop s = .next t) :
    t.lastStatus ∈ codesOf .processHop s.estate := by
  by_cases hr : s.estate = .ready
  · rw [hr, codesOf_processHop_ready]
    rw [execProcessHop, if_neg (not_not.mpr hr)] at h
    split at h
    · cases h; simp
    split at h
    · cases h; simp
    split at h
    · cases h
    split at h
    · cases h; simp [hopRaced]
    · cases h; simp [hopEffect]
  · cases (execProcessHop_notReady hr).symm.trans h
    rw [codesOf_processHop hr, State.failed_lastStatus]
    exact List.mem_singleton_self _

theorem execReset_code (s t : State) (h : execReset s = .next t) : t.lastStatus ∈ codesOf .reset s.estate := by
  obtain ⟨hr, rfl⟩ | ⟨hr, rfl⟩ := execReset_cases s t h
  · rw [codesOf_reset hr]
    exact List.mem_singleton_self _
  · rw [hr, codesOf_reset_ready]
    exact List.mem_singleton_self _

theorem execFree_code (s t : State) (h : execFree s = .next t) : t.lastStatus ∈ codesOf .free s.estate := by
  obtain ⟨hf, rfl⟩ | ⟨hf, rfl⟩ := execFree_cases s t h
  · rw [hf, codesOf_free_freed]
    exact List.mem_singleton_self _
  · rw [codesOf_free hf]
    exact List.mem_singleton_self _

/-- An ALU command is one write-back: it reports OK and stays in its ESTATE (40_qformat_alu.md R110). -/
theorem exec_alu_next (i : Instr) (hi : i ∉ engineCommands) (s : State) :
    ∃ t, exec i s = .next t ∧ t.lastStatus = .ok ∧ t.estate = s.estate := by
  obtain ⟨r, sat, dz, h⟩ := exec_alu i hi s
  exact ⟨_, h, rfl, rfl⟩

theorem codesOf_alu (i : Instr) (hi : i ∉ engineCommands) (e : EState) : codesOf i e = [.ok] := by
  cases i with
  | init => exact absurd (by decide) hi
  | processHop => exact absurd (by decide) hi
  | reset => exact absurd (by decide) hi
  | free => exact absurd (by decide) hi
  | _ => rfl

/-- Settles O15: the engine commands one by one, and the write-back of every other. -/
theorem commandsReportTheirCodes : Obligations.CommandsReportTheirCodes := by
  intro i s t h
  by_cases hi : i ∈ engineCommands
  · simp only [engineCommands, List.mem_cons, List.not_mem_nil, or_false] at hi
    obtain rfl | rfl | rfl | rfl := hi
    · exact execInit_code s t h
    · exact execProcessHop_code s t h
    · exact execReset_code s t h
    · exact execFree_code s t h
  · obtain ⟨u, hu, hok, -⟩ := exec_alu_next i hi s
    cases hu.symm.trans h
    rw [codesOf_alu i hi, hok]
    exact List.mem_singleton_self _

end Sys2Proof.Machine
end

section
/-! PROOFS. FREED is terminal (41_lifecycle.md R178): no command and, but for a power-on reset, no host
operation leaves it. -/

namespace Sys2Proof.Machine

/-! ### ESTATE under the host's operations -/

theorem busRead_estate (addr : Nat) (size : AccessSize) (s : State) : (busRead addr size s).estate = s.estate := by
  unfold busRead
  split
  · rfl
  · split
    · dsimp only
      split <;> rfl
    · rfl

theorem writeReg_estate (off : Nat) (v : Word) (s : State) : (s.writeReg off v).estate = s.estate := by
  unfold State.writeReg
  split
  · unfold State.writeStatus
    split <;> rfl
  · split
    · unfold State.writeCmd
      split <;> rfl
    · rfl

theorem writeDmem_estate (a : Nat) (size : AccessSize) (v : Word) (s : State) :
    (s.writeDmem a size v).estate = s.estate := by
  unfold State.writeDmem
  dsimp only
  split <;> rfl

theorem busWrite_estate (addr : Nat) (size : AccessSize) (v : Word) (s : State) :
    (busWrite addr size v s).estate = s.estate := by
  unfold busWrite
  split
  · rfl
  · rename_i target _
    split
    · rw [State.respond_estate]
      cases target with
      | register off => exact writeReg_estate off v s
      | stateWindow off => rfl
      | dmem off => exact writeDmem_estate off size v s
    · rfl

/-- Only a power-on reset changes ESTATE from the bus side (41_lifecycle.md R160). -/
theorem hostOp_estate (op : HostOp) (hop : op ≠ .por) (s : State) : (hostOp op s).estate = s.estate := by
  cases op with
  | read addr size => exact busRead_estate addr size s
  | write addr size v => exact busWrite_estate addr size v s
  | wait => rfl
  | por => exact absurd rfl hop

/-! ### Commands in FREED -/

theorem exec_engine_freed (i : Instr) (hi : i ∈ engineCommands) {s : State} (hf : s.estate = .freed) :
    exec i s = .next (s.failed .notInitialised) := by
  have hr : s.estate ≠ .ready := by simp [hf]
  simp only [engineCommands, List.mem_cons, List.not_mem_nil, or_false] at hi
  obtain rfl | rfl | rfl | rfl := hi
  · exact execInit_freed hf
  · exact execProcessHop_notReady hr
  · exact execReset_notReady hr
  · exact execFree_freed hf

theorem exec_stays_freed (i : Instr) {s t : State} (hf : s.estate = .freed) (h : exec i s = .next t) :
    t.estate = .freed := by
  by_cases hi : i ∈ engineCommands
  · cases (exec_engine_freed i hi hf).symm.trans h
    exact hf
  · obtain ⟨u, hu, -, he⟩ := exec_alu_next i hi s
    cases hu.symm.trans h
    exact he.trans hf

theorem engineMove_stays_freed (r : Running) {s t : State} (hf : s.estate = .freed) (h : engineMove r s = .next t) :
    t.estate = .freed := by
  obtain ⟨-, -, rfl⟩ | ⟨i, u, -, hu, rfl⟩ := engineMove_cases r s t h
  · exact hf
  · have hkept : u.estate = .freed := exec_stays_freed i (s := State.withSnapshot r s) hf hu
    exact hkept

/-- Settles O16: the engine keeps FREED, and so does every host operation but a power-on reset. -/
theorem freedIsTerminal : Obligations.FreedIsTerminal := by
  refine fun s hf => ⟨fun i hi => exec_engine_freed i hi hf, fun i hi => ?_, fun t hstep hleft => ?_⟩
  · obtain ⟨t, h, hok, he⟩ := exec_alu_next i hi s
    exact ⟨t, h, hok, he.trans hf⟩
  · obtain ⟨r, -, hmove⟩ | ⟨op, rest, hhost, rfl⟩ | ⟨-, -, rfl⟩ := step_cases s t hstep
    · exact absurd (engineMove_stays_freed r hf hmove) hleft
    · by_cases hop : op = .por
      · subst hop
        exact ⟨by rw [hhost]; rfl, powerOnReset_estate _⟩
      · have hkept : (hostMove op rest s).estate = s.estate := hostOp_estate op hop _
        exact absurd (hkept.trans hf) hleft
    · exact absurd hf hleft

end Sys2Proof.Machine
end

section
/-! PROOFS. The channels of a hop over DMEM and the state window: what a channel writes of the scratch (41_lifecycle.md
R170), what it leaves alone, and so what each channel of a hop computes from the state before the hop
(42_prefilters.md R199, 46_synthesis_hop.md R300, R302). -/

namespace Sys2Proof.Machine

/-! ### Runs of DMEM elements read back whole -/

theorem rdI16s_wrI16s (m : Memory) (a n : Nat) (vs : List Int) (hn : vs.length = n)
    (hm : m.Pairwise (fun x y => x.1 < y.1)) (hvs : ∀ v ∈ vs, -32768 ≤ v ∧ v ≤ 32767) :
    rdI16s (wrI16s m a vs) a n = vs := by
  subst hn
  refine List.ext_getElem (by simp) fun i h1 h2 => ?_
  obtain ⟨hlo, hhi⟩ := hvs _ (List.getElem_mem h2)
  simp only [rdI16s, List.getElem_map, List.getElem_range]
  rw [rdI16_wrI16s vs m a i hm h2, toInt_ofInt16 _ hlo hhi]

theorem rdI32s_wrI32s (m : Memory) (a n : Nat) (vs : List Int) (hn : vs.length = n)
    (hm : m.Pairwise (fun x y => x.1 < y.1)) (hvs : ∀ v ∈ vs, -2147483648 ≤ v ∧ v ≤ 2147483647) :
    rdI32s (wrI32s m a vs) a n = vs := by
  subst hn
  refine List.ext_getElem (by simp) fun i h1 h2 => ?_
  obtain ⟨hlo, hhi⟩ := hvs _ (List.getElem_mem h2)
  simp only [rdI32s, List.getElem_map, List.getElem_range]
  rw [rdI32_wrI32s vs m a i hm h2, toInt_ofInt32 _ hlo hhi]

/-! ### Memories that agree outside a region -/

/-- The two memories hold the same bytes outside the region. -/
def AgreeOutside (g : Region) (m m' : Memory) : Prop := ∀ b, g.has b = false → Memory.byte m' b = Memory.byte m b

theorem AgreeOutside.refl (g : Region) (m : Memory) : AgreeOutside g m m := fun _ _ => rfl

theorem AgreeOutside.trans {g : Region} {m m' m'' : Memory} (h : AgreeOutside g m m') (h' : AgreeOutside g m' m'') :
    AgreeOutside g m m'' := fun b hb => (h' b hb).trans (h b hb)

theorem Region.disjoint_comm (g q : Region) : g.disjoint q = q.disjoint g := decide_eq_decide.mpr or_comm

theorem Region.has_eq_false_iff (g : Region) (b : Nat) : g.has b = false ↔ b < g.base ∨ g.base + g.len ≤ b := by
  rw [Region.has, decide_eq_false_iff_not]
  omega

/-- A byte of one of two disjoint regions is outside the other. -/
theorem Region.has_eq_false_of_disjoint {g q : Region} (h : g.disjoint q = true) {b : Nat} (h1 : q.base ≤ b)
    (h2 : b < q.base + q.len) : g.has b = false := by
  rw [Region.disjoint, decide_eq_true_eq] at h
  rw [Region.has_eq_false_iff]
  omega

theorem AgreeOutside.rdI16s {g : Region} {m m' : Memory} (h : AgreeOutside g m m') {a n : Nat}
    (hd : g.disjoint ⟨a, 2 * n⟩ = true) : rdI16s m' a n = rdI16s m a n :=
  rdI16s_congr m' m a n fun b h1 h2 => h b (Region.has_eq_false_of_disjoint hd h1 h2)

theorem AgreeOutside.rdI32s {g : Region} {m m' : Memory} (h : AgreeOutside g m m') {a n : Nat}
    (hd : g.disjoint ⟨a, 4 * n⟩ = true) : rdI32s m' a n = rdI32s m a n :=
  rdI32s_congr m' m a n fun b h1 h2 => h b (Region.has_eq_false_of_disjoint hd h1 h2)

/-! ### Lengths and ranges of what a channel gives -/

theorem windowStep_mem (sym : Bool) (buf win : List Int) :
    ∀ v ∈ windowStep sym buf win, -32768 ≤ v ∧ v ≤ 32767 := by
  intro v hv
  obtain ⟨i, hi, rfl⟩ := List.mem_iff_getElem.mp hv
  simp only [windowStep, List.getElem_zipWith]
  exact sat16_mem sym _

theorem rescale_mem (sym : Bool) (lf : Nat) (z : List Cx) :
    ∀ v ∈ rescale sym lf z, (-2147483648 ≤ v.1 ∧ v.1 ≤ 2147483647) ∧ -2147483648 ≤ v.2 ∧ v.2 ≤ 2147483647 := by
  intro v hv
  obtain ⟨u, -, rfl⟩ := List.mem_map.mp hv
  exact ⟨sat32_mem sym _, sat32_mem sym _⟩

theorem binGain_mem (sym : Bool) (cfg : NsCfg) (p est : Int) :
    -32768 ≤ binGain sym cfg p est ∧ binGain sym cfg p est ≤ 32767 := by
  unfold binGain
  split
  · exact sat16_mem sym _
  · omega

theorem nsStep_gain_mem (sym : Bool) (cfg : NsCfg) (nb : Nat) (st : Ns) (z : List Cx) :
    ∀ g ∈ (nsStep sym cfg nb st z).gain, -32768 ≤ g ∧ g ≤ 32767 := by
  intro g hg
  obtain ⟨i, hi, rfl⟩ := List.mem_iff_getElem.mp hg
  simp only [nsStep, List.getElem_zipWith]
  exact binGain_mem sym cfg _ _

/-- How many gains a channel has: one for each bin, none with noise suppression off (45_noise_suppressor.md R272). -/
def Act.gains (a : Act) : Nat := if a.nsEn then a.NB else 0

/-- A channel's state, scratch arrays and gains have the lengths of the active configuration (41_lifecycle.md R170,
10_state.md R53). -/
def ChanOut.Sized (a : Act) (o : ChanOut) : Prop :=
  (o.ch.buf.length = a.F ∧ o.ch.ola.length = a.F ∧ o.ch.ns.min.length = a.NB ∧ o.ch.ns.est.length = a.NB) ∧
  o.xw.length = a.F ∧ o.z.length = a.F ∧ o.gain.length = a.gains

/-- A channel's scratch arrays and gains have elements of their types (41_lifecycle.md R170). -/
def ChanOut.Ranged (o : ChanOut) : Prop :=
  (∀ v ∈ o.xw, -32768 ≤ v ∧ v ≤ 32767) ∧
  (∀ v ∈ o.z, (-2147483648 ≤ v.1 ∧ v.1 ≤ 2147483647) ∧ -2147483648 ≤ v.2 ∧ v.2 ≤ 2147483647) ∧
  ∀ g ∈ o.gain, -32768 ≤ g ∧ g ≤ 32767

/-- The suppressor's place, on or off, gives the lengths it takes. -/
theorem suppress_lengths (sym : Bool) (a : Act) (ns : Ns) (z : List Cx) (hz : a.NB ≤ z.length)
    (hm : ns.min.length = a.NB) (he : ns.est.length = a.NB) :
    (suppress sym a ns z).ns.min.length = a.NB ∧ (suppress sym a ns z).ns.est.length = a.NB ∧
    (suppress sym a ns z).gain.length = a.gains ∧ (suppress sym a ns z).z.length = z.length := by
  by_cases hns : a.nsEn = true
  · rw [suppress, Act.gains, if_pos hns, if_pos hns]
    exact nsStep_lengths sym a.nsCfg a.NB ns z hz hm he
  · rw [suppress, Act.gains, if_neg hns, if_neg hns]
    exact ⟨hm, he, rfl, rfl⟩

theorem suppress_gain_mem (sym : Bool) (a : Act) (ns : Ns) (z : List Cx) :
    ∀ g ∈ (suppress sym a ns z).gain, -32768 ≤ g ∧ g ≤ 32767 := by
  by_cases hns : a.nsEn = true
  · rw [suppress, if_pos hns]
    exact nsStep_gain_mem sym a.nsCfg a.NB ns z
  · rw [suppress, if_neg hns]
    exact fun g hg => absurd hg List.not_mem_nil

theorem chanStep_ranged (sym : Bool) (a : Act) (t : Tables) (ch : Chan) (xs : List Int) :
    (chanStep sym a t ch xs).Ranged :=
  ⟨windowStep_mem sym _ _, rescale_mem sym _ _, suppress_gain_mem sym a ch.ns _⟩

theorem Act.NB_le_F {a : Act} (hF : 2 ≤ a.F) : a.NB ≤ a.F := by
  rw [Act.NB]
  omega

theorem chanStep_sized (sym : Bool) (a : Act) (t : Tables) (ch : Chan) (xs : List Int) (hF : 2 ≤ a.F) (hH : a.H ≤ a.F)
    (hbuf : ch.buf.length = a.F) (hola : ch.ola.length = a.F) (hmin : ch.ns.min.length = a.NB)
    (hest : ch.ns.est.length = a.NB) (hwin : t.win.length = a.F) (hxs : xs.length = a.H) :
    (chanStep sym a t ch xs).Sized a := by
  have hbuf' : (chanStep sym a t ch xs).ch.buf.length = a.F :=
    bufferStep_length a.H a.F _ _ hbuf (by rw [prefilter_length, hxs]) hH
  have hxw : (chanStep sym a t ch xs).xw.length = a.F := by
    calc _ = min (chanStep sym a t ch xs).ch.buf.length t.win.length := windowStep_length sym _ _
      _ = a.F := by rw [hbuf', hwin, min_self]
  obtain ⟨hmin', hest', hgain, hsup⟩ := suppress_lengths sym a ch.ns
    (transform sym false t.cos t.sin a.L (loadFrame (chanStep sym a t ch xs).xw))
    (by simpa [hxw] using Act.NB_le_F hF) hmin hest
  rw [transform_length, loadFrame_length, hxw] at hsup
  have hz : (chanStep sym a t ch xs).z.length = a.F :=
    (rescale_length sym a.L _).trans ((transform_length ..).trans ((hermitianRebuild_length ..).trans hsup))
  have hola' : (chanStep sym a t ch xs).ch.ola.length = a.F := by
    calc _ = min ch.ola.length (narrowFrame sym (chanStep sym a t ch xs).z).length :=
          olaStep_state_length sym a.H a.nsh ch.ola _
      _ = a.F := by rw [hola, narrowFrame_length, hz, min_self]
  exact ⟨⟨hbuf', hola', hmin', hest'⟩, hxw, hz, hgain⟩

/-! ### Places of channels side by side -/

/-- The places of two channels in an array with a stride do not overlap. -/
theorem strides_apart {c c' : Nat} (n : Nat) (h : c ≠ c') : c * n + n ≤ c' * n ∨ c' * n + n ≤ c * n := by
  rw [← Nat.succ_mul, ← Nat.succ_mul]
  obtain h | h := Nat.lt_or_gt_of_ne h
  · exact .inl (Nat.mul_le_mul_right n h)
  · exact .inr (Nat.mul_le_mul_right n h)

/-- The first byte of the row of GAIN of channel `c` (41_lifecycle.md R170). -/
def Act.gainRow (a : Act) (c : Nat) : Nat := a.scratchBase.toNat + 10 * a.F + 4 * (c * a.NB)

/-- The frame arrays lie in the scratch (41_lifecycle.md R163). -/
theorem Act.frame_le_SB (a : Act) : 10 * a.F ≤ a.SB := by
  rw [← scratchLen_eq, Act.scratchLen]
  omega

theorem Act.scratchBase_le_gainRow (a : Act) (c : Nat) : a.scratchBase.toNat ≤ a.gainRow c := by
  rw [Act.gainRow]
  omega

/-- With noise suppression on, every active channel's row of GAIN lies in the scratch (41_lifecycle.md R163). -/
theorem Act.gainRow_end_le {a : Act} (hns : a.nsEn = true) {c : Nat} (hc : c < a.C) :
    a.gainRow c + 4 * a.NB ≤ a.scratchBase.toNat + a.SB := by
  have hrow : (c + 1) * a.NB ≤ a.C * a.NB := Nat.mul_le_mul_right a.NB hc
  rw [Nat.succ_mul] at hrow
  rw [← scratchLen_eq, Act.scratchLen, if_pos hns, ← Act.NB, Act.gainRow]
  omega

/-! ### One channel's scratch -/

theorem wrI16s_agree (m : Memory) (a : Nat) (vs : List Int) :
    AgreeOutside ⟨a, 2 * vs.length⟩ m (wrI16s m a vs) := fun b hb =>
  byte_wrI16s_outside vs m a b ((Region.has_eq_false_iff _ b).mp hb)

theorem wrI32s_agree (m : Memory) (a : Nat) (vs : List Int) :
    AgreeOutside ⟨a, 4 * vs.length⟩ m (wrI32s m a vs) := fun b hb =>
  byte_wrI32s_outside vs m a b ((Region.has_eq_false_iff _ b).mp hb)

/-- A region around the one outside which two memories agree. -/
theorem AgreeOutside.mono {g q : Region} {m m' : Memory} (h : AgreeOutside g m m')
    (hsub : g.len = 0 ∨ q.base ≤ g.base ∧ g.base + g.len ≤ q.base + q.len) : AgreeOutside q m m' := fun b hb =>
  h b (by rw [Region.has_eq_false_iff] at hb ⊢; omega)

/-- A part of a region is disjoint from what the region is disjoint from. -/
theorem Region.disjoint_part {g q : Region} (h : g.disjoint q = true) {a n : Nat} (h1 : q.base ≤ a)
    (h2 : a + n ≤ q.base + q.len) : g.disjoint ⟨a, n⟩ = true := by
  rw [Region.disjoint, decide_eq_true_eq] at h ⊢
  dsimp only
  omega

theorem writeScratch_eq (a : Act) (m : Memory) (c : Nat) (o : ChanOut) :
    writeScratch a m c o =
      wrI32s (wrI32s (wrI32s (wrI16s m a.scratchBase.toNat o.xw) (a.scratchBase.toNat + 2 * a.F) (o.z.map Prod.fst))
        (a.scratchBase.toNat + 6 * a.F) (o.z.map Prod.snd)) (a.gainRow c) o.gain := rfl

theorem writeScratch_pairwise (a : Act) (m : Memory) (c : Nat) (o : ChanOut) (hm : m.Pairwise (fun x y => x.1 < y.1)) :
    (writeScratch a m c o).Pairwise (fun x y => x.1 < y.1) :=
  wrI32s_pairwise _ _ _ (wrI32s_pairwise _ _ _ (wrI32s_pairwise _ _ _ (wrI16s_pairwise _ _ _ hm)))

/-- XW, RE and IM hold a channel's windowed frame and its rescaled inverse transform (41_lifecycle.md R170). -/
def ScratchFrame (a : Act) (m : Memory) (o : ChanOut) : Prop :=
  rdI16s m a.scratchBase.toNat a.F = o.xw ∧
  rdI32s m (a.scratchBase.toNat + 2 * a.F) a.F = o.z.map Prod.fst ∧
  rdI32s m (a.scratchBase.toNat + 6 * a.F) a.F = o.z.map Prod.snd

/-- What happens outside the scratch leaves the frame arrays alone. -/
theorem ScratchFrame.agree {a : Act} {m m' : Memory} {o : ChanOut} {g : Region} (h : ScratchFrame a m o)
    (hag : AgreeOutside g m m') (hd : g.disjoint ⟨a.scratchBase.toNat, 10 * a.F⟩ = true) : ScratchFrame a m' o := by
  obtain ⟨hxw, hre, him⟩ := h
  exact ⟨(hag.rdI16s (Region.disjoint_part hd (by simp) (by dsimp only; omega))).trans hxw,
    (hag.rdI32s (Region.disjoint_part hd (by simp) (by dsimp only; omega))).trans hre,
    (hag.rdI32s (Region.disjoint_part hd (by simp) (by dsimp only; omega))).trans him⟩

section WriteScratch

variable {a : Act} {m : Memory} {c : Nat} {o : ChanOut} (ho : o.Sized a)
include ho

/-- The three frame arrays after they are written, before the gains. -/
theorem scratchFrame_written (hr : o.Ranged) (hm : m.Pairwise (fun x y => x.1 < y.1)) :
    ScratchFrame a
      (wrI32s (wrI32s (wrI16s m a.scratchBase.toNat o.xw) (a.scratchBase.toNat + 2 * a.F) (o.z.map Prod.fst))
        (a.scratchBase.toNat + 6 * a.F) (o.z.map Prod.snd)) o := by
  obtain ⟨-, hxw, hz, -⟩ := ho
  obtain ⟨hxw_mem, hz_mem, -⟩ := hr
  have hre : (o.z.map Prod.fst).length = a.F := by rw [List.length_map, hz]
  have him : (o.z.map Prod.snd).length = a.F := by rw [List.length_map, hz]
  have hm1 := wrI16s_pairwise o.xw m a.scratchBase.toNat hm
  have hm2 := wrI32s_pairwise (o.z.map Prod.fst) _ (a.scratchBase.toNat + 2 * a.F) hm1
  refine ⟨?_, ?_, ?_⟩
  · rw [(wrI32s_agree _ _ _).rdI16s (by rw [disjoint_iff_apart, apart]; omega),
      (wrI32s_agree _ _ _).rdI16s (by rw [disjoint_iff_apart, apart]; omega),
      rdI16s_wrI16s _ _ _ _ hxw hm hxw_mem]
  · rw [(wrI32s_agree _ _ _).rdI32s (by rw [disjoint_iff_apart, apart]; omega)]
    exact rdI32s_wrI32s _ _ _ _ hre hm1 (List.forall_mem_map.mpr fun v hv => (hz_mem v hv).1)
  · exact rdI32s_wrI32s _ _ _ _ him hm2 (List.forall_mem_map.mpr fun v hv => (hz_mem v hv).2)

/-- Every row of GAIN is beyond the frame arrays. -/
theorem writeScratch_frame (hr : o.Ranged) (hm : m.Pairwise (fun x y => x.1 < y.1)) :
    ScratchFrame a (writeScratch a m c o) o := by
  rw [writeScratch_eq]
  refine (scratchFrame_written ho hr hm).agree (wrI32s_agree _ _ _) ?_
  rw [disjoint_iff_apart, apart, Act.gainRow]
  omega

/-- A channel with gains has its row of GAIN in the scratch, so all it writes lies there (41_lifecycle.md R170). -/
theorem writeScratch_agree (hc : c < a.C) : AgreeOutside a.scrRegion m (writeScratch a m c o) := by
  have hframe := a.frame_le_SB
  obtain ⟨-, hxw, hz, hgain⟩ := ho
  have hrow : o.gain.length = 0 ∨ a.gainRow c + 4 * o.gain.length ≤ a.scratchBase.toNat + a.SB := by
    rw [hgain, Act.gains]
    by_cases hns : a.nsEn = true
    · rw [if_pos hns]
      exact .inr (Act.gainRow_end_le hns hc)
    · exact .inl (if_neg hns)
  rw [writeScratch_eq]
  refine (((wrI16s_agree _ _ _).mono ?_).trans ((wrI32s_agree _ _ _).mono ?_)).trans
    (((wrI32s_agree _ _ _).mono ?_).trans ((wrI32s_agree _ _ _).mono ?_))
  all_goals simp only [Act.scrRegion, List.length_map, Act.gainRow] at hrow ⊢; omega

theorem writeScratch_gain (hr : o.Ranged) (hns : a.nsEn = true) (hm : m.Pairwise (fun x y => x.1 < y.1)) :
    rdI32s (writeScratch a m c o) (a.gainRow c) a.NB = o.gain := by
  obtain ⟨-, -, -, hgain⟩ := ho
  obtain ⟨-, -, hgain_mem⟩ := hr
  refine rdI32s_wrI32s _ _ _ _ (hgain.trans (if_pos hns)) ?_ fun g hg => ?_
  · exact wrI32s_pairwise _ _ _ (wrI32s_pairwise _ _ _ (wrI16s_pairwise _ _ _ hm))
  · obtain ⟨hlo, hhi⟩ := hgain_mem g hg
    omega

/-- A channel leaves the gains of the others alone. -/
theorem writeScratch_other_gain (hns : a.nsEn = true) {c' : Nat} (hc : c' ≠ c) :
    rdI32s (writeScratch a m c o) (a.gainRow c') a.NB = rdI32s m (a.gainRow c') a.NB := by
  obtain ⟨-, hxw, hz, hgain⟩ := ho
  have hlen : o.gain.length = a.NB := hgain.trans (if_pos hns)
  have hrows := strides_apart a.NB hc
  rw [writeScratch_eq, (wrI32s_agree _ _ _).rdI32s, (wrI32s_agree _ _ _).rdI32s, (wrI32s_agree _ _ _).rdI32s,
    (wrI16s_agree _ _ _).rdI32s]
  all_goals simp only [disjoint_iff_apart, apart, List.length_map, Act.gainRow]; omega

end WriteScratch

/-! ### One channel's state in the state window -/

/-- A channel's write-back leaves the state of every other channel alone (10_state.md R53): BUF and OLA have the stride
`Fm`, MIN and EST the stride `NB`. -/
theorem loadChan_storeChan_ne {p : Params} {a : Act} (w : Window) {c c' : Nat} {o : ChanOut} (ho : o.Sized a)
    (hF : a.F ≤ p.maxFrameLen) (hc : c' ≠ c) :
    loadChan p a (storeChan p a w c o.ch) c' = loadChan p a w c' := by
  obtain ⟨⟨hbuflen, holalen, hminlen, hestlen⟩, -⟩ := ho
  have hframes := strides_apart p.maxFrameLen hc
  have hbins := strides_apart a.NB hc
  have hbuf : ∀ m : Sparse 16, sparseRun 0
      (sparsePut 0 m (c * p.maxFrameLen) (o.ch.buf.map (BitVec.ofInt 16))) (c' * p.maxFrameLen) a.F =
        sparseRun 0 m (c' * p.maxFrameLen) a.F := fun m =>
    sparseRun_sparsePut_outside _ m _ _ _ (by rw [List.length_map, hbuflen]; omega)
  have hola : ∀ m : Sparse 32, sparseRun 0
      (sparsePut 0 m (c * p.maxFrameLen) (o.ch.ola.map (BitVec.ofInt 32))) (c' * p.maxFrameLen) a.F =
        sparseRun 0 m (c' * p.maxFrameLen) a.F := fun m =>
    sparseRun_sparsePut_outside _ m _ _ _ (by rw [List.length_map, holalen]; omega)
  have hmin : ∀ m : Sparse 32, sparseRun minDefault
      (sparsePut minDefault m (c * a.NB) (o.ch.ns.min.map (BitVec.ofInt 32))) (c' * a.NB) a.NB =
        sparseRun minDefault m (c' * a.NB) a.NB := fun m =>
    sparseRun_sparsePut_outside _ m _ _ _ (by rw [List.length_map, hminlen]; omega)
  have hest : ∀ m : Sparse 32, sparseRun 0
      (sparsePut 0 m (c * a.NB) (o.ch.ns.est.map (BitVec.ofInt 32))) (c' * a.NB) a.NB =
        sparseRun 0 m (c' * a.NB) a.NB := fun m =>
    sparseRun_sparsePut_outside _ m _ _ _ (by rw [List.length_map, hestlen]; omega)
  by_cases hns : a.nsEn = true
  · simp only [loadChan, storeChan, if_pos hns, storeNs, storeFrame, sparseGet_sparseSet_ne _ _ _ _ hc, hbuf, hola,
      hmin, hest]
  · simp only [loadChan, storeChan, if_neg hns, storeFrame, sparseGet_sparseSet_ne _ _ _ _ hc, hbuf, hola]

/-! ### What a hop has done -/

/-- What a hop on `s` has done after its first `n` channels: DMEM is changed in the scratch alone, the state of the
channels to come is untouched, and the scratch holds the last channel's arrays and the gains of all (46_synthesis_hop.md
R302). -/
def HopProgress (s : State) (n : Nat) (acc : HopAcc) : Prop :=
  acc.dmem.Pairwise (fun x y => x.1 < y.1) ∧ AgreeOutside s.act.scrRegion s.dmem acc.dmem ∧
  (∀ c, n ≤ c → loadChan s.params s.act acc.win c = loadChan s.params s.act s.win c) ∧
  (∀ c, n = c + 1 → ScratchFrame s.act acc.dmem (hopChan s c)) ∧
  (s.act.nsEn = true → ∀ c, c < n → rdI32s acc.dmem (s.act.gainRow c) s.act.NB = (hopChan s c).gain)

/-- After the channels a hop writes OUT alone (46_synthesis_hop.md R295). -/
theorem hopEffect_agree (s : State) :
    AgreeOutside (outRegion s.act s.regs) (hopChannels s.params s.act s.regs s.win s.dmem).dmem (hopEffect s).dmem := by
  have h := wrI16s_agree (hopChannels s.params s.act s.regs s.win s.dmem).dmem (outRegion s.act s.regs).base
    (combine s.act.C s.act.H (hopChannels s.params s.act s.regs s.win s.dmem).outs)
  rw [combine_length] at h
  exact h

/-! ### What a channel of a hop reads -/

section Hop

variable {s : State} (hI : s.Inv) (hR : HopReady s)
include hI hR

theorem actOk_of_hopReady : actOk s.params s.act := by
  obtain ⟨hready, -⟩ := hR
  obtain ⟨-, -, -, hact⟩ := hI
  exact (hact hready).1

/-- The frame of a hop (41_lifecycle.md R167). -/
theorem hop_frame : 2 ≤ s.act.F ∧ s.act.H ≤ s.act.F ∧ s.act.F ≤ s.params.maxFrameLen ∧ 1 ≤ s.act.C := by
  obtain ⟨hframe, -⟩ := actOk_of_hopReady hI hR
  obtain ⟨-, hmax, hH, -, h2, hC, -⟩ := (frameOk_iff _ _ _ _).mp hframe
  omega

/-- The scratch of a hop is disjoint from all that the hop reads and from OUT (41_lifecycle.md R168, 46_synthesis_hop.md
R296). -/
theorem hop_scratch_disjoint :
    s.act.scrRegion.disjoint s.act.winRegion = true ∧ s.act.scrRegion.disjoint s.act.twcRegion = true ∧
    s.act.scrRegion.disjoint s.act.twsRegion = true ∧ s.act.scrRegion.disjoint (inRegion s.act s.regs) = true ∧
    (outRegion s.act s.regs).disjoint s.act.scrRegion = true := by
  obtain ⟨-, -, htables, -⟩ := actOk_of_hopReady hI hR
  obtain ⟨-, -, -, hplaced⟩ := hR
  rw [← hopRegionsOk_iff] at hplaced
  simp only [tableRegionsOk, Bool.and_eq_true] at htables
  simp only [hopRegionsOk, Bool.and_eq_true] at hplaced
  obtain ⟨⟨⟨-, hwin⟩, htwc⟩, htws⟩ := htables
  obtain ⟨⟨-, hout⟩, hin⟩ := hplaced
  exact ⟨hwin, htwc, htws, (Region.disjoint_comm _ _).trans hin, hout⟩

theorem readTables_agree {m : Memory} (h : AgreeOutside s.act.scrRegion s.dmem m) :
    readTables s.act m = readTables s.act s.dmem := by
  obtain ⟨hwin, htwc, htws, -, -⟩ := hop_scratch_disjoint hI hR
  rw [readTables, readTables, h.rdI16s hwin, h.rdI32s htwc, h.rdI32s htws]

/-- Sample `i` of channel `c` is element `i·C + c` of IN, before its end `C·H` (46_synthesis_hop.md R301). -/
theorem readInput_agree {m : Memory} (h : AgreeOutside s.act.scrRegion s.dmem m) {c : Nat} (hc : c < s.act.C) :
    readInput s.act s.regs m c = readInput s.act s.regs s.dmem c := by
  obtain ⟨-, -, -, hin, -⟩ := hop_scratch_disjoint hI hR
  refine List.map_congr_left fun i hi => ?_
  have hrow : (i + 1) * s.act.C ≤ s.act.H * s.act.C := Nat.mul_le_mul_right _ (List.mem_range.mp hi)
  rw [Nat.succ_mul] at hrow
  have hlen : (inRegion s.act s.regs).len = 2 * (s.act.H * s.act.C) := by
    rw [inRegion, Nat.mul_assoc, Nat.mul_comm s.act.C]
  refine rdI16_congr _ _ _ fun b h1 h2 => h b (Region.has_eq_false_of_disjoint hin ?_ ?_)
  · exact (Nat.le_add_right _ _).trans h1
  · rw [hlen]
    simp only [inRegion]
    omega

theorem hopChan_sized (c : Nat) : (hopChan s c).Sized s.act := by
  obtain ⟨hF, hH, -, -⟩ := hop_frame hI hR
  exact chanStep_sized _ _ _ _ _ hF hH (loadChan_buf_length ..) (loadChan_ola_length ..) (loadChan_min_length ..)
    (loadChan_est_length ..) (rdI16s_length ..) (readInput_length ..)

/-- A channel that finds its state and all but the scratch as they were before the hop gives what it computes from the
state before the hop (42_prefilters.md R199). -/
theorem hopChannel_eq {acc : HopAcc} {c : Nat} (hc : c < s.act.C) (hm : AgreeOutside s.act.scrRegion s.dmem acc.dmem)
    (hw : loadChan s.params s.act acc.win c = loadChan s.params s.act s.win c) :
    hopChannel s.params s.act s.regs acc c =
      { win := storeChan s.params s.act acc.win c (hopChan s c).ch
        dmem := writeScratch s.act acc.dmem c (hopChan s c)
        outs := acc.outs ++ [(hopChan s c).out] } := by
  simp only [hopChannel, hopChan, readTables_agree hI hR hm, readInput_agree hI hR hm hc, hw]

/-! ### A hop channel by channel -/

omit hR in
theorem hopProgress_start : HopProgress s 0 { win := s.win, dmem := s.dmem, outs := [] } := by
  obtain ⟨-, ⟨hsorted, -⟩, -⟩ := hI
  exact ⟨hsorted, AgreeOutside.refl _ _, fun _ _ => rfl, fun _ h => absurd h (Nat.succ_ne_zero _).symm,
    fun _ _ h => absurd h (Nat.not_lt_zero _)⟩

theorem hopProgress_step {n : Nat} {acc : HopAcc} (h : HopProgress s n acc) (hn : n < s.act.C) :
    HopProgress s (n + 1) (hopChannel s.params s.act s.regs acc n) := by
  obtain ⟨hsorted, hmem, hlater, -, hgains⟩ := h
  obtain ⟨-, -, hmax, -⟩ := hop_frame hI hR
  have hsized := hopChan_sized hI hR n
  have hranged : (hopChan s n).Ranged := chanStep_ranged ..
  rw [hopChannel_eq hI hR hn hmem (hlater n le_rfl)]
  refine ⟨writeScratch_pairwise _ _ _ _ hsorted, hmem.trans (writeScratch_agree hsized hn), fun c hc => ?_,
    fun c hc => ?_, fun hns c hc => ?_⟩
  · exact (loadChan_storeChan_ne acc.win hsized hmax (by omega)).trans (hlater c (by omega))
  · obtain rfl : n = c := by omega
    exact writeScratch_frame hsized hranged hsorted
  · obtain rfl | hlt := Nat.eq_or_lt_of_le (Nat.le_of_lt_succ hc)
    · exact writeScratch_gain hsized hranged hns hsorted
    · exact (writeScratch_other_gain hsized hns hlt.ne).trans (hgains hns c hlt)

theorem hopProgress_foldl (n : Nat) (hn : n ≤ s.act.C) :
    HopProgress s n
      ((List.range n).foldl (hopChannel s.params s.act s.regs) { win := s.win, dmem := s.dmem, outs := [] }) := by
  induction n with
  | zero => exact hopProgress_start hI
  | succ n ih =>
    rw [List.range_succ, List.foldl_append]
    exact hopProgress_step hI hR (ih (by omega)) hn

theorem hopProgress_channels : HopProgress s s.act.C (hopChannels s.params s.act s.regs s.win s.dmem) :=
  hopProgress_foldl hI hR s.act.C le_rfl

/-- A hop on a state of the invariant whose checks pass, not raced, has the effect of R300. -/
theorem execProcessHop_effect (hraced : s.raced = false) : execProcessHop s = .next (hopEffect s) := by
  rw [execProcessHop_ready s hR (actInside_of_actOk _ _ (actOk_of_hopReady hI hR)), hraced]
  rfl

end Hop

/-- Settles O25: the scratch as the channels leave it, which the output hop does not reach. -/
theorem scratchAfterHop : Obligations.ScratchAfterHop := by
  intro s t hI hR hraced hexec
  cases (execProcessHop_effect hI hR hraced).symm.trans hexec
  obtain ⟨-, -, -, hC⟩ := hop_frame hI hR
  obtain ⟨-, -, -, -, hout⟩ := hop_scratch_disjoint hI hR
  obtain ⟨-, -, -, hlast, hgains⟩ := hopProgress_channels hI hR
  have hkept := hopEffect_agree s
  have hframe := Region.disjoint_part hout le_rfl (Nat.add_le_add_left s.act.frame_le_SB _)
  obtain ⟨hxw, hre, him⟩ := (hlast (s.act.C - 1) (by omega)).agree hkept hframe
  refine ⟨hxw, hre, him, fun hns c hc => ?_⟩
  have hrow := Region.disjoint_part hout (Act.scratchBase_le_gainRow s.act c) (Act.gainRow_end_le hns hc)
  exact (hkept.rdI32s hrow).trans (hgains hns c hc)

end Sys2Proof.Machine
end

section
/-! PROOFS. The pre-filters of a channel over a stream of samples (42_prefilters.md R191, R193, R195, R199): DC removal
of a constant input, and the hop buffer over any number of hops (43_framing_window.md R211, R213). -/

namespace Sys2Proof.Machine

/-! ### The hop buffer over hops -/

theorem chanRun_cons (sym : Bool) (a : Act) (t : Tables) (ch : Chan) (xs : List Int) (hops : List (List Int)) :
    chanRun sym a t ch (xs :: hops) = chanRun sym a t (chanStep sym a t ch xs).ch hops := rfl

theorem chanStep_pre (sym : Bool) (a : Act) (t : Tables) (ch : Chan) (xs : List Int) :
    (chanStep sym a t ch xs).ch.pre = (prefilter sym a.dcAlpha.toInt a.peAlpha.toInt ch.pre xs).2 := rfl

theorem chanStep_buf (sym : Bool) (a : Act) (t : Tables) (ch : Chan) (xs : List Int) :
    (chanStep sym a t ch xs).ch.buf =
      ch.buf.drop a.H ++ (prefilter sym a.dcAlpha.toInt a.peAlpha.toInt ch.pre xs).1 := rfl

/-- Settles O31, by induction on the hops: dropping H elements of the buffer hop by hop is dropping them all at once from
the joined stream, because the buffer never holds fewer than H. -/
theorem bufferHoldsTheStream : Obligations.BufferHoldsTheStream := by
  intro sym a t ch hops hbuf hH hops_len
  induction hops generalizing ch with
  | nil => simp [chanRun]
  | cons xs hops ih =>
    obtain ⟨hxs, hrest⟩ := List.forall_mem_cons.mp hops_len
    have hbuf' : (chanStep sym a t ch xs).ch.buf.length = a.F :=
      bufferStep_length a.H a.F _ _ hbuf (by rw [prefilter_length, hxs]) hH
    have hjoin : ∀ l : List Int, ch.buf.drop a.H ++ l = (ch.buf ++ l).drop a.H := fun l =>
      (List.drop_append_of_le_length (hbuf ▸ hH)).symm
    rw [chanRun_cons, ih _ hbuf' hrest, chanStep_buf, chanStep_pre, List.flatten_cons, prefilter_append,
      List.append_assoc, hjoin, List.drop_drop, List.length_cons, Nat.succ_mul, Nat.add_comm]

/-! ### Values of the wide range -/

theorem lo32_neg (sym : Bool) : lo32 sym < 0 := by cases sym <;> decide

theorem sat32_eq_self_iff (sym : Bool) (v : Int) : sat32 sym v = v ↔ lo32 sym ≤ v ∧ v ≤ hi32 := by
  have hlo := lo32_neg sym
  rw [sat32, clamp, hi32]
  omega

theorem sat32_idem (sym : Bool) (v : Int) : sat32 sym (sat32 sym v) = sat32 sym v := by
  have hlo := lo32_neg sym
  rw [sat32_eq_self_iff, sat32, clamp, hi32]
  omega

/-! ### DC removal of a constant input -/

/-- One more sample of a constant input but for saturation: the decay of the wide state (42_prefilters.md R193). -/
def dcDecay (alpha y : Int) : Int := asr (alpha * y) 31

theorem dcDecay_eq_div (alpha y : Int) : dcDecay alpha y = alpha * y / 2 ^ 31 := asr_eq_div _ 31

section Decay

variable {alpha : Int} (h1 : alpha < 2 ^ 31) (h0 : 0 < alpha)

section Upper

include h1

theorem dcDecay_lt {y : Int} (hy : 0 < y) : dcDecay alpha y < y := by
  rw [dcDecay_eq_div]
  refine Int.ediv_lt_of_lt_mul (by norm_num) ?_
  nlinarith

theorem le_dcDecay {y : Int} (hy : y < 0) : y ≤ dcDecay alpha y := by
  rw [dcDecay_eq_div]
  refine Int.le_ediv_of_mul_le (by norm_num) ?_
  nlinarith

/-- A state the decay does not move is 0 or in the dead band (42_prefilters.md R193). -/
theorem dcDecay_fixed {y : Int} (hfix : dcDecay alpha y = y) : y ≤ 0 ∧ -y * (2 ^ 31 - alpha) < 2 ^ 31 := by
  have hy : y ≤ 0 := not_lt.mp fun hpos => (dcDecay_lt h1 hpos).ne hfix
  rw [dcDecay_eq_div] at hfix
  have hfloor := Int.lt_ediv_add_one_mul_self (alpha * y) (show (0 : Int) < 2 ^ 31 by norm_num)
  rw [hfix] at hfloor
  exact ⟨hy, by linarith⟩

end Upper

include h0

theorem dcDecay_nonneg {y : Int} (hy : 0 ≤ y) : 0 ≤ dcDecay alpha y := by
  rw [dcDecay_eq_div]
  exact Int.ediv_nonneg (mul_nonneg h0.le hy) (by norm_num)

/-- The floor keeps a negative state negative (42_prefilters.md R192). -/
theorem dcDecay_neg {y : Int} (hy : y < 0) : dcDecay alpha y < 0 := by
  rw [dcDecay_eq_div]
  exact Int.ediv_neg_of_neg_of_pos (mul_neg_of_pos_of_neg h0 hy) (by norm_num)

include h1

/-- The decay stops or comes nearer to 0. -/
theorem dcDecay_eq_or_natAbs_lt (y : Int) : dcDecay alpha y = y ∨ (dcDecay alpha y).natAbs < y.natAbs := by
  obtain hy | hy | hy := lt_trichotomy y 0
  · have hle := le_dcDecay h1 hy
    have hneg := dcDecay_neg h0 hy
    omega
  · subst hy
    exact .inl (by simp [dcDecay_eq_div])
  · have hlt := dcDecay_lt h1 hy
    have hnonneg := dcDecay_nonneg h0 hy.le
    omega

/-- By induction on the distance from 0: the decay reaches a state that it does not move. -/
theorem exists_iterate_dcDecay_fixed (y : Int) :
    ∃ n, dcDecay alpha ((dcDecay alpha)^[n] y) = (dcDecay alpha)^[n] y := by
  obtain hfix | hlt := dcDecay_eq_or_natAbs_lt h1 h0 y
  · exact ⟨0, hfix⟩
  · obtain ⟨n, hn⟩ := exists_iterate_dcDecay_fixed (dcDecay alpha y)
    exact ⟨n + 1, hn⟩
termination_by y.natAbs

/-- The decay of a state in the wide range stays between it and 0, so saturation does not change it. -/
theorem sat32_dcDecay (sym : Bool) {y : Int} (hy : sat32 sym y = y) : sat32 sym (dcDecay alpha y) = dcDecay alpha y := by
  rw [sat32_eq_self_iff] at hy ⊢
  have hlo := lo32_neg sym
  have hhi : hi32 = 2147483647 := rfl
  obtain hneg | hzero := lt_or_ge y 0
  · have hle := le_dcDecay h1 hneg
    have hlt := dcDecay_neg h0 hneg
    omega
  · have hnonneg := dcDecay_nonneg h0 hzero
    have habs := dcDecay_eq_or_natAbs_lt h1 h0 y
    omega

end Decay

/-! ### The wide state of DC removal after each sample -/

theorem prefilter_concat (sym : Bool) (al pe : Int) (st : Pre) (xs : List Int) (x : Int) :
    (prefilter sym al pe st (xs ++ [x])).2 = (preStep sym al pe (prefilter sym al pe st xs).2 x).2 := by
  rw [prefilter_append]
  rfl

theorem preStep_dcX (sym : Bool) (al pe : Int) (st : Pre) (x : Int) : (preStep sym al pe st x).2.dcX = widen x := rfl

theorem preStep_dcY (sym : Bool) (al pe : Int) (st : Pre) (x : Int) :
    (preStep sym al pe st x).2.dcY = dcNext sym al (widen x) st.dcX st.dcY := rfl

/-- The first sample after the post-init state is taken as it is (42_prefilters.md R192). -/
theorem dcAfter_one (sym : Bool) (alpha x : Int) : dcAfter sym alpha x 1 = sat32 sym (widen x) := by
  simp [dcAfter, prefilter_cons, preStep_dcY, dcNext, asr]

/-- From the second sample on the input does not change, and the state decays. -/
theorem dcAfter_succ (sym : Bool) (alpha x : Int) (n : Nat) :
    dcAfter sym alpha x (n + 2) = sat32 sym (dcDecay alpha (dcAfter sym alpha x (n + 1))) := by
  have hdcX : (prefilter sym alpha 0 { dcX := 0, dcY := 0, peX := 0 } (List.replicate (n + 1) x)).2.dcX = widen x := by
    rw [List.replicate_succ', prefilter_concat, preStep_dcX]
  rw [dcAfter, List.replicate_succ', prefilter_concat, preStep_dcY, hdcX, dcNext, sub_self, zero_add]
  rfl

theorem dcAfter_eq_iterate (sym : Bool) {alpha : Int} (h1 : alpha < 2 ^ 31) (h0 : 0 < alpha) (x : Int) (n : Nat) :
    dcAfter sym alpha x (n + 1) = (dcDecay alpha)^[n] (sat32 sym (widen x)) := by
  induction n with
  | zero => exact dcAfter_one sym alpha x
  | succ n ih =>
    have hsat : sat32 sym (dcAfter sym alpha x (n + 1)) = dcAfter sym alpha x (n + 1) := by
      cases n with
      | zero => rw [dcAfter_one, sat32_idem]
      | succ n => rw [dcAfter_succ, sat32_idem]
    rw [dcAfter_succ, sat32_dcDecay h1 h0 sym hsat, ih, Function.iterate_succ_apply']

/-- From some sample on the wide state is one value, which the decay does not move (42_prefilters.md R193). -/
theorem dcAfter_stops (sym : Bool) {alpha : Int} (h1 : alpha < 2 ^ 31) (h0 : 0 < alpha) (x : Int) :
    ∃ n y, dcDecay alpha y = y ∧ ∀ m, n ≤ m → dcAfter sym alpha x m = y := by
  obtain ⟨n, hfix⟩ := exists_iterate_dcDecay_fixed h1 h0 (sat32 sym (widen x))
  refine ⟨n + 1, _, hfix, fun m hm => ?_⟩
  obtain ⟨k, rfl⟩ := Nat.exists_eq_add_of_le hm
  rw [show n + 1 + k = (k + n) + 1 by omega, dcAfter_eq_iterate sym h1 h0, Function.iterate_add_apply,
    Function.iterate_fixed hfix]

theorem iterate_dcDecay_nonneg {alpha : Int} (h0 : 0 < alpha) (n : Nat) {y : Int} (hy : 0 ≤ y) :
    0 ≤ (dcDecay alpha)^[n] y := by
  induction n generalizing y with
  | zero => exact hy
  | succ n ih => exact ih (dcDecay_nonneg h0 hy)

theorem iterate_dcDecay_neg {alpha : Int} (h0 : 0 < alpha) (n : Nat) {y : Int} (hy : y < 0) :
    (dcDecay alpha)^[n] y < 0 := by
  induction n generalizing y with
  | zero => exact hy
  | succ n ih => exact ih (dcDecay_neg h0 hy)

/-- The sign of the wide state is that of the input. -/
theorem sat32_widen_neg_iff (sym : Bool) (x : Int) : sat32 sym (widen x) < 0 ↔ x < 0 := by
  have hlo := lo32_neg sym
  rw [sat32, clamp, widen, hi32]
  omega

/-- A wide state in the dead band of `alpha ≤ 2^31 - 2^16` is less than half a narrow unit below 0. -/
theorem narrow_deadBand (sym : Bool) {alpha y : Int} (ha : alpha ≤ 2 ^ 31 - 2 ^ 16) (hy : y ≤ 0)
    (hband : -y * (2 ^ 31 - alpha) < 2 ^ 31) : narrow sym y = 0 := by
  have hsmall : -y < 2 ^ 15 := by nlinarith
  have hraw : narrowRaw y = 0 := by
    rw [narrowRaw_eq_div]
    omega
  rw [narrow, hraw, sat16_eq_self sym (by norm_num) (by norm_num)]

/-- Settles O30: the state stops at a value the decay does not move; its sign is that of the input, and such a value is 0
or in the dead band. -/
theorem dcRemovalConverges : Obligations.DcRemovalConverges := by
  intro sym alpha x h0 h1 hxlo hxhi
  obtain ⟨n, y, hfix, hstop⟩ := dcAfter_stops sym h1 h0 x
  obtain ⟨hy, hband⟩ := dcDecay_fixed h1 hfix
  have hiter : y = (dcDecay alpha)^[n] (sat32 sym (widen x)) :=
    (hstop (n + 1) (by omega)).symm.trans (dcAfter_eq_iterate sym h1 h0 x n)
  refine ⟨fun hx => ⟨n, fun m hm => ?_⟩, fun hx => ⟨n, y, ?_, hband, hstop⟩, fun ha => ⟨n, fun m hm => ?_⟩⟩
  · have hnonneg := iterate_dcDecay_nonneg h0 n (not_lt.mp fun h => absurd ((sat32_widen_neg_iff sym x).mp h) (by omega))
    have hm' := hstop m hm
    omega
  · rw [hiter]
    exact iterate_dcDecay_neg h0 n ((sat32_widen_neg_iff sym x).mpr hx)
  · rw [hstop m hm]
    exact narrow_deadBand sym ha hy hband

end Sys2Proof.Machine
end

section
/-! PROOFS. One suppressor step written out element by element (45_noise_suppressor.md R261 to R271). -/

namespace Sys2Proof.Machine

/-! ### Elements of lists -/

theorem getD_zipWith {α β γ : Type} (f : α → β → γ) {l : List α} {l' : List β} {k : Nat} (h : k < l.length)
    (h' : k < l'.length) (d : α) (d' : β) (d'' : γ) :
    (List.zipWith f l l').getD k d'' = f (l.getD k d) (l'.getD k d') := by
  simp [List.getD_eq_getElem?_getD, h, h']

theorem map_getD_range {α : Type} {l : List α} {n : Nat} (h : l.length = n) (d : α) :
    (List.range n).map (fun k => l.getD k d) = l := by
  subst h
  exact List.ext_getElem (by simp) fun i h1 h2 => by simp [List.getD_eq_getElem?_getD, h2]

/-- A number is below the peak exactly when it is below the start or an element. -/
theorem lt_foldl_max_iff (t a : Int) (l : List Int) : t < l.foldl max a ↔ t < a ∨ ∃ v ∈ l, t < v := by
  induction l generalizing a with
  | nil => simp
  | cons v l ih => simp [ih, or_assoc]

/-! ### The parts of a step -/

theorem binPowers_getD {nb k : Nat} {z : List Cx} (hk : k < nb) (hz : nb ≤ z.length) :
    (binPowers nb z).getD k 0 = powq31 (cxAt z k).1 (cxAt z k).2 := by
  have hlt : k < z.length := by omega
  simp [binPowers, cxAt, List.getD_eq_getElem?_getD, hk, hlt]

theorem powq31_eq_div (re im : Int) : powq31 re im = min (2 ^ 31 - 1) (re * re / 2 ^ 31 + im * im / 2 ^ 31) := by
  rw [powq31, powq31Raw, asr_eq_div, asr_eq_div]
  rfl

theorem binPowers_nonneg (nb : Nat) (z : List Cx) : ∀ v ∈ binPowers nb z, 0 ≤ v := by
  intro v hv
  obtain ⟨u, -, rfl⟩ := List.mem_map.mp hv
  exact (powq31_range u.1 u.2).1

theorem fdiv_eq_div (a : Int) {b : Int} (hb : 0 ≤ b) : fdiv a b = a / b := Int.fdiv_eq_ediv_of_nonneg a hb

/-- The adaptation shift: the peak exceeds the threshold exactly when some power does, because powers are at least 0 and
there is a bin (45_noise_suppressor.md R263 to R265). -/
theorem rateShift_speechLike (nb : Nat) (p : List Int) (tpa : Int) (hne : p ≠ []) (hp : ∀ v ∈ p, 0 ≤ v) :
    rateShift (speechLike nb p tpa) =
      if tpa / nb + tpa / nb / 2 < p.sum / nb ∧ ∃ v ∈ p, tpa / nb + tpa / nb / 2 < v then 4 else 3 := by
  have hpeak : ∀ t, t < hopPeak p ↔ ∃ v ∈ p, t < v := by
    intro t
    rw [hopPeak, lt_foldl_max_iff]
    refine ⟨fun h => h.elim (fun hneg => ?_) id, .inr⟩
    obtain ⟨v, hv⟩ := List.exists_mem_of_ne_nil p hne
    exact ⟨v, hv, hneg.trans_le (hp v hv)⟩
  have hthr : speechThreshold nb tpa = tpa / nb + tpa / nb / 2 := by
    rw [speechThreshold, fdiv_eq_div _ (Int.natCast_nonneg nb), asr_eq_div, pow_one]
  simp only [rateShift, speechLike, hthr, hpeak, hopAverage, fdiv_eq_div _ (Int.natCast_nonneg nb), decide_eq_true_eq]

theorem estUpdate_eq_div (sh : Nat) (mn est : Int) :
    estUpdate sh mn est = min (2 ^ 31 - 1) (est - est / 2 ^ sh + (mn + est) / 2 / 2 ^ sh) := by
  rw [estUpdate, asr_eq_div, asr_eq_div, asr_eq_div, pow_one]
  rfl

theorem binGain_eq_div (sym : Bool) {cfg : NsCfg} (hfloor : 0 ≤ cfg.floor) (p est : Int) :
    binGain sym cfg p est =
      if cfg.floor < p then boundedQ15 sym (max (p - cfg.oversub * est / 512) cfg.floor * 512 / p) else 0 := by
  unfold binGain
  split
  · next hp => rw [divg, divgRaw, fdiv_eq_div _ (hfloor.trans hp.le), sat16_eq_boundedQ15, asr_eq_div]; rfl
  · rfl

theorem mulg_eq_div (sym : Bool) (x g : Int) : mulg sym x g = boundedQ31 sym (x * g / 512) := by
  rw [mulg, mulgRaw, asr_eq_div, sat32_eq_boundedQ31]
  rfl

theorem countUp_eq {cnt : Nat} (h : cnt ≤ 65535) : countUp cnt = cnt + 1 := Nat.mod_eq_of_lt (by omega)

/-! ### The step -/

section Step

variable (sym : Bool) (cfg : NsCfg) (nb : Nat) (st : Ns) (z : List Cx)

/-- The minima of a step before the tracker reset (45_noise_suppressor.md R262). -/
def stepMinima : List Int := minUpdate (binPowers nb z) st.min

/-- The estimates of a step (45_noise_suppressor.md R265). -/
def stepEstimates : List Int :=
  List.zipWith (estUpdate (rateShift (speechLike nb (binPowers nb z) st.tpa))) (stepMinima nb st z) st.est

/-- The gains of a step (45_noise_suppressor.md R268). -/
def stepGains : List Int := List.zipWith (binGain sym cfg) (binPowers nb z) (stepEstimates nb st z)

theorem nsStep_eq :
    nsStep sym cfg nb st z =
      { ns :=
          { min := if cfg.mintrack ≤ countUp st.cnt then (stepMinima nb st z).map fun _ => maxPow
              else stepMinima nb st z
            est := stepEstimates nb st z
            tpa := (stepEstimates nb st z).sum
            cnt := if cfg.mintrack ≤ countUp st.cnt then 0 else countUp st.cnt }
        gain := stepGains sym cfg nb st z
        z := List.zipWith (applyGain sym) (z.take nb) (stepGains sym cfg nb st z) ++ z.drop nb } := by
  simp only [nsStep, decide_eq_true_eq]
  rfl

variable {nb st z} (hz : nb ≤ z.length) (hmin : st.min.length = nb) (hest : st.est.length = nb)

include hz hmin in
theorem stepMinima_length : (stepMinima nb st z).length = nb := by simp [stepMinima, hmin, hz]

include hz hmin hest

theorem stepEstimates_length : (stepEstimates nb st z).length = nb := by
  simp [stepEstimates, stepMinima_length hz hmin, hest]

theorem stepGains_length : (stepGains sym cfg nb st z).length = nb := by
  simp [stepGains, stepEstimates_length hz hmin hest, hz]

omit hest in
theorem stepMinima_getD {k : Nat} (hk : k < nb) :
    (stepMinima nb st z).getD k 0 =
      if (binPowers nb z).getD k 0 < st.min.getD k 0 then (binPowers nb z).getD k 0 else st.min.getD k 0 :=
  getD_zipWith _ (by simp [hz, hk]) (hmin ▸ hk) 0 0 0

theorem stepEstimates_getD {k : Nat} (hk : k < nb) :
    (stepEstimates nb st z).getD k 0 =
      estUpdate (rateShift (speechLike nb (binPowers nb z) st.tpa)) ((stepMinima nb st z).getD k 0)
        (st.est.getD k 0) :=
  getD_zipWith _ (by rwa [stepMinima_length hz hmin]) (hest ▸ hk) 0 0 0

theorem stepGains_getD {k : Nat} (hk : k < nb) :
    (stepGains sym cfg nb st z).getD k 0 =
      binGain sym cfg ((binPowers nb z).getD k 0) ((stepEstimates nb st z).getD k 0) :=
  getD_zipWith _ (by simp [hz, hk]) (by rwa [stepEstimates_length hz hmin hest]) 0 0 0

/-- The bins of the frame are gained, the others are not touched (45_noise_suppressor.md R269, R271). -/
theorem cxAt_nsStep (k : Nat) :
    cxAt (nsStep sym cfg nb st z).z k =
      if k < nb then applyGain sym (cxAt z k) ((stepGains sym cfg nb st z).getD k 0) else cxAt z k := by
  have hlen : (List.zipWith (applyGain sym) (z.take nb) (stepGains sym cfg nb st z)).length = nb := by
    simp [stepGains_length sym cfg hz hmin hest, hz]
  rw [nsStep_eq, cxAt]
  by_cases hk : k < nb
  · rw [if_pos hk, List.getD_append _ _ _ _ (by rwa [hlen]), getD_zipWith _ (by simp; omega)
      (by rwa [stepGains_length sym cfg hz hmin hest]) (0, 0) 0, cxAt]
    simp [List.getD_eq_getElem?_getD, hk]
  · rw [if_neg hk, List.getD_append_right _ _ _ _ (by omega), hlen, cxAt]
    simp [List.getD_eq_getElem?_getD, Nat.add_sub_cancel' (not_lt.mp hk)]

/-- A suppressor step is the one of R261 to R271. -/
theorem nsStep_suppressorStep (hnb : 1 ≤ nb) (hcnt : st.cnt ≤ 65535) (hfloor : 0 ≤ cfg.floor) :
    SuppressorStep sym cfg nb st z (nsStep sym cfg nb st z) := by
  have hpow : (binPowers nb z).length = nb := by simp [hz]
  have hmins := stepMinima_length hz hmin
  have hests := stepEstimates_length hz hmin hest
  obtain ⟨hminlen, hestlen, hgainlen, hzlen⟩ := nsStep_lengths sym cfg nb st z hz hmin hest
  have hcounts := countUp_eq hcnt
  refine ⟨fun k => (binPowers nb z).getD k 0, fun k => (stepMinima nb st z).getD k 0,
    rateShift (speechLike nb (binPowers nb z) st.tpa), fun k hk => ⟨?_, stepMinima_getD hz hmin hk⟩, ?_,
    fun k hk => ⟨?_, ?_, ?_, ?_⟩, ?_, ?_, fun k hk => ?_, hminlen, hestlen, hgainlen, hzlen⟩
  · exact (binPowers_getD hk hz).trans (powq31_eq_div _ _)
  · have hne : binPowers nb z ≠ [] := List.ne_nil_of_length_pos (by omega)
    have hmem : ∀ t : Int, (∃ v ∈ binPowers nb z, t < v) ↔ ∃ k, k < nb ∧ t < (binPowers nb z).getD k 0 := by
      intro t
      conv_lhs => rw [← map_getD_range hpow 0]
      simp
    simp only [rateShift_speechLike nb _ st.tpa hne (binPowers_nonneg nb z), map_getD_range hpow 0, hmem]
  · rw [nsStep_eq]
    exact (stepEstimates_getD hz hmin hest hk).trans (estUpdate_eq_div _ _ _)
  · rw [nsStep_eq]
    exact (stepGains_getD sym cfg hz hmin hest hk).trans (binGain_eq_div sym hfloor _ _)
  · rw [cxAt_nsStep sym cfg hz hmin hest, if_pos hk, applyGain, mulg_eq_div, mulg_eq_div, nsStep_eq]
  · rw [nsStep_eq, hcounts]
    dsimp only
    split
    · simp [List.getD_eq_getElem?_getD, hmins, hk, maxPow]
    · rfl
  · rw [nsStep_eq, map_getD_range hests 0]
  · rw [nsStep_eq, hcounts]
  · rw [cxAt_nsStep sym cfg hz hmin hest, if_neg (not_lt.mpr hk)]

end Step

end Sys2Proof.Machine
end

section
/-! PROOFS. The state of a channel through the state window (10_state.md R53): every value a hop gives has the type of its
element, so a channel's state reads back as it was written. -/

namespace Sys2Proof.Machine

/-! ### Elements and runs read back as numbers -/

/-- A run of numbers that fit their elements reads back whole. -/
theorem toInt_sparseRun_sparsePut {w : Nat} {d : BitVec w} (m : Sparse w) (a n : Nat) (vs : List Int)
    (hn : vs.length = n) (hm : m.Pairwise (fun x y => x.1 < y.1)) (hvs : ∀ v ∈ vs, (BitVec.ofInt w v).toInt = v) :
    (sparseRun d (sparsePut d m a (vs.map (BitVec.ofInt w))) a n).map BitVec.toInt = vs := by
  obtain rfl : (vs.map (BitVec.ofInt w)).length = n := by rw [List.length_map, hn]
  rw [sparseRun_sparsePut _ m a hm, List.map_map]
  exact (List.map_congr_left hvs).trans (List.map_id vs)

theorem toInt_sparseRun_getD {w : Nat} {d : BitVec w} (m : Sparse w) (a n i : Nat) (hi : i < n) :
    ((sparseRun d m a n).map BitVec.toInt).getD i 0 = (sparseGet d m (a + i)).toInt := by
  simp [sparseRun, List.getD_eq_getElem?_getD, hi]

theorem toNat_ofInt64 {v : Int} (h0 : 0 ≤ v) (h1 : v < 2 ^ 64) : ((BitVec.ofInt 64 v).toNat : Int) = v := by
  rw [BitVec.toNat_ofInt]
  omega

/-! ### The types of a channel's values -/

/-- The values of a list lie between two bounds. -/
def ListIn (lo hi : Int) (l : List Int) : Prop := ∀ v ∈ l, lo ≤ v ∧ v ≤ hi

theorem ListIn.append {lo hi : Int} {l l' : List Int} (h : ListIn lo hi l) (h' : ListIn lo hi l') :
    ListIn lo hi (l ++ l') := fun v hv => (List.mem_append.mp hv).elim (h v) (h' v)

theorem ListIn.drop {lo hi : Int} {l : List Int} (h : ListIn lo hi l) (n : Nat) : ListIn lo hi (l.drop n) :=
  fun v hv => h v (List.mem_of_mem_drop hv)

theorem ListIn.getD {lo hi : Int} {l : List Int} (h : ListIn lo hi l) (hlo : lo ≤ 0) (hhi : 0 ≤ hi) (n : Nat) :
    lo ≤ l.getD n 0 ∧ l.getD n 0 ≤ hi := by
  obtain hn | hn := lt_or_ge n l.length
  · rw [List.getD_eq_getElem _ _ hn]
    exact h _ (List.getElem_mem hn)
  · rw [List.getD_eq_default _ _ hn]
    exact ⟨hlo, hhi⟩

/-- The sum of a list is between its length's multiples of the bounds. -/
theorem ListIn.sum {lo hi : Int} {l : List Int} (h : ListIn lo hi l) :
    l.length * lo ≤ l.sum ∧ l.sum ≤ l.length * hi := by
  induction l with
  | nil => simp
  | cons v l ih =>
    obtain ⟨⟨hlo, hhi⟩, hl⟩ := List.forall_mem_cons.mp h
    obtain ⟨ihlo, ihhi⟩ := ih hl
    simp only [List.sum_cons, List.length_cons, Nat.cast_succ, add_mul, one_mul]
    omega

/-- The filters' state has the types of its elements (10_state.md R53). -/
def Pre.Typed (st : Pre) : Prop :=
  (-2147483648 ≤ st.dcX ∧ st.dcX ≤ 2147483647) ∧ (-2147483648 ≤ st.dcY ∧ st.dcY ≤ 2147483647) ∧
  -2147483648 ≤ st.peX ∧ st.peX ≤ 2147483647

/-- The suppressor's state has the types of its elements (10_state.md R53). -/
def Ns.Typed (st : Ns) : Prop :=
  ListIn 0 2147483647 st.min ∧ ListIn 0 2147483647 st.est ∧ (0 ≤ st.tpa ∧ st.tpa < 2 ^ 64) ∧ st.cnt < 2 ^ 32

/-- A channel's state has the types of its elements (10_state.md R53). -/
def Chan.Typed (ch : Chan) : Prop :=
  ch.pre.Typed ∧ ListIn (-32768) 32767 ch.buf ∧ ListIn (-2147483648) 2147483647 ch.ola ∧ ch.ns.Typed

/-! ### What the window holds is typed -/

theorem sparseRun_listIn {w : Nat} {d : BitVec w} (m : Sparse w) (a n : Nat) {lo hi : Int}
    (h : ∀ b, lo ≤ (sparseGet d m b).toInt ∧ (sparseGet d m b).toInt ≤ hi) :
    ListIn lo hi ((sparseRun d m a n).map BitVec.toInt) := by
  intro v hv
  simp only [sparseRun, List.map_map, List.mem_map, Function.comp_apply] at hv
  obtain ⟨i, -, rfl⟩ := hv
  exact h _

/-- An element of MIN or EST is a power: an int32 of at least 0 (10_state.md R53). -/
theorem power_toInt_mem {d : Word} {m : Sparse 32} (hd : d.toNat ≤ 2147483647) (h : ∀ c ∈ m, c.2.toNat ≤ 2147483647)
    (a : Nat) : 0 ≤ (sparseGet d m a).toInt ∧ (sparseGet d m a).toInt ≤ 2147483647 := by
  have hle : (sparseGet d m a).toNat ≤ 2147483647 := by
    obtain hdef | hmem := sparseGet_cases (d := d) m a
    · rwa [hdef]
    · exact h _ hmem
  rw [BitVec.toInt_eq_toNat_of_lt (by omega)]
  omega

theorem loadChan_typed (p : Params) (a : Act) {w : Window} (h : windowTyped w) (c : Nat) :
    (loadChan p a w c).Typed := by
  obtain ⟨-, -, hmin, hest⟩ := h
  refine ⟨⟨word_toInt_mem _, word_toInt_mem _, word_toInt_mem _⟩,
    sparseRun_listIn _ _ _ fun b => half_toInt_mem _, sparseRun_listIn _ _ _ fun b => word_toInt_mem _,
    sparseRun_listIn _ _ _ fun b => power_toInt_mem (by decide) hmin b,
    sparseRun_listIn _ _ _ fun b => power_toInt_mem (by decide) hest b, ?_, BitVec.isLt _⟩
  exact ⟨Int.natCast_nonneg _, Int.ofNat_lt.mpr (sparseGet 0 w.nsTpa c).isLt⟩

theorem loadChan_cnt_le (p : Params) (a : Act) {w : Window} (h : windowTyped w) (c : Nat) :
    (loadChan p a w c).ns.cnt ≤ 65535 := by
  obtain ⟨-, hcnt, -, -⟩ := h
  change (sparseGet 0 w.nsCnt c).toNat ≤ 65535
  obtain hdef | hmem := sparseGet_cases (d := 0) w.nsCnt c
  · rw [hdef]
    decide
  · exact hcnt _ hmem

/-! ### What a hop gives is typed -/

theorem preStep_typed (sym : Bool) (al pe : Int) (st : Pre) {x : Int} (hx : -32768 ≤ x ∧ x ≤ 32767) :
    (preStep sym al pe st x).2.Typed := by
  have hpeX := sat16_mem sym (narrowRaw (dcNext sym al (widen x) st.dcX st.dcY))
  have hdcX : widen x = x * 65536 := rfl
  refine ⟨?_, sat32_mem sym _, ?_⟩
  · rw [preStep_dcX]
    omega
  · change -2147483648 ≤ sat16 sym _ ∧ sat16 sym _ ≤ 2147483647
    omega

theorem prefilter_typed (sym : Bool) (al pe : Int) {st : Pre} {xs : List Int} (hst : st.Typed)
    (hxs : ListIn (-32768) 32767 xs) :
    (prefilter sym al pe st xs).2.Typed ∧ ListIn (-32768) 32767 (prefilter sym al pe st xs).1 := by
  induction xs generalizing st with
  | nil => exact ⟨hst, fun v hv => absurd hv List.not_mem_nil⟩
  | cons x xs ih =>
    obtain ⟨hx, hrest⟩ := List.forall_mem_cons.mp hxs
    obtain ⟨ihst, ihout⟩ := ih (preStep_typed sym al pe st hx) hrest
    exact ⟨ihst, List.forall_mem_cons.mpr ⟨sat16_mem sym _, ihout⟩⟩

theorem estUpdate_mem (sh : Nat) {mn est : Int} (hmn : 0 ≤ mn) (hest : 0 ≤ est) :
    0 ≤ estUpdate sh mn est ∧ estUpdate sh mn est ≤ 2147483647 := by
  have hshrink : est / 2 ^ sh ≤ est := Int.ediv_le_self _ hest
  have hblend : 0 ≤ (mn + est) / 2 / 2 ^ sh := Int.ediv_nonneg (by omega) (by positivity)
  rw [estUpdate_eq_div]
  omega

/-- The step of the suppressor keeps its state's types: at most 16385 estimates, each below 2^31, sum below 2^64. -/
theorem nsStep_typed (sym : Bool) (cfg : NsCfg) {nb : Nat} {st : Ns} {z : List Cx} (hst : st.Typed) (hz : nb ≤ z.length)
    (hmin : st.min.length = nb) (hest : st.est.length = nb) (hnb : nb ≤ 16385) :
    (nsStep sym cfg nb st z).ns.Typed := by
  obtain ⟨hmins, hests, -, hcnt⟩ := hst
  have hpow : ListIn 0 2147483647 (binPowers nb z) := fun v hv => by
    obtain ⟨u, -, rfl⟩ := List.mem_map.mp hv
    exact powq31_range u.1 u.2
  have hmin' : ListIn 0 2147483647 (stepMinima nb st z) := minUpdate_range _ _ hpow hmins
  have hest' : ListIn 0 2147483647 (stepEstimates nb st z) := fun v hv => by
    obtain ⟨i, hi, rfl⟩ := List.mem_iff_getElem.mp hv
    simp only [stepEstimates, List.getElem_zipWith]
    exact estUpdate_mem _ (hmin' _ (List.getElem_mem _)).1 (hests _ (List.getElem_mem _)).1
  obtain ⟨hsum0, hsum⟩ := hest'.sum
  rw [stepEstimates_length hz hmin hest] at hsum0 hsum
  rw [nsStep_eq]
  refine ⟨?_, hest', ⟨by simpa using hsum0, by dsimp only; omega⟩, ?_⟩
  · dsimp only
    split
    · exact List.forall_mem_map.mpr fun _ _ => by decide
    · exact hmin'
  · have hup : countUp st.cnt < 2 ^ 32 := Nat.mod_lt _ (by norm_num)
    dsimp only
    split <;> omega

theorem suppress_typed (sym : Bool) {a : Act} {ns : Ns} {z : List Cx} (hns : ns.Typed) (hz : a.NB ≤ z.length)
    (hmin : ns.min.length = a.NB) (hest : ns.est.length = a.NB) (hnb : a.NB ≤ 16385) :
    (suppress sym a ns z).ns.Typed := by
  rw [suppress]
  split
  · exact nsStep_typed sym a.nsCfg hns hz hmin hest hnb
  · exact hns

theorem stored32_mem (v : Int) : -2147483648 ≤ stored32 v ∧ stored32 v ≤ 2147483647 := word_toInt_mem _

theorem olaStep_state_listIn (sym : Bool) (h nsh : Nat) (ola y : List Int) :
    ListIn (-2147483648) 2147483647 (olaStep sym h nsh ola y).2 := by
  refine ListIn.append (ListIn.drop (fun v hv => ?_) h) fun v hv => ?_
  · obtain ⟨i, hi, rfl⟩ := List.mem_iff_getElem.mp hv
    simp only [olaAdd, List.getElem_zipWith]
    exact stored32_mem _
  · obtain rfl := List.eq_of_mem_replicate hv
    decide

theorem olaStep_output_listIn (sym : Bool) (h nsh : Nat) (ola y : List Int) :
    ListIn (-32768) 32767 (olaStep sym h nsh ola y).1 :=
  List.forall_mem_map.mpr fun _ _ => sat16_mem sym _

theorem rdI16_mem (m : Memory) (a : Nat) : -32768 ≤ rdI16 m a ∧ rdI16 m a ≤ 32767 := half_toInt_mem _

theorem readInput_listIn (a : Act) (r : Regs) (m : Memory) (c : Nat) : ListIn (-32768) 32767 (readInput a r m c) :=
  List.forall_mem_map.mpr fun _ _ => rdI16_mem m _

/-! ### A channel's state read back -/

/-- The indices of a sparse list are rising. -/
def Rising {w : Nat} (m : Sparse w) : Prop := m.Pairwise (fun x y => x.1 < y.1)

/-- Every array of the state window lists its indices rising (10_state.md R53): those of a channel's frame, then those of
the suppressor. -/
def Window.Sorted (w : Window) : Prop :=
  (Rising w.dcX ∧ Rising w.dcY ∧ Rising w.peX ∧ Rising w.buf ∧ Rising w.ola) ∧
  Rising w.nsCnt ∧ Rising w.nsTpa ∧ Rising w.min ∧ Rising w.est

theorem windowSorted_of_windowWf {p : Params} {w : Window} (h : windowWf p w) : w.Sorted := by
  obtain ⟨⟨hdcX, -⟩, ⟨hdcY, -⟩, ⟨hpeX, -⟩, ⟨hcnt, -⟩, ⟨htpa, -⟩, ⟨hbuf, -⟩, ⟨hola, -⟩, ⟨hmin, -⟩, ⟨hest, -⟩⟩ := h
  exact ⟨⟨hdcX, hdcY, hpeX, hbuf, hola⟩, hcnt, htpa, hmin, hest⟩

theorem storeFrame_sorted {p : Params} {w : Window} (h : w.Sorted) (c : Nat) (ch : Chan) :
    (storeFrame p w c ch).Sorted := by
  obtain ⟨⟨hdcX, hdcY, hpeX, hbuf, hola⟩, hns⟩ := h
  exact ⟨⟨sparseSet_pairwise _ _ _ hdcX, sparseSet_pairwise _ _ _ hdcY, sparseSet_pairwise _ _ _ hpeX,
    sparsePut_pairwise _ _ _ hbuf, sparsePut_pairwise _ _ _ hola⟩, hns⟩

theorem storeNs_sorted {a : Act} {w : Window} (h : w.Sorted) (c : Nat) (ns : Ns) : (storeNs a w c ns).Sorted := by
  obtain ⟨hframe, hcnt, htpa, hmin, hest⟩ := h
  exact ⟨hframe, sparseSet_pairwise _ _ _ hcnt, sparseSet_pairwise _ _ _ htpa, sparsePut_pairwise _ _ _ hmin,
    sparsePut_pairwise _ _ _ hest⟩

theorem storeChan_sorted {p : Params} {a : Act} {w : Window} (h : w.Sorted) (c : Nat) (ch : Chan) :
    (storeChan p a w c ch).Sorted := by
  unfold storeChan
  split
  · exact storeNs_sorted (storeFrame_sorted h c ch) c ch.ns
  · exact storeFrame_sorted h c ch

/-- The filters, buffer and accumulator of a channel read back as written; the suppressor's state is untouched. -/
theorem loadChan_storeFrame {p : Params} {a : Act} {w : Window} (hw : w.Sorted) (c : Nat) {ch : Chan} (ht : ch.Typed)
    (hbuf : ch.buf.length = a.F) (hola : ch.ola.length = a.F) :
    loadChan p a (storeFrame p w c ch) c = { ch with ns := (loadChan p a w c).ns } := by
  obtain ⟨⟨hdcX, hdcY, hpeX⟩, hbufs, holas, -⟩ := ht
  obtain ⟨⟨hwX, hwY, hwP, hwbuf, hwola⟩, -⟩ := hw
  simp only [loadChan, storeFrame, sparseGet_sparseSet_same _ _ _ hwX, sparseGet_sparseSet_same _ _ _ hwY,
    sparseGet_sparseSet_same _ _ _ hwP, toInt_ofInt32 _ hdcX.1 hdcX.2, toInt_ofInt32 _ hdcY.1 hdcY.2,
    toInt_ofInt32 _ hpeX.1 hpeX.2,
    toInt_sparseRun_sparsePut _ _ _ _ hbuf hwbuf fun v hv => toInt_ofInt16 v (hbufs v hv).1 (hbufs v hv).2,
    toInt_sparseRun_sparsePut _ _ _ _ hola hwola fun v hv => toInt_ofInt32 v (holas v hv).1 (holas v hv).2]

/-- The suppressor's state of a channel reads back as written; the rest is untouched. -/
theorem loadChan_storeNs {p : Params} {a : Act} {w : Window} (hw : w.Sorted) (c : Nat) {ns : Ns} (ht : ns.Typed)
    (hmin : ns.min.length = a.NB) (hest : ns.est.length = a.NB) :
    loadChan p a (storeNs a w c ns) c = { loadChan p a w c with ns := ns } := by
  obtain ⟨hmins, hests, ⟨htpa0, htpa⟩, hcnt⟩ := ht
  have hfit : ∀ {l : List Int}, ListIn 0 2147483647 l → ∀ v ∈ l, (BitVec.ofInt 32 v).toInt = v := fun hl v hv =>
    toInt_ofInt32 v (le_trans (by norm_num) (hl v hv).1) (hl v hv).2
  obtain ⟨-, hwcnt, hwtpa, hwmin, hwest⟩ := hw
  simp only [loadChan, storeNs, sparseGet_sparseSet_same _ _ _ hwcnt, sparseGet_sparseSet_same _ _ _ hwtpa,
    toNat_ofInt64 htpa0 htpa, BitVec.toNat_ofNat, Nat.mod_eq_of_lt hcnt,
    toInt_sparseRun_sparsePut _ _ _ _ hmin hwmin (hfit hmins),
    toInt_sparseRun_sparsePut _ _ _ _ hest hwest (hfit hests)]

/-- A channel's state reads back as written back, when the suppressor's is either written or the one that stands there
(45_noise_suppressor.md R272). -/
theorem loadChan_storeChan_same {p : Params} {a : Act} {w : Window} (hw : w.Sorted) (c : Nat) {o : ChanOut}
    (ho : o.Sized a) (ht : o.ch.Typed) (hoff : a.nsEn = false → o.ch.ns = (loadChan p a w c).ns) :
    loadChan p a (storeChan p a w c o.ch) c = o.ch := by
  obtain ⟨⟨hbuf, hola, hmin, hest⟩, -⟩ := ho
  have hframe := loadChan_storeFrame (p := p) hw c ht hbuf hola
  obtain ⟨-, -, -, htns⟩ := ht
  unfold storeChan
  split
  · rw [loadChan_storeNs (storeFrame_sorted hw c o.ch) c htns hmin hest, hframe]
  · next hns => rw [hframe, ← hoff (Bool.eq_false_iff.mpr hns)]

end Sys2Proof.Machine
end

section
/-! PROOFS. A hop channel by channel, its values (42_prefilters.md R199, 46_synthesis_hop.md R295, R300): the state of
every channel and the output hop are what each channel's pipeline gives from the state before the hop. -/

namespace Sys2Proof.Machine

/-! ### What one channel gives is typed -/

theorem chanStep_ns (sym : Bool) (a : Act) (t : Tables) (ch : Chan) (xs : List Int) :
    (chanStep sym a t ch xs).ch.ns =
      (suppress sym a ch.ns (transform sym false t.cos t.sin a.L (loadFrame (chanStep sym a t ch xs).xw))).ns := rfl

theorem chanStep_out_listIn (sym : Bool) (a : Act) (t : Tables) (ch : Chan) (xs : List Int) :
    ListIn (-32768) 32767 (chanStep sym a t ch xs).out := olaStep_output_listIn sym a.H a.nsh ch.ola _

theorem chanStep_typed (sym : Bool) (a : Act) (t : Tables) {ch : Chan} {xs : List Int} (ht : ch.Typed)
    (hxs : ListIn (-32768) 32767 xs) (hmin : ch.ns.min.length = a.NB) (hest : ch.ns.est.length = a.NB)
    (hxw : a.NB ≤ (chanStep sym a t ch xs).xw.length) (hnb : a.NB ≤ 16385) : (chanStep sym a t ch xs).ch.Typed := by
  obtain ⟨hpre, hbuf, -, hns⟩ := ht
  obtain ⟨hpre', he⟩ := prefilter_typed sym a.dcAlpha.toInt a.peAlpha.toInt hpre hxs
  refine ⟨hpre', (hbuf.drop a.H).append he, olaStep_state_listIn sym a.H a.nsh ch.ola _, ?_⟩
  rw [chanStep_ns]
  exact suppress_typed sym hns (by simpa using hxw) hmin hest hnb

theorem hopChan_ns_off {s : State} (hns : s.act.nsEn = false) (c : Nat) :
    (hopChan s c).ch.ns = (loadChan s.params s.act s.win c).ns := by
  rw [hopChan, chanStep_ns, suppress, if_neg (Bool.eq_false_iff.mp hns)]

/-! ### The mean of the channels -/

/-- The mean of int16 values, truncated toward zero, is an int16 (46_synthesis_hop.md R295). -/
theorem tdiv_sum_mem {l : List Int} (hl : ListIn (-32768) 32767 l) (hne : 0 < l.length) :
    -32768 ≤ Int.tdiv l.sum l.length ∧ Int.tdiv l.sum l.length ≤ 32767 := by
  obtain ⟨hlo, hhi⟩ := hl.sum
  have hpos : (0 : Int) < l.length := by exact_mod_cast hne
  obtain hnonneg | hneg := le_or_gt 0 l.sum
  · rw [Int.tdiv_eq_ediv_of_nonneg hnonneg]
    have hq := Int.ediv_nonneg hnonneg hpos.le
    exact ⟨by omega, Int.ediv_le_of_le_mul hpos (by linarith)⟩
  · have hq : Int.tdiv l.sum l.length = -(-l.sum / l.length) := by
      rw [← Int.tdiv_eq_ediv_of_nonneg (by omega), Int.neg_tdiv, neg_neg]
    have hq0 : 0 ≤ -l.sum / l.length := Int.ediv_nonneg (by omega) hpos.le
    have hq1 : -l.sum / l.length ≤ 32768 := Int.ediv_le_of_le_mul hpos (by linarith)
    omega

/-! ### What a hop has kept -/

/-- What a hop on `s` has kept after its first `n` channels: their states in the window and their outputs. -/
def HopStored (s : State) (n : Nat) (acc : HopAcc) : Prop :=
  acc.win.Sorted ∧ (∀ c, c < n → loadChan s.params s.act acc.win c = (hopChan s c).ch) ∧
  acc.outs = (List.range n).map fun c => (hopChan s c).out

section Hop

variable {s : State} (hI : s.Inv) (hR : HopReady s)
include hI hR

theorem windowTyped_of_hopReady : windowTyped s.win := by
  obtain ⟨hready, -⟩ := hR
  obtain ⟨-, -, -, hact⟩ := hI
  exact (hact hready).2

/-- A frame of at most 32768 has at most 16385 bins (00_scope.md R7). -/
theorem hop_bins : 1 ≤ s.act.NB ∧ s.act.NB ≤ 16385 ∧ s.act.NB ≤ s.act.F := by
  obtain ⟨hF, -, hmax, -⟩ := hop_frame hI hR
  obtain ⟨⟨-, hlegal, -⟩, -⟩ := hI
  rw [Act.NB]
  omega

theorem hopChan_typed (c : Nat) : (hopChan s c).ch.Typed := by
  obtain ⟨-, hbins, hle⟩ := hop_bins hI hR
  obtain ⟨-, hxw, -⟩ := hopChan_sized hI hR c
  exact chanStep_typed _ _ _ (loadChan_typed _ _ (windowTyped_of_hopReady hI hR) c) (readInput_listIn _ _ _ _)
    (loadChan_min_length ..) (loadChan_est_length ..) (hle.trans hxw.ge) hbins

theorem hopStored_step {n : Nat} {acc : HopAcc} (hp : HopProgress s n acc) (h : HopStored s n acc)
    (hn : n < s.act.C) : HopStored s (n + 1) (hopChannel s.params s.act s.regs acc n) := by
  obtain ⟨hsorted, hdone, houts⟩ := h
  obtain ⟨-, hmem, hlater, -, -⟩ := hp
  obtain ⟨-, -, hmax, -⟩ := hop_frame hI hR
  have hsized := hopChan_sized hI hR n
  have hn' := hlater n le_rfl
  rw [hopChannel_eq hI hR hn hmem hn']
  refine ⟨storeChan_sorted hsorted n _, fun c hc => ?_, by rw [houts, List.range_succ, List.map_append]; rfl⟩
  obtain rfl | hlt := Nat.eq_or_lt_of_le (Nat.le_of_lt_succ hc)
  · exact loadChan_storeChan_same hsorted c hsized (hopChan_typed hI hR c)
      fun hns => by rw [hn', hopChan_ns_off hns]
  · exact (loadChan_storeChan_ne acc.win hsized hmax hlt.ne).trans (hdone c hlt)

theorem hopStored_foldl (n : Nat) (hn : n ≤ s.act.C) :
    HopStored s n
      ((List.range n).foldl (hopChannel s.params s.act s.regs) { win := s.win, dmem := s.dmem, outs := [] }) := by
  induction n with
  | zero =>
    obtain ⟨-, -, hwin, -⟩ := hI
    exact ⟨windowSorted_of_windowWf hwin, fun _ h => absurd h (Nat.not_lt_zero _), rfl⟩
  | succ n ih =>
    rw [List.range_succ, List.foldl_append]
    exact hopStored_step hI hR (hopProgress_foldl hI hR n (by omega)) (ih (by omega)) hn

/-- The state of every channel after a hop is what its own pipeline gives. -/
theorem loadChan_hopEffect {c : Nat} (hc : c < s.act.C) :
    loadChan s.params s.act (hopEffect s).win c = (hopChan s c).ch := by
  obtain ⟨-, hdone, -⟩ := hopStored_foldl hI hR s.act.C le_rfl
  exact hdone c hc

/-! ### The output hop -/

/-- Output sample `i` of a hop: the mean of the channels' outputs, truncated toward zero (46_synthesis_hop.md R295). -/
theorem rdI16_hopEffect_out {i : Nat} (hi : i < s.act.H) :
    rdI16 (hopEffect s).dmem ((s.readReg 0x048).toNat + 2 * i) =
      Int.tdiv ((List.range s.act.C).map fun c => (hopChan s c).out.getD i 0).sum s.act.C := by
  obtain ⟨-, -, houts⟩ := hopStored_foldl hI hR s.act.C le_rfl
  obtain ⟨hsorted, -⟩ := hopProgress_channels hI hR
  obtain ⟨-, -, -, hC⟩ := hop_frame hI hR
  have hmean := tdiv_sum_mem (l := (List.range s.act.C).map fun c => (hopChan s c).out.getD i 0)
    (List.forall_mem_map.mpr fun c _ => (chanStep_out_listIn _ _ _ _ _).getD (by norm_num) (by norm_num) i)
    (by rwa [List.length_map, List.length_range])
  rw [List.length_map, List.length_range] at hmean
  have hread := rdI16_wrI16s (combine s.act.C s.act.H (hopChannels s.params s.act s.regs s.win s.dmem).outs)
    (hopChannels s.params s.act s.regs s.win s.dmem).dmem (outRegion s.act s.regs).base i hsorted (by simpa using hi)
  have hval : (combine s.act.C s.act.H (hopChannels s.params s.act s.regs s.win s.dmem).outs)[i]'(by simpa using hi) =
      Int.tdiv ((List.range s.act.C).map fun c => (hopChan s c).out.getD i 0).sum s.act.C := by
    simp only [combine, List.getElem_map, List.getElem_range, channelSum, hopChannels, houts, List.map_map]
    rfl
  rw [hval, toInt_ofInt16 _ hmean.1 hmean.2] at hread
  exact hread

end Hop

end Sys2Proof.Machine
end

section
/-! PROOFS. The pipeline of a channel written out, from the input samples to the windowed frame (42_prefilters.md R191,
R195, 43_framing_window.md R211, R215) and from there to the output and the accumulator (44_transform.md R231 to R243,
46_synthesis_hop.md R293). -/

namespace Sys2Proof.Machine

/-! ### The filters sample by sample -/

/-- The filters' state before sample `i` of a hop. -/
def preBefore (sym : Bool) (al pe : Int) (st : Pre) (xs : List Int) (i : Nat) : Pre :=
  (prefilter sym al pe st (xs.take i)).2

section Samples

variable (sym : Bool) (al pe : Int) (st : Pre) (xs : List Int)

theorem preBefore_length : preBefore sym al pe st xs xs.length = (prefilter sym al pe st xs).2 := by
  rw [preBefore, List.take_length]

variable {xs} {i : Nat} (hi : i < xs.length)
include hi

theorem preBefore_succ :
    preBefore sym al pe st xs (i + 1) = (preStep sym al pe (preBefore sym al pe st xs i) (xs.getD i 0)).2 := by
  rw [preBefore, List.take_succ_eq_append_getElem hi, prefilter_concat, List.getD_eq_getElem _ _ hi, preBefore]

theorem prefilter_getD :
    (prefilter sym al pe st xs).1.getD i 0 =
      (preStep sym al pe (preBefore sym al pe st xs i) (xs.getD i 0)).1 := by
  have hsplit : xs = xs.take i ++ xs.getD i 0 :: xs.drop (i + 1) := by
    rw [List.getD_eq_getElem _ _ hi, List.cons_getElem_drop_succ, List.take_append_drop]
  have hlen : (prefilter sym al pe st (xs.take i)).1.length = i := by
    rw [prefilter_length, List.length_take_of_le hi.le]
  conv_lhs => rw [hsplit, prefilter_append, prefilter_cons]
  rw [List.getD_append_right _ _ _ _ hlen.le, hlen, Nat.sub_self]
  rfl

end Samples

theorem preStep_out (sym : Bool) (al pe : Int) (st : Pre) (x : Int) :
    (preStep sym al pe st x).1 = peOut sym pe (preStep sym al pe st x).2.peX st.peX := rfl

theorem preStep_peX (sym : Bool) (al pe : Int) (st : Pre) (x : Int) :
    (preStep sym al pe st x).2.peX = narrow sym (preStep sym al pe st x).2.dcY := rfl

/-! ### The buffer and the window -/

theorem bufferStep_getD {h f n : Nat} {buf e : List Int} (hb : buf.length = f) (hf : h ≤ f) :
    (bufferStep h buf e).getD n 0 = if n + h < f then buf.getD (n + h) 0 else e.getD (n + h - f) 0 := by
  have hlen : (buf.drop h).length = f - h := by rw [List.length_drop, hb]
  rw [bufferStep]
  split
  · rw [List.getD_append _ _ _ _ (by omega)]
    simp [List.getD_eq_getElem?_getD, Nat.add_comm]
  · rw [List.getD_append_right _ _ _ _ (by omega), hlen, show n - (f - h) = n + h - f by omega]

theorem chanStep_xw (sym : Bool) (a : Act) (t : Tables) (ch : Chan) (xs : List Int) :
    (chanStep sym a t ch xs).xw = windowStep sym (chanStep sym a t ch xs).ch.buf t.win := rfl

theorem windowStep_getD (sym : Bool) {buf win : List Int} {n : Nat} (hb : n < buf.length) (hw : n < win.length) :
    (windowStep sym buf win).getD n 0 = sat16 sym (buf.getD n 0 * win.getD n 0 / 2 ^ 15) := by
  rw [windowStep, getD_zipWith _ hb hw 0 0, mulq15, mulq15Raw, asr_eq_div]

theorem rdI16s_getD (m : Memory) (a : Nat) {n i : Nat} (hi : i < n) : (rdI16s m a n).getD i 0 = rdI16 m (a + 2 * i) := by
  simp [rdI16s, List.getD_eq_getElem?_getD, hi]

theorem rdI32s_getD (m : Memory) (a : Nat) {n i : Nat} (hi : i < n) : (rdI32s m a n).getD i 0 = rdI32 m (a + 4 * i) := by
  simp [rdI32s, List.getD_eq_getElem?_getD, hi]

theorem readInput_getD (a : Act) (r : Regs) (m : Memory) (c : Nat) {i : Nat} (hi : i < a.H) :
    (readInput a r m c).getD i 0 = rdI16 m ((baseValue r.inBase).toNat + 2 * (i * a.C + c)) := by
  simp [readInput, List.getD_eq_getElem?_getD, hi]

/-! ### The overlap-add -/

theorem stored32_eq_self {v : Int} (h1 : -(2 ^ 31) ≤ v) (h2 : v < 2 ^ 31) : stored32 v = v :=
  toInt_ofInt32 v (by omega) (by omega)

section Overlap

variable (sym : Bool) (h nsh : Nat) {f n : Nat} {ola y : List Int} (hola : ola.length = f) (hy : y.length = f)
include hola hy

theorem olaAdd_getD (hn : n < f) : (olaAdd ola y).getD n 0 = stored32 (ola.getD n 0 + y.getD n 0) :=
  getD_zipWith _ (hola ▸ hn) (hy ▸ hn) 0 0 0

theorem olaStep_out_getD (hn : n < f) (hnh : n < h) :
    (olaStep sym h nsh ola y).1.getD n 0 = sat16 sym (stored32 (ola.getD n 0 + y.getD n 0) / 2 ^ nsh) := by
  have hlen : n < (olaAdd ola y).length := by rwa [olaAdd_length, hola, hy, min_self]
  have helem := olaAdd_getD hola hy hn
  rw [List.getD_eq_getElem _ _ hlen] at helem
  rw [olaStep, List.getD_eq_getElem _ _ (by simp; omega)]
  simp [helem, asr_eq_div]

/-- The accumulator moves left by a hop. -/
theorem olaStep_state_getD (hn : n + h < f) :
    (olaStep sym h nsh ola y).2.getD n 0 = stored32 (ola.getD (n + h) 0 + y.getD (n + h) 0) := by
  have hlen : (olaAdd ola y).length = f := by rw [olaAdd_length, hola, hy, min_self]
  rw [← olaAdd_getD hola hy hn, olaStep, List.getD_append _ _ _ _ (by rw [List.length_drop, hlen]; omega)]
  simp [List.getD_eq_getElem?_getD, Nat.add_comm]

/-- The last hop of the accumulator is 0. -/
theorem olaStep_state_getD_zero (hn : f ≤ n + h) : (olaStep sym h nsh ola y).2.getD n 0 = 0 := by
  have hlen : (olaAdd ola y).length = f := by rw [olaAdd_length, hola, hy, min_self]
  rw [olaStep, List.getD_append_right _ _ _ _ (by rw [List.length_drop, hlen]; omega), List.getD_eq_getElem?_getD]
  exact List.getElem?_getD_replicate_default_eq _ _ _

end Overlap

/-! ### The frame around the transform -/

theorem loadFrame_eq_range {xw : List Int} {n : Nat} (h : xw.length = n) :
    loadFrame xw = (List.range n).map fun i => (xw.getD i 0 * 2 ^ 16, 0) := by
  conv_lhs => rw [← map_getD_range h 0, loadFrame, List.map_map]
  rfl

theorem cxAt_rescale (sym : Bool) (lf : Nat) {z : List Cx} {n : Nat} (hn : n < z.length) :
    cxAt (rescale sym lf z) n =
      (boundedQ31 sym ((cxAt z n).1 * 2 ^ lf), boundedQ31 sym ((cxAt z n).2 * 2 ^ lf)) := by
  simp [cxAt, rescale, List.getD_eq_getElem?_getD, hn, shls32, shls32Raw, sat32_eq_boundedQ31]

theorem narrowFrame_getD (sym : Bool) {z : List Cx} {n : Nat} (hn : n < z.length) :
    (narrowFrame sym z).getD n 0 = boundedQ15 sym (((cxAt z n).1 + 2 ^ 15) / 2 ^ 16) := by
  have helem : (narrowFrame sym z).getD n 0 = narrow sym (cxAt z n).1 := by
    simp [cxAt, narrowFrame, List.getD_eq_getElem?_getD, hn]
  rw [helem, narrow, narrowRaw_eq_div, sat16_eq_boundedQ15]
  rfl

theorem nsAt_eq_loadChan (p : Params) (a : Act) (w : Window) (c : Nat) : w.nsAt a.NB c = (loadChan p a w c).ns := by
  simp only [Window.nsAt, loadChan, sparseRun, List.map_map]
  rfl

/-! ### The parts of a hop's channel -/

section Parts

variable {s : State} {c : Nat}

/-- The filters' state of channel `c` of a hop on `s` before sample `i`. -/
def hopPre (s : State) (c i : Nat) : Pre :=
  preBefore s.params.symSat s.act.dcAlpha.toInt s.act.peAlpha.toInt (loadChan s.params s.act s.win c).pre
    (readInput s.act s.regs s.dmem c) i

theorem hopPre_succ {i : Nat} (hi : i < s.act.H) :
    hopPre s c (i + 1) =
      (preStep s.params.symSat s.act.dcAlpha.toInt s.act.peAlpha.toInt (hopPre s c i)
        (rdI16 s.dmem ((s.readReg 0x044).toNat + 2 * (i * s.act.C + c)))).2 := by
  rw [hopPre, preBefore_succ _ _ _ _ (by rwa [readInput_length]), readInput_getD _ _ _ _ hi]
  rfl

theorem hopPre_last : hopPre s c s.act.H = (hopChan s c).ch.pre := by
  rw [hopChan, chanStep_pre, ← preBefore_length, readInput_length, hopPre]

/-- The filter keeps the widened input (46_synthesis_hop.md R301, 42_prefilters.md R191). -/
theorem hopPre_dcX_succ {i : Nat} (hi : i < s.act.H) :
    (hopPre s c (i + 1)).dcX = rdI16 s.dmem ((s.readReg 0x044).toNat + 2 * (i * s.act.C + c)) * 2 ^ 16 := by
  rw [hopPre_succ hi]
  rfl

/-- DC removal (42_prefilters.md R191). -/
theorem hopPre_dcY_succ {i : Nat} (hi : i < s.act.H) :
    (hopPre s c (i + 1)).dcY =
      bounded s.low32 (2 ^ 31 - 1)
        ((hopPre s c (i + 1)).dcX - (hopPre s c i).dcX + s.act.dcAlpha.toInt * (hopPre s c i).dcY / 2 ^ 31) := by
  rw [hopPre_succ hi, preStep_dcX, preStep_dcY, dcNext, asr_eq_div]
  exact sat32_eq_bounded s _

/-- DC removal's output is pre-emphasis' input (42_prefilters.md R191, R195). -/
theorem hopPre_peX_succ {i : Nat} (hi : i < s.act.H) :
    (hopPre s c (i + 1)).peX = bounded s.low16 32767 (((hopPre s c (i + 1)).dcY + 2 ^ 15) / 2 ^ 16) := by
  rw [hopPre_succ hi, preStep_peX, narrow, narrowRaw_eq_div]
  exact sat16_eq_bounded s _

/-- Output sample `i` of the pre-filters of channel `c` of a hop on `s`. -/
def hopEmph (s : State) (c i : Nat) : Int :=
  (prefilter s.params.symSat s.act.dcAlpha.toInt s.act.peAlpha.toInt (loadChan s.params s.act s.win c).pre
    (readInput s.act s.regs s.dmem c)).1.getD i 0

/-- Pre-emphasis (42_prefilters.md R195). -/
theorem hopEmph_eq {i : Nat} (hi : i < s.act.H) :
    hopEmph s c i = bounded s.low16 32767
      (((hopPre s c (i + 1)).peX * 2 ^ 15 - s.act.peAlpha.toInt * (hopPre s c i).peX) / 2 ^ 15) := by
  have hout : hopEmph s c i =
      peOut s.params.symSat s.act.peAlpha.toInt (hopPre s c (i + 1)).peX (hopPre s c i).peX := by
    rw [hopPre_succ hi, ← preStep_out, hopEmph, prefilter_getD _ _ _ _ (by rwa [readInput_length]),
      readInput_getD _ _ _ _ hi]
    rfl
  rw [hout, peOut, asr_eq_div]
  exact sat16_eq_bounded s _

/-- The forward transform of channel `c` of a hop on `s` (44_transform.md R231, R236). -/
def hopSpectrum (s : State) (c : Nat) : List Cx :=
  transform s.params.symSat false (readTables s.act s.dmem).cos (readTables s.act s.dmem).sin s.act.L
    (loadFrame (hopChan s c).xw)

/-- What takes the suppressor's place in channel `c` of a hop on `s` (45_noise_suppressor.md R271, R272). -/
def hopSuppress (s : State) (c : Nat) : NsOut :=
  suppress s.params.symSat s.act (loadChan s.params s.act s.win c).ns (hopSpectrum s c)

theorem hopChan_z : (hopChan s c).z =
    rescale s.params.symSat s.act.L
      (transform s.params.symSat true (readTables s.act s.dmem).cos (readTables s.act s.dmem).sin s.act.L
        (hermitianRebuild s.params.symSat s.act.F (hopSuppress s c).z)) := rfl

theorem hopChan_gain : (hopChan s c).gain = (hopSuppress s c).gain := rfl

theorem hopChan_ns : (hopChan s c).ch.ns = (hopSuppress s c).ns := rfl

theorem hopChan_ola :
    olaStep s.params.symSat s.act.H s.act.nsh (loadChan s.params s.act s.win c).ola
      (narrowFrame s.params.symSat (hopChan s c).z) = ((hopChan s c).out, (hopChan s c).ch.ola) := rfl

/-- With noise suppression off, the spectrum and the state pass unchanged and there are no gains (45_noise_suppressor.md
R272). -/
theorem hopSuppress_off (hns : s.act.nsEn = false) :
    hopSuppress s c = { ns := (loadChan s.params s.act s.win c).ns, gain := [], z := hopSpectrum s c } := by
  rw [hopSuppress, suppress, if_neg (Bool.eq_false_iff.mp hns)]

end Parts

/-! ### A channel of a hop from end to end -/

section Hop

variable {s : State} {c : Nat} (hI : s.Inv) (hR : HopReady s)
include hI hR

/-- The buffer moves by a hop and takes the outputs (43_framing_window.md R211). -/
theorem hopChan_buf_getD {n : Nat} :
    (hopChan s c).ch.buf.getD n 0 =
      if n + s.act.H < s.act.F then (sparseGet 0 s.win.buf (c * s.params.maxFrameLen + (n + s.act.H))).toInt
      else hopEmph s c (n + s.act.H - s.act.F) := by
  obtain ⟨-, hH, -, -⟩ := hop_frame hI hR
  rw [hopChan, chanStep_buf, ← bufferStep, bufferStep_getD (loadChan_buf_length ..) hH]
  split
  · next h => exact toInt_sparseRun_getD _ _ _ _ h
  · rfl

/-- The windowed frame (43_framing_window.md R215). -/
theorem hopChan_xw_getD {n : Nat} (hn : n < s.act.F) :
    (hopChan s c).xw.getD n 0 = bounded s.low16 32767
      ((hopChan s c).ch.buf.getD n 0 * rdI16 s.dmem (s.act.winBase.toNat + 2 * n) / 2 ^ 15) := by
  obtain ⟨⟨hbuf, -⟩, -⟩ := hopChan_sized hI hR c
  have hwin : n < (readTables s.act s.dmem).win.length := by rwa [readTables, rdI16s_length]
  have hget : (readTables s.act s.dmem).win.getD n 0 = rdI16 s.dmem (s.act.winBase.toNat + 2 * n) := rdI16s_getD _ _ hn
  rw [hopChan, chanStep_xw, ← hopChan, windowStep_getD _ (hbuf ▸ hn) hwin, hget]
  exact sat16_eq_bounded s _

/-- With noise suppression on, the suppressor's place holds the step of R271. -/
theorem hopSuppress_on (hns : s.act.nsEn = true) :
    SuppressorStep s.params.symSat s.act.nsCfg s.act.NB (s.win.nsAt s.act.NB c) (hopSpectrum s c) (hopSuppress s c) := by
  obtain ⟨hbins, -, hle⟩ := hop_bins hI hR
  obtain ⟨-, hxw, -⟩ := hopChan_sized hI hR c
  have hz : s.act.NB ≤ (hopSpectrum s c).length := by rwa [hopSpectrum, transform_length, loadFrame_length, hxw]
  rw [nsAt_eq_loadChan s.params, hopSuppress, suppress, if_pos hns]
  exact nsStep_suppressorStep _ s.act.nsCfg hz (loadChan_min_length ..) (loadChan_est_length ..) hbins
    (loadChan_cnt_le _ _ (windowTyped_of_hopReady hI hR) c) (Int.natCast_nonneg _)

variable (hc : c < s.act.C)
include hc

/-! ### The front end, in the state after the hop -/

/-- BUF of channel `c` after a hop: the buffer moved by a hop, then the pre-filters' outputs (43_framing_window.md R211). -/
theorem buf_hopEffect {n : Nat} (hn : n < s.act.F) :
    (sparseGet 0 (hopEffect s).win.buf (c * s.params.maxFrameLen + n)).toInt = (hopChan s c).ch.buf.getD n 0 := by
  rw [← loadChan_hopEffect hI hR hc]
  exact (toInt_sparseRun_getD _ _ _ _ hn).symm

theorem frontEnd_hopEffect : FrontEnd s (hopEffect s) c fun n => (hopChan s c).xw.getD n 0 := by
  have hlast : (loadChan s.params s.act (hopEffect s).win c).pre = hopPre s c s.act.H := by
    rw [loadChan_hopEffect hI hR hc, hopPre_last]
  refine ⟨fun i => (hopPre s c i).dcX, fun i => (hopPre s c i).dcY, fun i => (hopPre s c i).peX, hopEmph s c,
    rfl, rfl, rfl, fun i hi => ⟨hopPre_dcX_succ hi, hopPre_dcY_succ hi, hopPre_peX_succ hi, hopEmph_eq hi⟩,
    congrArg Pre.dcX hlast, congrArg Pre.dcY hlast, congrArg Pre.peX hlast, fun n hn => ?_⟩
  rw [buf_hopEffect hI hR hc hn]
  exact ⟨hopChan_buf_getD hI hR, hopChan_xw_getD hI hR hn⟩

/-! ### The back end, in the state after the hop -/

theorem nsAt_hopEffect : (hopEffect s).win.nsAt s.act.NB c = (hopSuppress s c).ns := by
  rw [nsAt_eq_loadChan s.params, loadChan_hopEffect hI hR hc, hopChan_ns]

/-- OLA of channel `c` after a hop (10_state.md R53). -/
theorem ola_hopEffect {n : Nat} (hn : n < s.act.F) :
    (sparseGet 0 (hopEffect s).win.ola (c * s.params.maxFrameLen + n)).toInt = (hopChan s c).ch.ola.getD n 0 := by
  rw [← loadChan_hopEffect hI hR hc]
  exact (toInt_sparseRun_getD _ _ _ _ hn).symm

theorem backEnd_hopEffect : BackEnd s (hopEffect s) c (hopChan s c) := by
  obtain ⟨-, hxw, hz, -⟩ := hopChan_sized hI hR c
  have hola := loadChan_ola_length s.params s.act s.win c
  have hy : (narrowFrame s.params.symSat (hopChan s c).z).length = s.act.F := by rw [narrowFrame_length, hz]
  refine ⟨_, _, _, hopSuppress s c, fun n => (narrowFrame s.params.symSat (hopChan s c).z).getD n 0,
    fun n => (loadChan s.params s.act s.win c).ola.getD n 0, rfl, rfl, rfl, fun hns => ?_, fun hns => ?_,
    fun n hn => ⟨?_, ?_, ?_, fun hlo hhi => ⟨fun hnH => ?_, fun hHn => ?_⟩, fun hlast => ?_⟩⟩
  · rw [← loadFrame_eq_range hxw]
    exact ⟨hopSuppress_on hI hR hns, nsAt_hopEffect hI hR hc, hopChan_gain⟩
  · rw [← loadFrame_eq_range hxw, nsAt_hopEffect hI hR hc, hopChan_gain, hopSuppress_off hns, nsAt_eq_loadChan s.params]
    exact ⟨rfl, rfl, rfl⟩
  · rw [hopChan_z] at hz ⊢
    rw [rescale_length] at hz
    exact cxAt_rescale _ _ (hn.trans_eq hz.symm)
  · exact narrowFrame_getD _ (hz ▸ hn)
  · exact toInt_sparseRun_getD _ _ _ _ hn
  · have hout := olaStep_out_getD s.params.symSat s.act.H s.act.nsh hola hy hn hnH
    rw [hopChan_ola, stored32_eq_self hlo hhi, sat16_eq_boundedQ15] at hout
    exact hout
  · have hstate := olaStep_state_getD s.params.symSat s.act.H s.act.nsh hola hy
      (show n - s.act.H + s.act.H < s.act.F by omega)
    rw [Nat.sub_add_cancel hHn, hopChan_ola, stored32_eq_self hlo hhi] at hstate
    exact (ola_hopEffect hI hR hc (by omega)).trans hstate
  · have hzero := olaStep_state_getD_zero s.params.symSat s.act.H s.act.nsh hola hy hlast
    rw [hopChan_ola] at hzero
    exact BitVec.eq_of_toInt_eq ((ola_hopEffect hI hR hc hn).trans hzero)

end Hop

/-- Settles O24: what the hop keeps of each channel is what the channel's pipeline gives from the state before the hop,
and the pipeline is the front end and the back end. -/
theorem hopRunsChannelsIndependently : Obligations.HopRunsChannelsIndependently := by
  intro s t hI hR hraced hexec
  cases (execProcessHop_effect hI hR hraced).symm.trans hexec
  exact ⟨fun i hi => rdI16_hopEffect_out hI hR hi, fun c hc =>
    ⟨loadChan_hopEffect hI hR hc, frontEnd_hopEffect hI hR hc, backEnd_hopEffect hI hR hc⟩⟩

end Sys2Proof.Machine
end

section
/-! PROOFS. Silence (45_noise_suppressor.md R274): every stage of a channel takes zeros to zeros, so a hop of zero samples
keeps a silent state window silent. -/

namespace Sys2Proof.Machine

/-! ### Lists of one value -/

/-- Every element of the list is `d`. -/
def AllAre {α : Type} (d : α) (l : List α) : Prop := ∀ v ∈ l, v = d

section Lists

variable {α β γ : Type} {d : α} {l l' : List α}

theorem AllAre.nil : AllAre d [] := fun _ hv => absurd hv List.not_mem_nil

theorem AllAre.append (h : AllAre d l) (h' : AllAre d l') : AllAre d (l ++ l') := fun v hv =>
  (List.mem_append.mp hv).elim (h v) (h' v)

theorem AllAre.drop (h : AllAre d l) (n : Nat) : AllAre d (l.drop n) := fun v hv => h v (List.mem_of_mem_drop hv)

theorem AllAre.take (h : AllAre d l) (n : Nat) : AllAre d (l.take n) := fun v hv => h v (List.mem_of_mem_take hv)

theorem AllAre.map (h : AllAre d l) {f : α → β} {b : β} (hf : f d = b) : AllAre b (l.map f) :=
  List.forall_mem_map.mpr fun v hv => by rw [h v hv, hf]

theorem AllAre.set (h : AllAre d l) (i : Nat) {v : α} (hv : v = d) : AllAre d (l.set i v) := fun u hu =>
  (List.mem_or_eq_of_mem_set hu).elim (h u) fun huv => huv.trans hv

theorem AllAre.getD (h : AllAre d l) (n : Nat) : l.getD n d = d := by
  obtain hn | hn := lt_or_ge n l.length
  · rw [List.getD_eq_getElem _ _ hn]
    exact h _ (List.getElem_mem hn)
  · exact List.getD_eq_default _ _ hn

/-- What a function of two elements gives everywhere when the first are all `d` and it does not depend on the second. -/
theorem AllAre.zipWith (h : AllAre d l) {m : List β} {f : α → β → γ} {c : γ} (hf : ∀ b ∈ m, f d b = c) :
    AllAre c (List.zipWith f l m) := fun v hv => by
  obtain ⟨i, hi, rfl⟩ := List.mem_iff_getElem.mp hv
  rw [List.getElem_zipWith, h _ (List.getElem_mem _)]
  exact hf _ (List.getElem_mem _)

end Lists

/-! ### The arithmetic at 0 -/

theorem sat16_zero (sym : Bool) : sat16 sym 0 = 0 := sat16_eq_self sym (by norm_num) (by norm_num)

theorem sat32_zero (sym : Bool) : sat32 sym 0 = 0 := by cases sym <;> rfl

theorem asr_zero (n : Nat) : asr 0 n = 0 := by rw [asr_eq_div, Int.zero_ediv]

theorem narrow_zero (sym : Bool) : narrow sym 0 = 0 := by
  rw [narrow, narrowRaw_eq_div]
  exact sat16_zero sym

/-! ### The pre-filters -/

/-- The filters of a silent channel. -/
def Pre.silent : Pre := { dcX := 0, dcY := 0, peX := 0 }

theorem preStep_silent (sym : Bool) (al pe : Int) : preStep sym al pe .silent 0 = (0, .silent) := by
  simp [preStep, dcStep, peStep, Pre.silent, dcNext, peOut, widen, asr_zero, sat16_zero, sat32_zero, narrow_zero]

theorem prefilter_silent (sym : Bool) (al pe : Int) {xs : List Int} (hxs : AllAre 0 xs) :
    AllAre 0 (prefilter sym al pe .silent xs).1 ∧ (prefilter sym al pe .silent xs).2 = .silent := by
  induction xs with
  | nil => exact ⟨.nil, rfl⟩
  | cons x xs ih =>
    obtain ⟨rfl, hrest⟩ := List.forall_mem_cons.mp hxs
    obtain ⟨ihout, ihst⟩ := ih hrest
    rw [prefilter_cons, preStep_silent]
    exact ⟨List.forall_mem_cons.mpr ⟨rfl, ihout⟩, ihst⟩

theorem windowStep_silent (sym : Bool) {buf : List Int} (hbuf : AllAre 0 buf) (win : List Int) :
    AllAre 0 (windowStep sym buf win) :=
  hbuf.zipWith fun w _ => by rw [mulq15, mulq15Raw, zero_mul, asr_zero, sat16_zero]

/-! ### The transform -/

theorem rotate_zero (sym inverse : Bool) (wr wi : Int) : rotate sym inverse wr wi (0, 0) = (0, 0) := by
  cases inverse <;> simp [rotate, mac2, mac2Raw, msu2, msu2Raw, asr_zero, sat32_zero]

theorem swapAt_silent {z : List Cx} (hz : AllAre (0, 0) z) (i j : Nat) : AllAre (0, 0) (swapAt z i j) :=
  (hz.set i (hz.getD j)).set j (hz.getD i)

theorem butterfly_silent (sym inverse : Bool) (wr wi : Int) (p q : Nat) {z : List Cx} (hz : AllAre (0, 0) z) :
    AllAre (0, 0) (butterfly sym inverse wr wi p q z) := by
  have hp : cxAt z p = (0, 0) := hz.getD p
  have hq : cxAt z q = (0, 0) := hz.getD q
  rw [butterfly, hp, hq, rotate_zero]
  exact (hz.set q (by simp [subs32, sat32_zero])).set p (by simp [adds32, sat32_zero])

theorem bitrevPermute_silent (L : Nat) {z : List Cx} (hz : AllAre (0, 0) z) : AllAre (0, 0) (bitrevPermute L z) := by
  refine List.foldlRecOn _ _ hz fun z hz i _ => ?_
  split
  · exact swapAt_silent hz i _
  · exact hz

theorem butterflyGroup_silent (sym inverse : Bool) (cos sin : List Int) (m stride g : Nat) {z : List Cx}
    (hz : AllAre (0, 0) z) : AllAre (0, 0) (butterflyGroup sym inverse cos sin m stride g z) :=
  List.foldlRecOn _ _ hz fun _ hz _ _ => butterfly_silent sym inverse _ _ _ _ hz

theorem stage_silent (sym inverse : Bool) (cos sin : List Int) (L s : Nat) {z : List Cx} (hz : AllAre (0, 0) z) :
    AllAre (0, 0) (stage sym inverse cos sin L s z) :=
  List.foldlRecOn _ _ (hz.map (by rw [asr_zero])) fun _ hz _ _ =>
    butterflyGroup_silent sym inverse cos sin _ _ _ hz

theorem transform_silent (sym inverse : Bool) (cos sin : List Int) (L : Nat) {z : List Cx} (hz : AllAre (0, 0) z) :
    AllAre (0, 0) (transform sym inverse cos sin L z) :=
  List.foldlRecOn _ _ (bitrevPermute_silent L hz) fun _ hz _ _ => stage_silent sym inverse cos sin L _ hz

theorem hermitianRebuild_silent (sym : Bool) (f : Nat) {z : List Cx} (hz : AllAre (0, 0) z) :
    AllAre (0, 0) (hermitianRebuild sym f z) :=
  List.foldlRecOn _ _ hz fun z hz i _ => by
    have hi : cxAt z (i + 1) = (0, 0) := hz.getD (i + 1)
    exact hz.set _ (by rw [hi, negs32, neg_zero, sat32_zero])

theorem rescale_silent (sym : Bool) (lf : Nat) {z : List Cx} (hz : AllAre (0, 0) z) :
    AllAre (0, 0) (rescale sym lf z) :=
  hz.map (by rw [shls32, shls32Raw, zero_mul, sat32_zero])

theorem narrowFrame_silent (sym : Bool) {z : List Cx} (hz : AllAre (0, 0) z) : AllAre 0 (narrowFrame sym z) :=
  hz.map (f := fun v => narrow sym v.1) (narrow_zero sym)

/-! ### The suppressor -/

/-- The suppressor of a silent channel: estimates and total 0, minima free (45_noise_suppressor.md R274). -/
def Ns.Silent (st : Ns) : Prop := AllAre 0 st.est ∧ st.tpa = 0

theorem estUpdate_zero (sh : Nat) : estUpdate sh 0 0 = 0 := by simp [estUpdate, asr_zero, maxPow]

section Step

variable (sym : Bool) (cfg : NsCfg) (nb : Nat) {st : Ns} {z : List Cx} (hz : AllAre (0, 0) z)
  (hmin : ∀ m ∈ st.min, 0 ≤ m)
include hz

theorem binPowers_silent : AllAre 0 (binPowers nb z) :=
  (hz.take nb).map (by rw [powq31_eq_div]; norm_num)

/-- No power of 0 exceeds the floor (45_noise_suppressor.md R268). -/
theorem stepGains_silent (hfloor : 0 ≤ cfg.floor) : AllAre 0 (stepGains sym cfg nb st z) :=
  (binPowers_silent nb hz).zipWith fun _ _ => if_neg (not_lt.mpr hfloor)

include hmin

/-- A power of 0 takes every minimum to 0. -/
theorem stepMinima_silent : AllAre 0 (stepMinima nb st z) :=
  (binPowers_silent nb hz).zipWith fun m hm => by
    have hm0 := hmin m hm
    split <;> omega

variable (hst : st.Silent)
include hst

theorem stepEstimates_silent : AllAre 0 (stepEstimates nb st z) := by
  obtain ⟨hest, -⟩ := hst
  exact (stepMinima_silent nb hz hmin).zipWith fun e he => by rw [hest e he, estUpdate_zero]

theorem nsStep_silent (hfloor : 0 ≤ cfg.floor) :
    (nsStep sym cfg nb st z).ns.Silent ∧ AllAre 0 (nsStep sym cfg nb st z).gain ∧
    AllAre (0, 0) (nsStep sym cfg nb st z).z := by
  have hest := stepEstimates_silent nb hz hmin hst
  rw [nsStep_eq]
  refine ⟨⟨hest, List.sum_eq_zero hest⟩, stepGains_silent sym cfg nb hz hfloor,
    AllAre.append ((hz.take nb).zipWith fun g _ => ?_) (hz.drop nb)⟩
  rw [applyGain, mulg, mulgRaw, zero_mul, asr_zero, sat32_zero]

theorem suppress_silent (a : Act) :
    (suppress sym a st z).ns.Silent ∧ AllAre 0 (suppress sym a st z).gain ∧ AllAre (0, 0) (suppress sym a st z).z := by
  rw [suppress]
  split
  · exact nsStep_silent sym a.nsCfg a.NB hz hmin hst (Int.natCast_nonneg _)
  · exact ⟨hst, .nil, hz⟩

end Step

/-! ### The overlap-add -/

theorem olaStep_silent (sym : Bool) (h nsh : Nat) {ola y : List Int} (hola : AllAre 0 ola) (hy : AllAre 0 y) :
    AllAre 0 (olaStep sym h nsh ola y).1 ∧ AllAre 0 (olaStep sym h nsh ola y).2 := by
  have hacc : AllAre 0 (olaAdd ola y) := hola.zipWith fun b hb => by
    rw [hy b hb]
    rfl
  exact ⟨(hacc.take h).map (by rw [asr_zero, sat16_zero]),
    (hacc.drop h).append fun v hv => List.eq_of_mem_replicate hv⟩

/-! ### A silent channel -/

/-- The state of a silent channel: filters, buffer, accumulator, estimates and total 0. -/
def Chan.Silent (ch : Chan) : Prop := ch.pre = .silent ∧ AllAre 0 ch.buf ∧ AllAre 0 ch.ola ∧ ch.ns.Silent

theorem chanStep_silent (sym : Bool) (a : Act) (t : Tables) {ch : Chan} {xs : List Int} (hch : ch.Silent)
    (hmin : ∀ m ∈ ch.ns.min, 0 ≤ m) (hxs : AllAre 0 xs) :
    (chanStep sym a t ch xs).ch.Silent ∧ AllAre 0 (chanStep sym a t ch xs).gain ∧
    AllAre 0 (chanStep sym a t ch xs).out := by
  obtain ⟨hpre, hbuf, hola, hns⟩ := hch
  obtain ⟨hemph, hpre'⟩ := prefilter_silent sym a.dcAlpha.toInt a.peAlpha.toInt hxs
  rw [← hpre] at hemph hpre'
  have hbuf' : AllAre 0 (chanStep sym a t ch xs).ch.buf := (hbuf.drop a.H).append hemph
  have hload : AllAre (0, 0) (loadFrame (chanStep sym a t ch xs).xw) := (windowStep_silent sym hbuf' t.win).map rfl
  obtain ⟨hns', hgain, hsup⟩ := suppress_silent sym (transform_silent sym false t.cos t.sin a.L hload) hmin hns a
  have hz : AllAre (0, 0) (chanStep sym a t ch xs).z :=
    rescale_silent sym a.L (transform_silent sym true t.cos t.sin a.L (hermitianRebuild_silent sym a.F hsup))
  obtain ⟨hout, hola'⟩ := olaStep_silent sym a.H a.nsh hola (narrowFrame_silent sym hz)
  exact ⟨⟨hpre'.trans hpre, hbuf', hola', hns'⟩, hgain, hout⟩

/-! ### A silent window -/

theorem sparseRun_nil {w : Nat} (d : BitVec w) (a n : Nat) : AllAre d (sparseRun d [] a n) :=
  List.forall_mem_map.mpr fun _ _ => rfl

theorem sparseSet_nil_default {w : Nat} (d : BitVec w) (a : Nat) : sparseSet d [] a d = [] := if_pos rfl

theorem sparsePut_nil_default {w : Nat} {d : BitVec w} (a : Nat) {vs : List (BitVec w)} (hvs : AllAre d vs) :
    sparsePut d [] a vs = [] := by
  induction vs generalizing a with
  | nil => rfl
  | cons v vs ih =>
    obtain ⟨rfl, hrest⟩ := List.forall_mem_cons.mp hvs
    rw [sparsePut, sparseSet_nil_default, ih _ hrest]

theorem sparsePut_nil_zeros {w : Nat} (a : Nat) {vs : List Int} (hvs : AllAre 0 vs) :
    sparsePut (0 : BitVec w) [] a (vs.map (BitVec.ofInt w)) = [] :=
  sparsePut_nil_default a (hvs.map (by simp))

theorem loadChan_silent (p : Params) (a : Act) {w : Window} (h : Silent w) (c : Nat) : (loadChan p a w c).Silent := by
  obtain ⟨hdcX, hdcY, hpeX, htpa, hbuf, hola, hest⟩ := h
  simp only [loadChan, hdcX, hdcY, hpeX, htpa, hbuf, hola, hest]
  exact ⟨rfl, (sparseRun_nil _ _ _).map rfl, (sparseRun_nil _ _ _).map rfl, (sparseRun_nil _ _ _).map rfl, rfl⟩

theorem storeFrame_silent (p : Params) {w : Window} (h : Silent w) (c : Nat) {ch : Chan} (hch : ch.Silent) :
    Silent (storeFrame p w c ch) := by
  obtain ⟨hdcX, hdcY, hpeX, htpa, hbuf, hola, hest⟩ := h
  obtain ⟨hpre, hbuf', hola', -⟩ := hch
  simp only [storeFrame, hdcX, hdcY, hpeX, hbuf, hola, hpre, sparsePut_nil_zeros _ hbuf',
    sparsePut_nil_zeros _ hola']
  exact ⟨rfl, rfl, rfl, htpa, rfl, rfl, hest⟩

theorem storeNs_silent (a : Act) {w : Window} (h : Silent w) (c : Nat) {ns : Ns} (hns : ns.Silent) :
    Silent (storeNs a w c ns) := by
  obtain ⟨hdcX, hdcY, hpeX, htpa, hbuf, hola, hest⟩ := h
  obtain ⟨hest', htpa'⟩ := hns
  simp only [storeNs, htpa, hest, htpa', sparsePut_nil_zeros _ hest']
  exact ⟨hdcX, hdcY, hpeX, rfl, hbuf, hola, rfl⟩

theorem storeChan_silent (p : Params) (a : Act) {w : Window} (h : Silent w) (c : Nat) {ch : Chan} (hch : ch.Silent) :
    Silent (storeChan p a w c ch) := by
  have hframe := storeFrame_silent p h c hch
  obtain ⟨-, -, -, hns⟩ := hch
  unfold storeChan
  split
  · exact storeNs_silent a hframe c hns
  · exact hframe

/-! ### A silent hop -/

section Hop

variable {s : State} (hI : s.Inv) (hR : HopReady s) (hsilent : Silent s.win)
  (hin : ∀ j, j < s.act.C * s.act.H → rdI16 s.dmem ((s.readReg 0x044).toNat + 2 * j) = 0)
include hI hR hsilent hin

theorem hopChan_silent {c : Nat} (hc : c < s.act.C) :
    (hopChan s c).ch.Silent ∧ AllAre 0 (hopChan s c).gain ∧ AllAre 0 (hopChan s c).out := by
  obtain ⟨-, -, -, hmin, -⟩ := loadChan_typed s.params s.act (windowTyped_of_hopReady hI hR) c
  refine chanStep_silent _ _ _ (loadChan_silent _ _ hsilent c) (fun m hm => (hmin m hm).1)
    (List.forall_mem_map.mpr fun i hi => hin (i * s.act.C + c) ?_)
  have hrow : (i + 1) * s.act.C ≤ s.act.H * s.act.C := Nat.mul_le_mul_right _ (List.mem_range.mp hi)
  rw [Nat.succ_mul] at hrow
  rw [Nat.mul_comm s.act.C]
  omega

theorem silent_foldl (n : Nat) (hn : n ≤ s.act.C) :
    Silent ((List.range n).foldl (hopChannel s.params s.act s.regs)
      { win := s.win, dmem := s.dmem, outs := [] }).win := by
  induction n with
  | zero => exact hsilent
  | succ n ih =>
    obtain ⟨-, hmem, hlater, -, -⟩ := hopProgress_foldl hI hR n (by omega)
    obtain ⟨hch, -, -⟩ := hopChan_silent hI hR hsilent hin hn
    rw [List.range_succ, List.foldl_append, List.foldl_cons, hopChannel_eq hI hR hn hmem (hlater n le_rfl)]
    exact storeChan_silent _ _ (ih (by omega)) n hch

end Hop

/-- Settles O29: each channel takes silence to silence, so the window stays silent, the mean of the outputs is 0 and so
are the gains in the scratch. -/
theorem silenceStaysSilent : Obligations.SilenceStaysSilent := by
  intro s t hI hR hraced hsilent hin hexec
  obtain ⟨hout, -⟩ := hopRunsChannelsIndependently s t hI hR hraced hexec
  obtain ⟨-, -, -, hgains⟩ := scratchAfterHop s t hI hR hraced hexec
  refine ⟨?_, fun i hi => ?_, fun hns j hj => ?_⟩
  · cases (execProcessHop_effect hI hR hraced).symm.trans hexec
    exact silent_foldl hI hR hsilent hin s.act.C le_rfl
  · rw [hout i hi, List.sum_eq_zero, Int.zero_tdiv]
    refine List.forall_mem_map.mpr fun c hc => ?_
    obtain ⟨-, -, hzero⟩ := hopChan_silent hI hR hsilent hin (List.mem_range.mp hc)
    exact hzero.getD i
  · obtain ⟨hbins, -, -⟩ := hop_bins hI hR
    have hc : j / s.act.NB < s.act.C := Nat.div_lt_of_lt_mul (by rwa [Nat.mul_comm])
    have hk : j % s.act.NB < s.act.NB := Nat.mod_lt _ hbins
    obtain ⟨-, hzero, -⟩ := hopChan_silent hI hR hsilent hin hc
    have hread := rdI32s_getD t.dmem (s.act.scratchBase.toNat + 10 * s.act.F + 4 * (j / s.act.NB * s.act.NB)) hk
    rw [hgains hns _ hc, hzero.getD, Nat.add_assoc, ← Nat.mul_add, Nat.div_add_mod'] at hread
    exact hread.symm

end Sys2Proof.Machine
end

section
/-! PROOFS. The Hermitian rebuild turn by turn (44_transform.md R241). -/

namespace Sys2Proof.Machine

/-- The conjugate of an element (44_transform.md R241). -/
def conjugate (sym : Bool) (v : Cx) : Cx := (v.1, negs32 sym v.2)

theorem conjugate_eq (sym : Bool) (v : Cx) : conjugate sym v = (v.1, boundedQ31 sym (-v.2)) := by
  rw [conjugate, negs32, sat32_eq_boundedQ31]

/-- The first `n` turns of the rebuild. -/
def rebuildTurns (sym : Bool) (f : Nat) (z : List Cx) (n : Nat) : List Cx :=
  (List.range n).foldl (fun z i => z.set (f - (i + 1)) (conjugate sym (cxAt z (i + 1)))) z

theorem hermitianRebuild_eq_turns (sym : Bool) (f : Nat) (z : List Cx) :
    hermitianRebuild sym f z = rebuildTurns sym f z (f / 2 - 1) := rfl

theorem rebuildTurns_succ (sym : Bool) (f : Nat) (z : List Cx) (n : Nat) :
    rebuildTurns sym f z (n + 1) =
      (rebuildTurns sym f z n).set (f - (n + 1)) (conjugate sym (cxAt (rebuildTurns sym f z n) (n + 1))) := by
  simp [rebuildTurns, List.range_succ]

@[simp] theorem rebuildTurns_length (sym : Bool) (f : Nat) (z : List Cx) (n : Nat) :
    (rebuildTurns sym f z n).length = z.length :=
  foldl_length _ (fun _ _ => List.length_set) _ _

/-- After `n` turns the last `n` bins are conjugates; turn `n` reads bin `n + 1`, which no turn writes, since it is below
the middle bin. -/
theorem cxAt_rebuildTurns (sym : Bool) {f : Nat} {z : List Cx} (hz : z.length = f) {n : Nat} (hn : n ≤ f / 2 - 1)
    {k : Nat} (hk : k < f) :
    cxAt (rebuildTurns sym f z n) k = if k < f - n then cxAt z k else conjugate sym (cxAt z (f - k)) := by
  induction n generalizing k with
  | zero => exact (if_pos hk).symm
  | succ n ih =>
    rw [rebuildTurns_succ, cxAt_set _ _ _ _ (by rw [rebuildTurns_length, hz]; omega)]
    by_cases hnew : k = f - (n + 1)
    · have hsource : f - k = n + 1 := by omega
      rw [if_pos hnew, if_neg (by omega), ih (by omega) (by omega), if_pos (by omega), hsource]
    · rw [if_neg hnew, ih (by omega) hk]
      exact if_congr (by omega) rfl rfl

/-- Settles O34: the `F/2 - 1` turns conjugate exactly the bins above `F/2`; the second part is how the spectral stages
are composed. -/
theorem hermitianRebuildMirrors : Obligations.HermitianRebuildMirrors := by
  refine ⟨fun sym f z h2 heven hz n hn => ?_, fun sym a t ns xw => rfl⟩
  rw [hermitianRebuild_eq_turns, cxAt_rebuildTurns sym hz le_rfl hn, conjugate_eq]
  exact if_congr (by omega) rfl rfl

end Sys2Proof.Machine
end

section
/-! PROOFS. A transform stage in place against its butterflies all at once (44_transform.md R234 to R236): the invariant
of the butterflies done so far. -/

namespace Sys2Proof.Machine

/-- What holds at the start of a fold over `0 .. n-1`, and after turn `i` when it held before it, holds at the end. -/
theorem foldl_range_invariant {α : Type} {P : Nat → α → Prop} {f : α → Nat → α} {n : Nat} {a : α} (h0 : P 0 a)
    (hstep : ∀ i, i < n → ∀ b, P i b → P (i + 1) (f b i)) : P n ((List.range n).foldl f a) := by
  induction n with
  | zero => exact h0
  | succ n ih =>
    rw [List.range_succ, List.foldl_append]
    exact hstep n (by omega) _ (ih fun i hi => hstep i (by omega))

/-! ### One butterfly -/

/-- The first result of a butterfly on the elements `u` and `v` (44_transform.md R235). -/
def butterflySum (sym inverse : Bool) (wr wi : Int) (u v : Cx) : Cx :=
  (adds32 sym u.1 (rotate sym inverse wr wi v).1, adds32 sym u.2 (rotate sym inverse wr wi v).2)

/-- The second result of a butterfly on the elements `u` and `v` (44_transform.md R235). -/
def butterflyDiff (sym inverse : Bool) (wr wi : Int) (u v : Cx) : Cx :=
  (subs32 sym u.1 (rotate sym inverse wr wi v).1, subs32 sym u.2 (rotate sym inverse wr wi v).2)

theorem rotate_eq_rotatedBy (sym inverse : Bool) (wr wi : Int) (v : Cx) :
    rotate sym inverse wr wi v = rotatedBy sym inverse wr wi v := by
  simp only [rotate, rotatedBy, mac2, mac2Raw, msu2, msu2Raw, sat32_eq_boundedQ31, asr_eq_div]

theorem butterflySum_eq (sym inverse : Bool) (wr wi : Int) (u v : Cx) :
    butterflySum sym inverse wr wi u v =
      (boundedQ31 sym (u.1 + (rotatedBy sym inverse wr wi v).1),
        boundedQ31 sym (u.2 + (rotatedBy sym inverse wr wi v).2)) := by
  simp only [butterflySum, adds32, sat32_eq_boundedQ31, rotate_eq_rotatedBy]

theorem butterflyDiff_eq (sym inverse : Bool) (wr wi : Int) (u v : Cx) :
    butterflyDiff sym inverse wr wi u v =
      (boundedQ31 sym (u.1 - (rotatedBy sym inverse wr wi v).1),
        boundedQ31 sym (u.2 - (rotatedBy sym inverse wr wi v).2)) := by
  simp only [butterflyDiff, subs32, sat32_eq_boundedQ31, rotate_eq_rotatedBy]

theorem cxAt_butterfly (sym inverse : Bool) (wr wi : Int) {p q : Nat} {z : List Cx} (hp : p < z.length)
    (hq : q < z.length) (n : Nat) :
    cxAt (butterfly sym inverse wr wi p q z) n =
      if n = p then butterflySum sym inverse wr wi (cxAt z p) (cxAt z q)
      else if n = q then butterflyDiff sym inverse wr wi (cxAt z p) (cxAt z q) else cxAt z n := by
  rw [butterfly, cxAt_set _ _ _ _ (by simpa using hp), cxAt_set _ _ _ _ hq]
  rfl

/-- The block scaling halves every element, with floor (44_transform.md R234). -/
theorem cxAt_blockScale (z : List Cx) (n : Nat) : cxAt (blockScale z) n = ((cxAt z n).1 / 2, (cxAt z n).2 / 2) := by
  simp only [cxAt, blockScale, List.getD_eq_getElem?_getD, List.getElem?_map, asr_eq_div]
  cases z[n]? <;> rfl

/-! ### The elements of a stage -/

section Stage

variable (sym inverse : Bool) (cos sin : List Int) (L s : Nat) (z : List Cx)

/-- The first element of butterfly `t` of group `i` is the butterfly's first result from the halved values. -/
theorem stageElement_sum (i : Nat) {t : Nat} (ht : t < 2 ^ (s - 1)) :
    stageElement sym inverse cos sin L s z (i * (2 * 2 ^ (s - 1)) + t) =
      butterflySum sym inverse (cos.getD (t * (2 ^ L / 2 ^ s)) 0) (sin.getD (t * (2 ^ L / 2 ^ s)) 0)
        (cxAt (blockScale z) (i * (2 * 2 ^ (s - 1)) + t))
        (cxAt (blockScale z) (i * (2 * 2 ^ (s - 1)) + t + 2 ^ (s - 1))) := by
  have hoffset : (i * (2 * 2 ^ (s - 1)) + t) % (2 * 2 ^ (s - 1)) = t := Nat.mul_add_mod_of_lt (by omega)
  simp only [stageElement, hoffset, if_pos ht, butterflySum_eq, cxAt_blockScale]

/-- The second element of butterfly `t` of group `i` is the butterfly's second result from the halved values. -/
theorem stageElement_diff (i : Nat) {t : Nat} (ht : t < 2 ^ (s - 1)) :
    stageElement sym inverse cos sin L s z (i * (2 * 2 ^ (s - 1)) + t + 2 ^ (s - 1)) =
      butterflyDiff sym inverse (cos.getD (t * (2 ^ L / 2 ^ s)) 0) (sin.getD (t * (2 ^ L / 2 ^ s)) 0)
        (cxAt (blockScale z) (i * (2 * 2 ^ (s - 1)) + t))
        (cxAt (blockScale z) (i * (2 * 2 ^ (s - 1)) + t + 2 ^ (s - 1))) := by
  have hoffset : (i * (2 * 2 ^ (s - 1)) + t + 2 ^ (s - 1)) % (2 * 2 ^ (s - 1)) = t + 2 ^ (s - 1) := by
    rw [Nat.add_assoc]
    exact Nat.mul_add_mod_of_lt (by omega)
  have hlate : ¬ t + 2 ^ (s - 1) < 2 ^ (s - 1) := by omega
  simp only [stageElement, hoffset, if_neg hlate, Nat.add_sub_cancel, butterflyDiff_eq, cxAt_blockScale]

/-! ### The butterflies done so far -/

/-- `z'` is the stage over `z` after all groups that end at or before element `g` and the first `t` butterflies of the
group that starts at `g`: their elements are those of the whole stage, every other is only halved. -/
def StageProgress (g t : Nat) (z' : List Cx) : Prop :=
  z'.length = 2 ^ L ∧ ∀ n, n < 2 ^ L →
    cxAt z' n =
      if n < g + t ∨ g + 2 ^ (s - 1) ≤ n ∧ n < g + 2 ^ (s - 1) + t then stageElement sym inverse cos sin L s z n
      else cxAt (blockScale z) n

variable {sym inverse cos sin L s z}

theorem stageProgress_start (hz : z.length = 2 ^ L) :
    StageProgress sym inverse cos sin L s z 0 0 (blockScale z) :=
  ⟨(blockScale_length z).trans hz, fun _ _ => (if_neg (by omega)).symm⟩

/-- Butterfly `t` of a group finds both its elements only halved, since no butterfly before it has written them. -/
theorem stageProgress_butterfly {i t : Nat} {z' : List Cx} (ht : t < 2 ^ (s - 1))
    (hi : i * (2 * 2 ^ (s - 1)) + 2 * 2 ^ (s - 1) ≤ 2 ^ L)
    (h : StageProgress sym inverse cos sin L s z (i * (2 * 2 ^ (s - 1))) t z') :
    StageProgress sym inverse cos sin L s z (i * (2 * 2 ^ (s - 1))) (t + 1)
      (butterfly sym inverse (cos.getD (t * (2 ^ L / 2 ^ s)) 0) (sin.getD (t * (2 ^ L / 2 ^ s)) 0)
        (i * (2 * 2 ^ (s - 1)) + t) (i * (2 * 2 ^ (s - 1)) + t + 2 ^ (s - 1)) z') := by
  obtain ⟨hlen, hz'⟩ := h
  have hsum := stageElement_sum sym inverse cos sin L s z i ht
  have hdiff := stageElement_diff sym inverse cos sin L s z i ht
  generalize i * (2 * 2 ^ (s - 1)) = g at *
  refine ⟨(butterfly_length ..).trans hlen, fun n hn => ?_⟩
  have hp : cxAt z' (g + t) = cxAt (blockScale z) (g + t) := (hz' _ (by omega)).trans (if_neg (by omega))
  have hq : cxAt z' (g + t + 2 ^ (s - 1)) = cxAt (blockScale z) (g + t + 2 ^ (s - 1)) :=
    (hz' _ (by omega)).trans (if_neg (by omega))
  rw [cxAt_butterfly _ _ _ _ (by omega) (by omega), hp, hq, ← hsum, ← hdiff]
  by_cases hnp : n = g + t
  · rw [if_pos hnp, if_pos (by omega), hnp]
  · by_cases hnq : n = g + t + 2 ^ (s - 1)
    · rw [if_neg hnp, if_pos hnq, if_pos (by omega), hnq]
    · rw [if_neg hnp, if_neg hnq, hz' n hn]
      exact if_congr (by omega) rfl rfl

/-- A group is its `2^(s-1)` butterflies, after which the next group starts. -/
theorem stageProgress_group {i : Nat} {z' : List Cx} (hi : i * (2 * 2 ^ (s - 1)) + 2 * 2 ^ (s - 1) ≤ 2 ^ L)
    (h : StageProgress sym inverse cos sin L s z (i * (2 * 2 ^ (s - 1))) 0 z') :
    StageProgress sym inverse cos sin L s z ((i + 1) * (2 * 2 ^ (s - 1))) 0
      (butterflyGroup sym inverse cos sin (2 ^ (s - 1)) (2 ^ L / 2 ^ s) (i * (2 * 2 ^ (s - 1))) z') := by
  have hall := foldl_range_invariant
    (P := fun t z' => StageProgress sym inverse cos sin L s z (i * (2 * 2 ^ (s - 1))) t z') h
    fun _ ht _ hz' => stageProgress_butterfly ht hi hz'
  obtain ⟨hlen, hz'⟩ := hall
  refine ⟨hlen, fun n hn => (hz' n hn).trans (if_congr ?_ rfl rfl)⟩
  rw [Nat.succ_mul i]
  omega

/-- The groups of stage `s` cover the `2^L` elements (44_transform.md R235). -/
theorem stageGroups_cover (hs : 1 ≤ s) (hsL : s ≤ L) : 2 ^ L / (2 * 2 ^ (s - 1)) * (2 * 2 ^ (s - 1)) = 2 ^ L := by
  have hgroup : 2 * 2 ^ (s - 1) = 2 ^ s := by rw [← Nat.pow_succ', Nat.succ_eq_add_one, Nat.sub_add_cancel hs]
  rw [hgroup]
  exact Nat.div_mul_cancel (Nat.pow_dvd_pow 2 hsL)

/-- After all groups of a stage no element is only halved. -/
theorem cxAt_stage (hz : z.length = 2 ^ L) (hs : 1 ≤ s) (hsL : s ≤ L) {n : Nat} (hn : n < 2 ^ L) :
    cxAt (stage sym inverse cos sin L s z) n = stageElement sym inverse cos sin L s z n := by
  have hcover := stageGroups_cover hs hsL
  have hall : StageProgress sym inverse cos sin L s z (2 ^ L / (2 * 2 ^ (s - 1)) * (2 * 2 ^ (s - 1))) 0
      (stage sym inverse cos sin L s z) := by
    refine foldl_range_invariant (P := fun i z' => StageProgress sym inverse cos sin L s z (i * (2 * 2 ^ (s - 1))) 0 z')
      (by simpa using stageProgress_start hz) fun i hi _ hz' => stageProgress_group ?_ hz'
    rw [← Nat.succ_mul]
    exact (Nat.mul_le_mul_right _ hi).trans hcover.le
  obtain ⟨-, hz'⟩ := hall
  exact (hz' n hn).trans (if_pos (.inl (by omega)))

end Stage

/-! ### The stages of a transform -/

/-- A transform's elements after its permutation and its first `n` stages (44_transform.md R236). -/
def transformStages (sym inverse : Bool) (cos sin : List Int) (L : Nat) (z : List Cx) (n : Nat) : List Cx :=
  (List.range n).foldl (fun z s => stage sym inverse cos sin L (s + 1) z) (bitrevPermute L z)

theorem transformStages_succ (sym inverse : Bool) (cos sin : List Int) (L : Nat) (z : List Cx) (n : Nat) :
    transformStages sym inverse cos sin L z (n + 1) =
      stage sym inverse cos sin L (n + 1) (transformStages sym inverse cos sin L z n) := by
  simp [transformStages, List.range_succ]

/-- Settles O33: no butterfly of a stage reads an element that another one writes, and a transform is a fold of its
stages. -/
theorem stageIsSimultaneous : Obligations.StageIsSimultaneous :=
  ⟨fun _ _ _ _ _ _ _ hz hs hsL _ hn => cxAt_stage hz hs hsL hn,
    fun sym inverse cos sin L z =>
      ⟨transformStages sym inverse cos sin L z, rfl, fun s _ => transformStages_succ sym inverse cos sin L z s, rfl⟩⟩

end Sys2Proof.Machine
end

section
/-! PROOFS. What a hop leaves unchanged: the elements of the state window that are not an active channel's (10_state.md
R53), and the bytes of DMEM outside OUT and the scratch (46_synthesis_hop.md R300, R303). -/

namespace Sys2Proof.Machine

/-! ### The state window outside the active elements -/

theorem SameOutsideActive.refl (p : Params) (a : Act) (w : Window) : SameOutsideActive p a w w :=
  ⟨fun _ _ => ⟨rfl, rfl, rfl, rfl, rfl⟩, fun _ _ _ _ => ⟨rfl, rfl⟩, fun _ _ => ⟨rfl, rfl⟩⟩

theorem SameOutsideActive.trans {p : Params} {a : Act} {w w' w'' : Window} (h : SameOutsideActive p a w w')
    (h' : SameOutsideActive p a w' w'') : SameOutsideActive p a w w'' := by
  obtain ⟨hchan, hframe, hbin⟩ := h
  obtain ⟨hchan', hframe', hbin'⟩ := h'
  refine ⟨fun c hc => ?_, fun c n hn hout => ?_, fun j hj => ?_⟩
  · obtain ⟨hdcX, hdcY, hpeX, hcnt, htpa⟩ := hchan c hc
    obtain ⟨hdcX', hdcY', hpeX', hcnt', htpa'⟩ := hchan' c hc
    exact ⟨hdcX'.trans hdcX, hdcY'.trans hdcY, hpeX'.trans hpeX, hcnt'.trans hcnt, htpa'.trans htpa⟩
  · obtain ⟨hbuf, hola⟩ := hframe c n hn hout
    obtain ⟨hbuf', hola'⟩ := hframe' c n hn hout
    exact ⟨hbuf'.trans hbuf, hola'.trans hola⟩
  · obtain ⟨hmin, hest⟩ := hbin j hj
    obtain ⟨hmin', hest'⟩ := hbin' j hj
    exact ⟨hmin'.trans hmin, hest'.trans hest⟩

/-- An element of BUF or OLA that is not active lies outside the active elements of channel `c`: it is another channel's,
or beyond the frame (43_framing_window.md R211). -/
theorem frameElement_outside {p : Params} {a : Act} {c c' n : Nat} (hF : a.F ≤ p.maxFrameLen) (hc : c < a.C)
    (hn : n < p.maxFrameLen) (hout : a.C ≤ c' ∨ a.F ≤ n) :
    c' * p.maxFrameLen + n < c * p.maxFrameLen ∨ c * p.maxFrameLen + a.F ≤ c' * p.maxFrameLen + n := by
  by_cases hcc : c' = c
  · subst hcc
    omega
  · have hstrides := strides_apart p.maxFrameLen hcc
    omega

theorem storeFrame_sameOutsideActive {p : Params} {a : Act} (w : Window) {c : Nat} {ch : Chan}
    (hF : a.F ≤ p.maxFrameLen) (hc : c < a.C) (hbuf : ch.buf.length = a.F) (hola : ch.ola.length = a.F) :
    SameOutsideActive p a w (storeFrame p w c ch) := by
  refine ⟨fun c' hc' => ?_, fun c' n hn hout => ?_, fun _ _ => ⟨rfl, rfl⟩⟩
  · have hne : c' ≠ c := by omega
    exact ⟨sparseGet_sparseSet_ne _ _ _ _ hne, sparseGet_sparseSet_ne _ _ _ _ hne, sparseGet_sparseSet_ne _ _ _ _ hne,
      rfl, rfl⟩
  · have hout' := frameElement_outside hF hc hn hout
    exact ⟨sparseGet_sparsePut_outside _ _ _ _ (by rwa [List.length_map, hbuf]),
      sparseGet_sparsePut_outside _ _ _ _ (by rwa [List.length_map, hola])⟩

theorem storeNs_sameOutsideActive (p : Params) {a : Act} (w : Window) {c : Nat} {ns : Ns} (hc : c < a.C)
    (hmin : ns.min.length = a.NB) (hest : ns.est.length = a.NB) : SameOutsideActive p a w (storeNs a w c ns) := by
  refine ⟨fun c' hc' => ?_, fun _ _ _ _ => ⟨rfl, rfl⟩, fun j hj => ?_⟩
  · have hne : c' ≠ c := by omega
    exact ⟨rfl, rfl, rfl, sparseGet_sparseSet_ne _ _ _ _ hne, sparseGet_sparseSet_ne _ _ _ _ hne⟩
  · have hrow : (c + 1) * a.NB ≤ a.C * a.NB := Nat.mul_le_mul_right a.NB hc
    rw [Nat.succ_mul] at hrow
    exact ⟨sparseGet_sparsePut_outside _ _ _ _ (by rw [List.length_map, hmin]; omega),
      sparseGet_sparsePut_outside _ _ _ _ (by rw [List.length_map, hest]; omega)⟩

/-- The write-back of an active channel reaches active elements alone (10_state.md R53). -/
theorem storeChan_sameOutsideActive {p : Params} {a : Act} (w : Window) {c : Nat} {o : ChanOut}
    (hF : a.F ≤ p.maxFrameLen) (hc : c < a.C) (ho : o.Sized a) :
    SameOutsideActive p a w (storeChan p a w c o.ch) := by
  obtain ⟨⟨hbuf, hola, hmin, hest⟩, -⟩ := ho
  have hframe := storeFrame_sameOutsideActive w hF hc hbuf hola
  rw [storeChan]
  split
  · exact hframe.trans (storeNs_sameOutsideActive p _ hc hmin hest)
  · exact hframe

/-! ### The frame of a hop -/

section Hop

variable {s : State} (hI : s.Inv) (hR : HopReady s)
include hI hR

theorem hopChannels_sameOutsideActive (n : Nat) (hn : n ≤ s.act.C) :
    SameOutsideActive s.params s.act s.win
      ((List.range n).foldl (hopChannel s.params s.act s.regs) { win := s.win, dmem := s.dmem, outs := [] }).win := by
  obtain ⟨-, -, hmax, -⟩ := hop_frame hI hR
  induction n with
  | zero => exact .refl _ _ _
  | succ n ih =>
    obtain ⟨-, hmem, hlater, -⟩ := hopProgress_foldl hI hR n (by omega)
    rw [List.range_succ, List.foldl_append, List.foldl_cons, hopChannel_eq hI hR hn hmem (hlater n le_rfl)]
    exact (ih (by omega)).trans (storeChan_sameOutsideActive _ hmax hn (hopChan_sized hI hR n))

/-- The channels write the scratch alone, and the output hop OUT alone. -/
theorem hopEffect_onlyHopRegions : OnlyHopRegions s (hopEffect s) := by
  obtain ⟨-, hmem, -⟩ := hopProgress_channels hI hR
  intro b hb
  rw [hopWrites_iff, Bool.not_eq_true, Bool.or_eq_false_iff] at hb
  obtain ⟨hout, hscr⟩ := hb
  exact (hopEffect_agree s b hout).trans (hmem b hscr)

/-- FFT_SHIFT has room for log2 F, since no frame is longer than 32768 (00_scope.md R6, 44_transform.md R238). -/
theorem hopEffect_fftShift : (hopEffect s).fftShift.toNat = s.act.L := by
  obtain ⟨hF, -, hmax, -⟩ := hop_frame hI hR
  obtain ⟨⟨-, hlegal, -⟩, -⟩ := hI
  have hL : s.act.L < 32 := (Nat.log2_lt (by omega)).mpr (by omega)
  calc (hopEffect s).fftShift.toNat = (BitVec.ofNat 5 s.act.L).toNat := rfl
    _ = s.act.L := by rw [BitVec.toNat_ofNat, Nat.mod_eq_of_lt hL]

end Hop

/-- Settles O23: the effect of the hop, with its frame over DMEM and over the state window. -/
theorem hopCompletesWithinItsRegions : Obligations.HopCompletesWithinItsRegions :=
  ⟨by decide, fun s hI hR hraced =>
    ⟨hopEffect s, execProcessHop_effect hI hR hraced, rfl, hopEffect_fftShift hI hR, hopEffect_onlyHopRegions hI hR,
      hopChannels_sameOutsideActive hI hR s.act.C le_rfl⟩⟩

end Sys2Proof.Machine
end

section
/-! PROOFS. The suppressor switched off (45_noise_suppressor.md R272), the estimate without its bound (R265), and the
frame counter over many hops (R270). -/

namespace Sys2Proof.Machine

/-! ### The suppressor switched off -/

/-- `w'` has MIN, EST, NS_TPA and NS_CNT of `w`. -/
def SuppressorKept (w w' : Window) : Prop :=
  w'.min = w.min ∧ w'.est = w.est ∧ w'.nsTpa = w.nsTpa ∧ w'.nsCnt = w.nsCnt

theorem SuppressorKept.refl (w : Window) : SuppressorKept w w := ⟨rfl, rfl, rfl, rfl⟩

theorem SuppressorKept.trans {w w' w'' : Window} (h : SuppressorKept w w') (h' : SuppressorKept w' w'') :
    SuppressorKept w w'' := by
  obtain ⟨hmin, hest, htpa, hcnt⟩ := h
  obtain ⟨hmin', hest', htpa', hcnt'⟩ := h'
  exact ⟨hmin'.trans hmin, hest'.trans hest, htpa'.trans htpa, hcnt'.trans hcnt⟩

section Off

variable {a : Act} (hoff : a.nsEn = false)
include hoff

theorem storeChan_suppressorKept (p : Params) (w : Window) (c : Nat) (ch : Chan) :
    SuppressorKept w (storeChan p a w c ch) := by
  rw [storeChan, if_neg (Bool.eq_false_iff.mp hoff)]
  exact ⟨rfl, rfl, rfl, rfl⟩

theorem drawChan_suppressorKept (p : Params) (d : Nat) (w : Window) (c : Nat) :
    SuppressorKept w (drawChan p a d w c) := by
  rw [drawChan, if_neg (Bool.eq_false_iff.mp hoff)]
  exact ⟨rfl, rfl, rfl, rfl⟩

/-- Channel by channel, each written back by `storeChan`. -/
theorem hopChannels_suppressorKept (p : Params) (r : Regs) (w : Window) (m : Memory) :
    SuppressorKept w (hopChannels p a r w m).win :=
  foldl_range_invariant (P := fun _ (acc : HopAcc) => SuppressorKept w acc.win) (.refl w) fun c _ acc hacc =>
    hacc.trans (storeChan_suppressorKept hoff p acc.win c _)

/-- Channel by channel, each drawn by `drawChan`. -/
theorem drawChans_suppressorKept (p : Params) (d : Nat) (w : Window) (n : Nat) :
    SuppressorKept w ((List.range n).foldl (drawChan p a d) w) :=
  foldl_range_invariant (P := fun _ => SuppressorKept w) (.refl w) fun c _ w' hw' =>
    hw'.trans (drawChan_suppressorKept hoff p d w' c)

theorem SB_off : a.SB = 10 * a.F := by simp [← scratchLen_eq, Act.scratchLen, hoff]

theorem suppress_off (sym : Bool) (ns : Ns) (z : List Cx) : suppress sym a ns z = { ns := ns, gain := [], z := z } :=
  if_neg (Bool.eq_false_iff.mp hoff)

end Off

/-- A hop that fails a check keeps the whole window; a raced one draws, and an unraced one stores, channel by
channel. -/
theorem execProcessHop_suppressorKept {s t : State} (hoff : s.act.nsEn = false) (h : execProcessHop s = .next t) :
    SuppressorKept s.win t.win := by
  obtain ⟨c, -, rfl⟩ | ⟨-, -, ⟨-, rfl⟩ | ⟨-, rfl⟩⟩ := execProcessHop_cases s t h
  · exact .refl s.win
  · exact drawChans_suppressorKept hoff s.params s.draws s.win s.act.C
  · exact hopChannels_suppressorKept hoff s.params s.regs s.win s.dmem

/-- Settles O27: what a hop, the scratch and the pipeline are with the suppressor off. -/
theorem suppressorOffTouchesNothing : Obligations.SuppressorOffTouchesNothing :=
  ⟨fun _ _ hoff h => execProcessHop_suppressorKept hoff h, fun _ hoff => SB_off hoff,
    fun sym _ ns z hoff => suppress_off hoff sym ns z⟩

/-! ### The estimate without its bound -/

/-- An estimate that gives up its part `1 / d` and takes that part of the mean with the minimum stays at most the bound
of both: a larger estimate gives up at most the difference more. -/
theorem blend_le {mn est hi d : Int} (hd : 0 < d) (hmn : mn ≤ hi) (hest : est ≤ hi) :
    est - est / d + (mn + est) / 2 / d ≤ hi := by
  have hmean : (mn + est) / 2 / d ≤ hi / d := Int.ediv_le_ediv hd (by omega)
  have hgive : hi / d ≤ est / d + (hi - est) :=
    calc hi / d ≤ (est + (hi - est) * d) / d := Int.ediv_le_ediv hd (by nlinarith)
      _ = est / d + (hi - est) := Int.add_mul_ediv_right _ _ hd.ne'
  omega

theorem estUpdate_eq_blend (sh : Nat) {mn est : Int} (hmn : mn ≤ maxPow) (hest : est ≤ maxPow) :
    estUpdate sh mn est = est - est / 2 ^ sh + (mn + est) / 2 / 2 ^ sh :=
  (estUpdate_eq_div sh mn est).trans (min_eq_right (blend_le (by positivity) hmn hest))

/-- The adaptation rates 1/16 and 1/8 as powers of two (45_noise_suppressor.md R265). -/
theorem two_pow_rateShift (speech : Bool) : (2 : Int) ^ rateShift speech = if speech then 16 else 8 := by
  cases speech <;> rfl

/-- Settles O35: the bound is that of the minimum and the estimate, which their blend keeps. -/
theorem estimateStaysInRange : Obligations.EstimateStaysInRange := by
  intro speech mn est hmn0 hmn hest0 hest
  refine ⟨?_, estUpdate_mem _ hmn0 hest0⟩
  rw [estUpdate_eq_blend _ hmn hest, two_pow_rateShift]

/-! ### The frame counter over hops -/

section Counter

variable (sym : Bool) (cfg : NsCfg) (nb : Nat) (st : Ns)

/-- The counter wraps to 0 when it reaches MINTRACK (45_noise_suppressor.md R270). -/
theorem nsStep_cnt (z : List Cx) (hmax : cfg.mintrack ≤ 65535) (hcnt : st.cnt < cfg.mintrack) :
    (nsStep sym cfg nb st z).ns.cnt = (st.cnt + 1) % cfg.mintrack := by
  rw [nsStep_eq, countUp_eq (by omega)]
  dsimp only
  obtain hreach | hbelow := le_or_gt cfg.mintrack (st.cnt + 1)
  · rw [if_pos hreach, show st.cnt + 1 = cfg.mintrack by omega, Nat.mod_self]
  · rw [if_neg hbelow.not_ge, Nat.mod_eq_of_lt hbelow]

/-- A step that leaves the counter at 0 has reset the tracker (45_noise_suppressor.md R270). -/
theorem nsStep_min_of_cnt_eq_zero (z : List Cx) (hst : st.cnt ≤ 65535) (hcnt : (nsStep sym cfg nb st z).ns.cnt = 0) :
    ∀ m ∈ (nsStep sym cfg nb st z).ns.min, m = maxPow := by
  rw [nsStep_eq, countUp_eq hst] at hcnt
  rw [nsStep_eq, countUp_eq hst]
  have hreach : cfg.mintrack ≤ st.cnt + 1 := by
    by_contra hbelow
    dsimp only at hcnt
    rw [if_neg hbelow] at hcnt
    omega
  dsimp only
  rw [if_pos hreach]
  exact List.forall_mem_map.mpr fun _ _ => rfl

theorem nsRun_concat (zs : List (List Cx)) (z : List Cx) :
    nsRun sym cfg nb st (zs ++ [z]) = (nsStep sym cfg nb (nsRun sym cfg nb st zs) z).ns :=
  List.foldl_concat ..

variable {cfg st} (hpos : 1 ≤ cfg.mintrack) (hmax : cfg.mintrack ≤ 65535) (h0 : st.cnt = 0)
include hpos hmax h0

/-- By induction on the hops, the last one apart. -/
theorem nsRun_cnt (zs : List (List Cx)) : (nsRun sym cfg nb st zs).cnt = zs.length % cfg.mintrack := by
  induction zs using List.reverseRecOn with
  | nil => exact h0.trans (Nat.zero_mod _).symm
  | append_singleton zs z ih =>
    have hlt : (nsRun sym cfg nb st zs).cnt < cfg.mintrack := ih ▸ Nat.mod_lt _ hpos
    rw [nsRun_concat, nsStep_cnt sym cfg nb _ z hmax hlt, ih, Nat.mod_add_mod, List.length_append,
      List.length_singleton]

/-- The last hop of a whole number of rounds leaves the counter at 0, so it has reset the tracker. -/
theorem nsRun_min {zs : List (List Cx)} (hne : zs ≠ []) (hround : zs.length % cfg.mintrack = 0) :
    ∀ m ∈ (nsRun sym cfg nb st zs).min, m = maxPow := by
  obtain rfl | ⟨zs, z, rfl⟩ := zs.eq_nil_or_concat'
  · exact absurd rfl hne
  · have hcnt := nsRun_cnt sym nb hpos hmax h0
    have hbefore : (nsRun sym cfg nb st zs).cnt ≤ 65535 := by
      rw [hcnt]
      exact (Nat.mod_lt _ hpos).le.trans hmax
    have hlast := (hcnt (zs ++ [z])).trans hround
    rw [nsRun_concat] at hlast ⊢
    exact nsStep_min_of_cnt_eq_zero sym cfg nb _ z hbefore hlast

end Counter

/-- Settles O37: the step written out, and the counter and the tracker over a run. -/
theorem trackerResetsEveryMintrackHops : Obligations.TrackerResetsEveryMintrackHops :=
  ⟨fun sym cfg _ _ _ hnb hz hmin hest hcnt hfloor =>
      nsStep_suppressorStep sym cfg hz hmin hest hnb hcnt hfloor,
    fun sym _ nb _ zs hpos hmax h0 =>
      ⟨nsRun_cnt sym nb hpos hmax h0 zs, fun hne hround => nsRun_min sym nb hpos hmax h0 hne hround⟩⟩

end Sys2Proof.Machine
end

section
/-! PROOFS. The channel combination on its own (46_synthesis_hop.md R295), and PROCESS_HOP check by check (R300). -/

namespace Sys2Proof.Machine

/-! ### The channel combination -/

theorem combine_getD (c : Nat) {h i : Nat} (outs : List (List Int)) (hi : i < h) :
    (combine c h outs).getD i 0 = Int.tdiv (outs.map fun o => o.getD i 0).sum c := by
  simp [combine, tdiv, channelSum, List.getD_eq_getElem?_getD, hi]

/-- Each sample is the mean of one int16 of each channel. -/
theorem combine_getD_mem {h i : Nat} {outs : List (List Int)} (hne : outs ≠ [])
    (houts : ∀ o ∈ outs, ListIn (-32768) 32767 o) (hi : i < h) :
    -32768 ≤ (combine outs.length h outs).getD i 0 ∧ (combine outs.length h outs).getD i 0 ≤ 32767 := by
  have hsamples : ListIn (-32768) 32767 (outs.map fun o => o.getD i 0) :=
    List.forall_mem_map.mpr fun o ho => (houts o ho).getD (by norm_num) (by norm_num) i
  have hmean := tdiv_sum_mem hsamples (by simpa using List.length_pos_iff.mpr hne)
  rw [List.length_map] at hmean
  rwa [combine_getD _ _ hi]

theorem combine_one (o : List Int) : combine 1 o.length [o] = o :=
  calc combine 1 o.length [o] = (List.range o.length).map fun i => o.getD i 0 := by simp [combine, tdiv, channelSum]
    _ = o := map_getD_range rfl 0

/-- Settles O39: each sample is the mean of one int16 of each channel, and one channel's mean is its own sample. -/
theorem combinationFitsInt16 : Obligations.CombinationFitsInt16 := by
  intro h outs hne _ houts
  refine ⟨combine_length _ _ _, fun i hi => ⟨combine_getD _ _ hi, ?_⟩, ?_⟩
  · exact combine_getD_mem hne (fun o ho => (houts o ho).2) hi
  · rintro o rfl
    obtain ⟨rfl, -⟩ := houts o (List.mem_singleton_self o)
    exact combine_one o

/-! ### PROCESS_HOP, check by check -/

section HopChecks

variable {s : State}

theorem hopNull_iff (s : State) : s.regs.hopNull = true ↔ s.readReg 0x044 = 0 ∨ s.readReg 0x048 = 0 :=
  decide_eq_true_iff

theorem hopRegionsRefused_iff (s : State) : (!hopRegionsOk s.params s.act s.regs) = true ↔ ¬ HopPlaced s := by
  rw [← hopRegionsOk_iff, Bool.not_eq_true', Bool.not_eq_true]

variable (hready : s.estate = .ready)
include hready

theorem execProcessHop_null (hnull : s.readReg 0x044 = 0 ∨ s.readReg 0x048 = 0) :
    execProcessHop s = .next (s.failed .nullArg) := by
  rw [execProcessHop, if_neg (not_not.mpr hready), if_pos ((hopNull_iff s).mpr hnull)]; rfl

theorem execProcessHop_badRegion (hin : s.readReg 0x044 ≠ 0) (hout : s.readReg 0x048 ≠ 0) (hplaced : ¬ HopPlaced s) :
    execProcessHop s = .next (s.failed .badRegion) := by
  have hnull : ¬ s.regs.hopNull = true := mt (hopNull_iff s).mp (not_or.mpr ⟨hin, hout⟩)
  rw [execProcessHop, if_neg (not_not.mpr hready), if_neg hnull, if_pos ((hopRegionsRefused_iff s).mpr hplaced)]; rfl

end HopChecks

/-- Settles O22: one equation of PROCESS_HOP for each check, in their order. -/
theorem hopFailuresReport : Obligations.HopFailuresReport := fun _ =>
  ⟨execProcessHop_notReady, fun hready => ⟨execProcessHop_null hready, execProcessHop_badRegion hready⟩⟩

end Sys2Proof.Machine
end

section
/-! PROOFS. Errors are status codes (60_exceptions.md R314, R321): under the invariant every command reaches its `finish`,
so no step stops, and a `finish` with an error code is all that a failing command does. -/

namespace Sys2Proof.Machine

theorem engineCommands_cases {i : Instr} (hi : i ∈ engineCommands) :
    i = .init ∨ i = .processHop ∨ i = .reset ∨ i = .free := by
  simpa [engineCommands] using hi

/-! ### Every command reaches its finish -/

theorem execInit_next (s : State) : ∃ t, execInit s = .next t := by
  unfold execInit
  split_ifs <;> exact ⟨_, rfl⟩

theorem execReset_next (s : State) : ∃ t, execReset s = .next t := by
  by_cases hr : s.estate = .ready
  · exact ⟨_, execReset_ready hr⟩
  · exact ⟨_, execReset_notReady hr⟩

theorem execFree_next (s : State) : ∃ t, execFree s = .next t := by
  by_cases hf : s.estate = .freed
  · exact ⟨_, execFree_freed hf⟩
  · exact ⟨_, execFree_notFreed hf⟩

/-- The one fault of the model, a hop whose latched regions reach outside DMEM, is what INIT's region check rules out
(41_lifecycle.md R168). -/
theorem execProcessHop_next {s : State} (hI : s.Inv) : ∃ t, execProcessHop s = .next t := by
  by_cases hready : s.estate = .ready
  · by_cases hnull : s.readReg 0x044 = 0 ∨ s.readReg 0x048 = 0
    · exact ⟨_, execProcessHop_null hready hnull⟩
    · obtain ⟨hin, hout⟩ := not_or.mp hnull
      by_cases hplaced : HopPlaced s
      · have hR : HopReady s := ⟨hready, hin, hout, hplaced⟩
        exact ⟨_, execProcessHop_ready s hR (actInside_of_actOk _ _ (actOk_of_hopReady hI hR))⟩
      · exact ⟨_, execProcessHop_badRegion hready hin hout hplaced⟩
  · exact ⟨_, execProcessHop_notReady hready⟩

theorem exec_next (i : Instr) {s : State} (hI : s.Inv) : ∃ t, exec i s = .next t := by
  by_cases hi : i ∈ engineCommands
  · obtain rfl | rfl | rfl | rfl := engineCommands_cases hi
    · exact execInit_next s
    · exact execProcessHop_next hI
    · exact execReset_next s
    · exact execFree_next s
  · obtain ⟨t, ht, -⟩ := exec_alu_next i hi s
    exact ⟨t, ht⟩

/-! ### No step stops -/

/-- The invariant says nothing of the host's registers, so it holds of the snapshot the command runs on. -/
theorem inv_withSnapshot (r : Running) {s : State} (hI : s.Inv) : (State.withSnapshot r s).Inv := hI

theorem engineMove_next (r : Running) {s : State} (hI : s.Inv) : ∃ t, engineMove r s = .next t := by
  unfold engineMove
  split
  next i _ =>
    obtain ⟨u, hu⟩ := exec_next i (inv_withSnapshot r hI)
    exact ⟨State.withRegs s.regs u, by rw [hu, onNext_next]⟩
  next => exact ⟨_, rfl⟩

theorem step_of_nextMove_engine {s : State} {r : Running} (h : nextMove s = .engine r) : step s = engineMove r s := by
  rw [step, move, h]

theorem step_of_nextMove_idle {s : State} (h : nextMove s = .idle) : step s = .next s := by
  rw [step, move, h]

/-- Settles O9: the host's turn and an idle machine always answer, and the engine's turn does under the invariant. -/
theorem stepNeverStops : Obligations.StepNeverStops := by
  intro s hI
  cases hmove : nextMove s with
  | engine r =>
    obtain ⟨t, ht⟩ := engineMove_next r hI
    exact ⟨t, (step_of_nextMove_engine hmove).trans ht⟩
  | host op rest => exact ⟨_, step_host s op rest hmove⟩
  | idle => exact ⟨s, step_of_nextMove_idle hmove⟩

/-! ### A failing command only reports -/

/-- `t` is `s` after a command that either succeeded or changed nothing but its report (60_exceptions.md R314). -/
def OkOrOnlyReports (s t : State) : Prop := t.lastStatus ≠ .ok → t = s.failed t.lastStatus

theorem okOrOnlyReports_finish (c : StatusCode) (s : State) : OkOrOnlyReports s (s.finish c) := fun _ => rfl

theorem okOrOnlyReports_of_ok {s t : State} (hok : t.lastStatus = .ok) : OkOrOnlyReports s t :=
  fun hfailed => absurd hok hfailed

theorem execInit_okOrOnlyReports {s t : State} (h : execInit s = .next t) : OkOrOnlyReports s t := by
  obtain ⟨c, -, rfl⟩ | ⟨-, -, -, -, -, rfl⟩ := execInit_cases s t h
  · exact okOrOnlyReports_finish c s
  · exact okOrOnlyReports_of_ok (State.finish_lastStatus _ _)

theorem execReset_okOrOnlyReports {s t : State} (h : execReset s = .next t) : OkOrOnlyReports s t := by
  obtain ⟨-, rfl⟩ | ⟨-, rfl⟩ := execReset_cases s t h
  · exact okOrOnlyReports_finish _ s
  · exact okOrOnlyReports_of_ok (State.finish_lastStatus _ _)

theorem execFree_okOrOnlyReports {s t : State} (h : execFree s = .next t) : OkOrOnlyReports s t := by
  obtain ⟨-, rfl⟩ | ⟨-, rfl⟩ := execFree_cases s t h
  · exact okOrOnlyReports_finish _ s
  · exact okOrOnlyReports_of_ok (State.finish_lastStatus _ _)

/-- A hop that runs ends in OK, raced or not (46_synthesis_hop.md R300). -/
theorem execProcessHop_okOrOnlyReports {s t : State} (h : execProcessHop s = .next t) : OkOrOnlyReports s t := by
  obtain ⟨c, -, rfl⟩ | ⟨-, -, ⟨-, rfl⟩ | ⟨-, rfl⟩⟩ := execProcessHop_cases s t h
  · exact okOrOnlyReports_finish c s
  · exact okOrOnlyReports_of_ok (State.finish_lastStatus _ _)
  · exact okOrOnlyReports_of_ok (State.finish_lastStatus _ _)

/-- Settles O10: the engine commands by their cases; every other command reports OK. -/
theorem failedCommandOnlyReports : Obligations.FailedCommandOnlyReports := by
  intro i s t h
  by_cases hi : i ∈ engineCommands
  · obtain rfl | rfl | rfl | rfl := engineCommands_cases hi
    · exact execInit_okOrOnlyReports h
    · exact execProcessHop_okOrOnlyReports h
    · exact execReset_okOrOnlyReports h
    · exact execFree_okOrOnlyReports h
  · obtain ⟨u, hu, hok, -⟩ := exec_alu_next i hi s
    cases hu.symm.trans h
    exact okOrOnlyReports_of_ok hok

end Sys2Proof.Machine
end

section
/-! PROOFS. What a host that does not wait for the engine can change (70_reset_and_hazards.md R346): a register write
during a command nothing of it, a DMEM write during a hop the values it leaves, but not where it leaves them. -/

namespace Sys2Proof.Machine

/-! ### Register writes during a command -/

/-- Of two register files put in place one after the other the last one stays. -/
theorem onNext_withRegs_withRegs (g g' : Regs) (o : Result) :
    onNext (State.withRegs g) (onNext (State.withRegs g') o) = onNext (State.withRegs g) o := by
  cases o <;> rfl

theorem withSnapshot_withRegs (r : Running) (g : Regs) (s : State) :
    State.withSnapshot r (State.withRegs g s) = State.withSnapshot r s := rfl

/-- A command runs on the snapshot, whatever the host's registers are; an illegal word reads no register. -/
theorem engineMove_withRegs (r : Running) (g : Regs) (s : State) :
    engineMove r (State.withRegs g s) = onNext (State.withRegs g) (engineMove r s) := by
  cases hw : decode r.word with
  | ok i => simp only [engineMove, hw, withSnapshot_withRegs, onNext_withRegs_withRegs, State.withRegs_regs]
  | error e => simp only [engineMove, hw]; rfl

/-- Settles O5: the turn does not depend on the registers, and the engine's move only carries them. -/
theorem runningCommandSeesItsSnapshot : Obligations.RunningCommandSeesItsSnapshot := by
  intro s r g hturn
  have hturn' : (State.withRegs g s).engineTurn r := hturn
  calc step (State.withRegs g s) = engineMove r (State.withRegs g s) := step_engine _ r hturn'
    _ = onNext (State.withRegs g) (engineMove r s) := engineMove_withRegs r g s
    _ = onNext (State.withRegs g) (step s) := by rw [step_engine s r hturn]

/-! ### The state window after a raced hop -/

@[simp] theorem drawRun_length (w d : Nat) (arr : WindowArray) (start n : Nat) :
    (drawRun w d arr start n).length = n := by simp [drawRun]

@[simp] theorem drawPowers_length (d : Nat) (arr : WindowArray) (start n : Nat) :
    (drawPowers d arr start n).length = n := by simp [drawPowers]

theorem map_ofInt_toInt {w : Nat} (l : List (BitVec w)) : (l.map BitVec.toInt).map (BitVec.ofInt w) = l := by
  simp [Function.comp_def]

/-- The free values a raced hop leaves in channel `c`, as a channel's state. -/
def drawnChan (p : Params) (a : Act) (d c : Nat) : Chan where
  pre :=
    { dcX := (drawElem 32 d .dcX c).toInt
      dcY := (drawElem 32 d .dcY c).toInt
      peX := (drawPeX d c).toInt }
  buf := (drawRun 16 d .buf (c * p.maxFrameLen) a.F).map BitVec.toInt
  ola := (drawRun 32 d .ola (c * p.maxFrameLen) a.F).map BitVec.toInt
  ns :=
    { min := (drawPowers d .min (c * a.NB) a.NB).map BitVec.toInt
      est := (drawPowers d .est (c * a.NB) a.NB).map BitVec.toInt
      tpa := (drawElem 64 d .nsTpa c).toInt
      cnt := (drawCnt d c).toNat }

theorem drawnChan_lengths (p : Params) (a : Act) (d c : Nat) :
    (drawnChan p a d c).buf.length = a.F ∧ (drawnChan p a d c).ola.length = a.F ∧
    (drawnChan p a d c).ns.min.length = a.NB ∧ (drawnChan p a d c).ns.est.length = a.NB := by
  simp [drawnChan]

/-- A raced hop writes back a channel's state as any hop does; only the values are free. -/
theorem drawChan_eq_storeChan (p : Params) (a : Act) (d : Nat) (w : Window) (c : Nat) :
    drawChan p a d w c = storeChan p a w c (drawnChan p a d c) := by
  simp only [drawChan, storeChan, storeNs, storeFrame, drawnChan, map_ofInt_toInt, BitVec.ofInt_toInt,
    BitVec.ofNat_toNat, BitVec.setWidth_eq]

theorem drawChan_sameOutsideActive {p : Params} {a : Act} (d : Nat) (w : Window) {c : Nat}
    (hF : a.F ≤ p.maxFrameLen) (hc : c < a.C) : SameOutsideActive p a w (drawChan p a d w c) := by
  obtain ⟨hbuf, hola, hmin, hest⟩ := drawnChan_lengths p a d c
  have hframe := storeFrame_sameOutsideActive w hF hc hbuf hola
  rw [drawChan_eq_storeChan, storeChan]
  split
  · exact hframe.trans (storeNs_sameOutsideActive p _ hc hmin hest)
  · exact hframe

/-- Channel by channel, each drawn by `drawChan`. -/
theorem drawChans_sameOutsideActive {p : Params} {a : Act} (d : Nat) (w : Window) (hF : a.F ≤ p.maxFrameLen) :
    SameOutsideActive p a w ((List.range a.C).foldl (drawChan p a d) w) :=
  foldl_range_invariant (P := fun _ => SameOutsideActive p a w) (.refl p a w) fun _ hc w' hw' =>
    hw'.trans (drawChan_sameOutsideActive d w' hF hc)

/-! ### The raced hop -/

/-- The free values go to the scratch and to OUT alone. -/
theorem hopRaced_onlyHopRegions (s : State) : OnlyHopRegions s (hopRaced s) := by
  intro b hb
  rw [hopWrites_iff, Bool.not_eq_true, Bool.or_eq_false_iff] at hb
  obtain ⟨hout, hscr⟩ := hb
  exact (byte_drawRegion_outside s.draws _ _ b hout).trans (byte_drawRegion_outside s.draws _ _ b hscr)

section Hop

variable {s : State} (hI : s.Inv) (hR : HopReady s)
include hI hR

theorem hopRaced_sameOutsideActive : SameOutsideActive s.params s.act s.win (hopRaced s).win := by
  obtain ⟨-, -, hmax, -⟩ := hop_frame hI hR
  exact drawChans_sameOutsideActive s.draws s.win hmax

/-- A raced hop on a state of the invariant whose checks pass has the effect of R346. -/
theorem execProcessHop_raced (hraced : s.raced = true) : execProcessHop s = .next (hopRaced s) := by
  rw [execProcessHop_ready s hR (actInside_of_actOk _ _ (actOk_of_hopReady hI hR)), if_pos hraced]

end Hop

/-- Settles O26: the effect of the raced hop, with its frame over DMEM and over the state window. -/
theorem racedHopStaysInItsRegions : Obligations.RacedHopStaysInItsRegions := fun s hI hR hraced =>
  ⟨hopRaced s, execProcessHop_raced hI hR hraced, rfl, rfl, rfl, rfl, rfl, rfl, rfl, rfl, rfl, rfl,
    hopRaced_onlyHopRegions s, hopRaced_sameOutsideActive hI hR⟩

end Sys2Proof.Machine
end

section
/-! PROOFS. Every step keeps the invariant (10_state.md R53, R57; 41_lifecycle.md R166 to R168; 70_reset_and_hazards.md
R346): what INIT latches, what a hop stores and writes, raced or not, and what the host's operations leave alone. -/

namespace Sys2Proof.Machine

/-! ### Elements of their types -/

/-- A word whose value is an int16 is the sign extension of its low half (10_state.md R53). -/
theorem signExtend_of_int16 {x : Word} (h : -32768 ≤ x.toInt ∧ x.toInt ≤ 32767) :
    x = (x.setWidth 16).signExtend 32 := by
  have hlow : (x.setWidth 16).toInt = x.toInt := by
    rw [BitVec.toInt_setWidth, ← Int.bmod_bmod_of_dvd (n := 2 ^ 16) (m := 2 ^ 32) (by norm_num),
      ← BitVec.toInt_eq_toNat_bmod]
    exact Int.bmod_eq_of_le (by omega) (by omega)
  rw [← BitVec.toInt_inj, BitVec.toInt_signExtend_of_le (by decide), hlow]

theorem ofInt32_toNat_le {v : Int} (h : 0 ≤ v ∧ v ≤ 2147483647) : (BitVec.ofInt 32 v).toNat ≤ 2147483647 := by
  rw [BitVec.toNat_ofInt]
  omega

/-- A channel's state whose elements have the narrower types the window asks of them (10_state.md R53), in arrays of the
active configuration's lengths. -/
def Chan.Storable (a : Act) (ch : Chan) : Prop :=
  (ch.buf.length = a.F ∧ ch.ola.length = a.F ∧ ch.ns.min.length = a.NB ∧ ch.ns.est.length = a.NB) ∧
  (-32768 ≤ ch.pre.peX ∧ ch.pre.peX ≤ 32767) ∧ ListIn 0 2147483647 ch.ns.min ∧ ListIn 0 2147483647 ch.ns.est ∧
  ch.ns.cnt ≤ 65535

/-- The window is in canonical form and its elements have their types: what the invariant asks of it in READY. -/
def WindowOk (p : Params) (w : Window) : Prop := windowWf p w ∧ windowTyped w

/-! ### One channel written back -/

/-- The places of channel `c` with stride `n`, `k` of them used, end before those of the `m` channels do. -/
theorem stride_end_le {c m n k : Nat} (hc : c < m) (hk : k ≤ n) : c * n + k ≤ m * n := by
  have hrow : (c + 1) * n ≤ m * n := Nat.mul_le_mul_right n hc
  rw [Nat.succ_mul] at hrow
  omega

theorem mem_sparseSet_snd {w : Nat} {d : BitVec w} {P : BitVec w → Prop} {m : Sparse w} (a : Nat) {v : BitVec w}
    (hm : ∀ c ∈ m, P c.2) (hv : P v) : ∀ c ∈ sparseSet d m a v, P c.2 := fun c hc => by
  obtain ⟨rfl, -⟩ | hold := mem_sparseSet m a v c hc
  · exact hv
  · exact hm c hold

theorem mem_sparsePut_snd {w : Nat} {d : BitVec w} {P : BitVec w → Prop} {m : Sparse w} (a : Nat)
    {vs : List (BitVec w)} (hm : ∀ c ∈ m, P c.2) (hvs : ∀ v ∈ vs, P v) : ∀ c ∈ sparsePut d m a vs, P c.2 :=
  fun c hc => (mem_sparsePut vs m a c hc).elim (hvs c.2) (hm c)

/-- The frame of a valid configuration inside the layout of the state window (41_lifecycle.md R167, 10_state.md R53). -/
theorem frameOk_bounds {p : Params} {a : Act} (h : frameOk p a.F a.H a.C = true) :
    2 ≤ a.F ∧ 1 ≤ a.H ∧ a.H ≤ a.F ∧ a.F ≤ p.maxFrameLen ∧ a.C ≤ p.maxChannels ∧ a.NB ≤ p.maxBins := by
  obtain ⟨-, hF, hH, -, h2, -, hC⟩ := (frameOk_iff _ _ _ _).mp h
  rw [Act.NB, Params.maxBins]
  omega

section Store

variable {p : Params} {a : Act} (hframe : frameOk p a.F a.H a.C = true) {w : Window} (hw : WindowOk p w) {c : Nat}
  (hc : c < a.C) {ch : Chan} (hch : ch.Storable a)
include hframe hw hc hch

theorem storeFrame_windowOk : WindowOk p (storeFrame p w c ch) := by
  obtain ⟨-, -, -, hF, hC, -⟩ := frameOk_bounds hframe
  obtain ⟨⟨hdcX, hdcY, hpeX, hcnt, htpa, hbuf, hola, hbins⟩, hpeXs, htyped⟩ := hw
  obtain ⟨⟨hlbuf, hlola, -⟩, hpe, -⟩ := hch
  have hcm : c < p.maxChannels := hc.trans_le hC
  have hend : c * p.maxFrameLen + a.F ≤ p.maxChannels * p.maxFrameLen := stride_end_le hcm hF
  refine ⟨⟨sparseSet_wf _ _ _ hdcX hcm, sparseSet_wf _ _ _ hdcY hcm, sparseSet_wf _ _ _ hpeX hcm, hcnt, htpa,
    sparsePut_wf _ _ _ hbuf (by rwa [List.length_map, hlbuf]),
    sparsePut_wf _ _ _ hola (by rwa [List.length_map, hlola]), hbins⟩, ?_, htyped⟩
  exact mem_sparseSet_snd (P := fun v => v = (v.setWidth 16).signExtend 32) c hpeXs
    (signExtend_of_int16 (by rwa [toInt_ofInt32 _ (by omega) (by omega)]))

theorem storeNs_windowOk : WindowOk p (storeNs a w c ch.ns) := by
  obtain ⟨-, -, -, -, hC, hNB⟩ := frameOk_bounds hframe
  obtain ⟨⟨hdcX, hdcY, hpeX, hcnt, htpa, hbuf, hola, hmin, hest⟩, hpeXs, hcnts, hmins, hests⟩ := hw
  obtain ⟨⟨-, -, hlmin, hlest⟩, -, hmin', hest', hcnt'⟩ := hch
  have hcm : c < p.maxChannels := hc.trans_le hC
  have hend : c * a.NB + a.NB ≤ p.maxChannels * p.maxBins :=
    (stride_end_le hcm le_rfl).trans (Nat.mul_le_mul_left _ hNB)
  refine ⟨⟨hdcX, hdcY, hpeX, sparseSet_wf _ _ _ hcnt hcm, sparseSet_wf _ _ _ htpa hcm, hbuf, hola,
    sparsePut_wf _ _ _ hmin (by rwa [List.length_map, hlmin]),
    sparsePut_wf _ _ _ hest (by rwa [List.length_map, hlest])⟩, hpeXs, ?_, ?_, ?_⟩
  · refine mem_sparseSet_snd (P := fun v => v.toNat ≤ 65535) c hcnts ?_
    rw [BitVec.toNat_ofNat]
    omega
  · exact mem_sparsePut_snd (P := fun v => v.toNat ≤ 2147483647) _ hmins
      (List.forall_mem_map.mpr fun v hv => ofInt32_toNat_le (hmin' v hv))
  · exact mem_sparsePut_snd (P := fun v => v.toNat ≤ 2147483647) _ hests
      (List.forall_mem_map.mpr fun v hv => ofInt32_toNat_le (hest' v hv))

/-- The write-back of a channel keeps the window's part of the invariant. -/
theorem storeChan_windowOk : WindowOk p (storeChan p a w c ch) := by
  have hw' := storeFrame_windowOk hframe hw hc hch
  rw [storeChan]
  split
  · exact storeNs_windowOk hframe hw' hc hch
  · exact hw'

end Store

/-! ### What a hop stores -/

/-- PE_X after a hop is a narrowed sample, or the one before it (42_prefilters.md R195). -/
theorem prefilter_peX_mem (sym : Bool) (al pe : Int) {st : Pre} (hst : -32768 ≤ st.peX ∧ st.peX ≤ 32767)
    (xs : List Int) :
    -32768 ≤ (prefilter sym al pe st xs).2.peX ∧ (prefilter sym al pe st xs).2.peX ≤ 32767 := by
  induction xs generalizing st with
  | nil => exact hst
  | cons x xs ih => exact ih (sat16_mem sym _)

/-- The frame counter stays below MINTRACK, which has 16 bits (45_noise_suppressor.md R270). -/
theorem suppress_cnt_le (sym : Bool) (a : Act) {ns : Ns} (h : ns.cnt ≤ 65535) (z : List Cx) :
    (suppress sym a ns z).ns.cnt ≤ 65535 := by
  have hmax : a.nsCfg.mintrack < 2 ^ 16 := a.mintrack.isLt
  rw [suppress]
  split
  · rw [nsStep_eq]
    dsimp only
    split
    · omega
    · omega
  · exact h

/-- PE_X of a window of its types is an int16 (10_state.md R53). -/
theorem loadChan_peX_mem (p : Params) (a : Act) {w : Window} (h : windowTyped w) (c : Nat) :
    -32768 ≤ (loadChan p a w c).pre.peX ∧ (loadChan p a w c).pre.peX ≤ 32767 := by
  obtain ⟨hpeX, -⟩ := h
  change -32768 ≤ (sparseGet 0 w.peX c).toInt ∧ (sparseGet 0 w.peX c).toInt ≤ 32767
  obtain hdef | hmem := sparseGet_cases (d := 0) w.peX c
  · rw [hdef]
    decide
  · have hext : sparseGet 0 w.peX c = ((sparseGet 0 w.peX c).setWidth 16).signExtend 32 := hpeX _ hmem
    rw [hext, BitVec.toInt_signExtend_of_le (by decide)]
    exact half_toInt_mem _

section Hop

variable {s : State} (hI : s.Inv) (hR : HopReady s)
include hI hR

theorem hopChan_storable (c : Nat) : (hopChan s c).ch.Storable s.act := by
  have htyped := windowTyped_of_hopReady hI hR
  obtain ⟨hlen, -⟩ := hopChan_sized hI hR c
  obtain ⟨-, -, -, hmin, hest, -⟩ := hopChan_typed hI hR c
  exact ⟨hlen, prefilter_peX_mem _ _ _ (loadChan_peX_mem _ _ htyped c) _, hmin, hest,
    suppress_cnt_le _ _ (loadChan_cnt_le _ _ htyped c) _⟩

theorem windowOk_of_hopReady : WindowOk s.params s.win := by
  have htyped := windowTyped_of_hopReady hI hR
  obtain ⟨-, -, hwin, -⟩ := hI
  exact ⟨hwin, htyped⟩

/-- Channel by channel, each writes back the state it computes from the state before the hop. -/
theorem hopChannels_windowOk (n : Nat) (hn : n ≤ s.act.C) :
    WindowOk s.params
      ((List.range n).foldl (hopChannel s.params s.act s.regs) { win := s.win, dmem := s.dmem, outs := [] }).win := by
  obtain ⟨hframe, -⟩ := actOk_of_hopReady hI hR
  induction n with
  | zero => exact windowOk_of_hopReady hI hR
  | succ n ih =>
    obtain ⟨-, hmem, hlater, -⟩ := hopProgress_foldl hI hR n (by omega)
    rw [List.range_succ, List.foldl_append, List.foldl_cons, hopChannel_eq hI hR hn hmem (hlater n le_rfl)]
    exact storeChan_windowOk hframe (ih (by omega)) hn (hopChan_storable hI hR n)

end Hop

/-! ### What a raced hop stores -/

theorem drawPowers_listIn (d : Nat) (arr : WindowArray) (start n : Nat) :
    ListIn 0 2147483647 ((drawPowers d arr start n).map BitVec.toInt) := by
  intro v hv
  simp only [drawPowers, List.map_map, List.mem_map, Function.comp_apply] at hv
  obtain ⟨x, -, rfl⟩ := hv
  have hx := x.isLt
  have hnat : (x.setWidth 32).toNat = x.toNat := by
    rw [BitVec.toNat_setWidth]
    omega
  rw [BitVec.toInt_eq_toNat_of_lt (by omega)]
  omega

/-- The free values a raced hop leaves have the window's types (70_reset_and_hazards.md R346, log 13). -/
theorem drawnChan_storable (p : Params) (a : Act) (d c : Nat) : (drawnChan p a d c).Storable a := by
  refine ⟨drawnChan_lengths p a d c, ?_, drawPowers_listIn _ _ _ _, drawPowers_listIn _ _ _ _, ?_⟩
  · change -32768 ≤ (drawPeX d c).toInt ∧ (drawPeX d c).toInt ≤ 32767
    rw [drawPeX, BitVec.toInt_signExtend_of_le (by decide)]
    exact half_toInt_mem _
  · change (drawCnt d c).toNat ≤ 65535
    have hlt := (drawElem 16 d .nsCnt c).isLt
    rw [drawCnt, BitVec.toNat_setWidth]
    omega

theorem drawChans_windowOk {p : Params} {a : Act} (hframe : frameOk p a.F a.H a.C = true) (d : Nat) {w : Window}
    (hw : WindowOk p w) : WindowOk p ((List.range a.C).foldl (drawChan p a d) w) :=
  foldl_range_invariant (P := fun _ => WindowOk p) hw fun c hc w' hw' => by
    rw [drawChan_eq_storeChan]
    exact storeChan_windowOk hframe hw' hc (drawnChan_storable p a d c)

/-! ### DMEM after a hop -/

/-- A channel's scratch lies in DMEM (41_lifecycle.md R168, R170). -/
theorem writeScratch_wf {a : Act} {m : Memory} {c n : Nat} {o : ChanOut} (ho : o.Sized a) (hc : c < a.C)
    (hscr : a.scratchBase.toNat + a.SB ≤ n) (hm : Memory.wf n m) : Memory.wf n (writeScratch a m c o) := by
  have hframe := a.frame_le_SB
  obtain ⟨-, hxw, hz, hgain⟩ := ho
  rw [writeScratch_eq]
  have hm3 : Memory.wf n (wrI32s (wrI32s (wrI16s m a.scratchBase.toNat o.xw) (a.scratchBase.toNat + 2 * a.F)
      (o.z.map Prod.fst)) (a.scratchBase.toNat + 6 * a.F) (o.z.map Prod.snd)) := by
    refine wrI32s_wf _ _ _ (wrI32s_wf _ _ _ (wrI16s_wf _ _ _ hm (by omega)) ?_) ?_
    · rw [List.length_map]
      omega
    · rw [List.length_map]
      omega
  by_cases hns : a.nsEn = true
  · have hrow := Act.gainRow_end_le hns hc
    refine wrI32s_wf _ _ _ hm3 ?_
    rw [hgain, Act.gains, if_pos hns]
    omega
  · have hnil : o.gain = [] := List.eq_nil_of_length_eq_zero (by rw [hgain, Act.gains, if_neg hns])
    rw [hnil]
    exact hm3

section Hop

variable {s : State} (hI : s.Inv) (hR : HopReady s)
include hI hR

/-- The scratch and OUT of a hop lie in DMEM (41_lifecycle.md R168, 46_synthesis_hop.md R296). -/
theorem hop_regions_inside :
    s.act.scratchBase.toNat + s.act.SB ≤ s.params.dmemBytes ∧
    (outRegion s.act s.regs).base + 2 * s.act.H ≤ s.params.dmemBytes := by
  have hinside := actInside_of_actOk _ _ (actOk_of_hopReady hI hR)
  obtain ⟨-, -, -, -, hout, -⟩ := hR
  simp only [actInside, Bool.and_eq_true] at hinside
  obtain ⟨-, hscr⟩ := hinside
  exact ⟨(inside_iff _ _ _).mp hscr, hout⟩

theorem hopChannels_wf (n : Nat) (hn : n ≤ s.act.C) :
    Memory.wf s.params.dmemBytes
      ((List.range n).foldl (hopChannel s.params s.act s.regs) { win := s.win, dmem := s.dmem, outs := [] }).dmem := by
  obtain ⟨hscr, -⟩ := hop_regions_inside hI hR
  induction n with
  | zero =>
    obtain ⟨-, hmem, -⟩ := hI
    exact hmem
  | succ n ih =>
    obtain ⟨-, hmem, hlater, -⟩ := hopProgress_foldl hI hR n (by omega)
    rw [List.range_succ, List.foldl_append, List.foldl_cons, hopChannel_eq hI hR hn hmem (hlater n le_rfl)]
    exact writeScratch_wf (hopChan_sized hI hR n) hn hscr (ih (by omega))

theorem hopEffect_wf : Memory.wf s.params.dmemBytes (hopEffect s).dmem := by
  obtain ⟨-, hout⟩ := hop_regions_inside hI hR
  exact wrI16s_wf _ _ _ (hopChannels_wf hI hR s.act.C le_rfl) (by rwa [combine_length])

theorem hopRaced_wf : Memory.wf s.params.dmemBytes (hopRaced s).dmem := by
  obtain ⟨hscr, hout⟩ := hop_regions_inside hI hR
  obtain ⟨-, hmem, -⟩ := hI
  exact drawRegion_wf _ _ _ (drawRegion_wf _ _ _ hmem hscr) hout

/-! ### The commands keep the invariant -/

theorem inv_hopEffect : (hopEffect s).Inv := by
  have hact := actOk_of_hopReady hI hR
  obtain ⟨hwf, htyped⟩ := hopChannels_windowOk hI hR s.act.C le_rfl
  exact ⟨hI.1, hopEffect_wf hI hR, hwf, fun _ => ⟨hact, htyped⟩⟩

theorem inv_hopRaced : (hopRaced s).Inv := by
  have hact := actOk_of_hopReady hI hR
  have hframe : frameOk s.params s.act.F s.act.H s.act.C = true := hact.1
  obtain ⟨hwf, htyped⟩ := drawChans_windowOk hframe s.draws (windowOk_of_hopReady hI hR)
  exact ⟨hI.1, hopRaced_wf hI hR, hwf, fun _ => ⟨hact, htyped⟩⟩

end Hop

/-- A base register is a multiple of 4 (10_state.md R38). -/
theorem baseValue_mod_four (b : BitVec 30) : (baseValue b).toNat % 4 = 0 := by
  have h : (baseValue b).toNat = b.toNat * 4 := by
    rw [baseValue, BitVec.toNat_append, Nat.shiftLeft_eq]
    simp
  omega

/-- INIT latches what its checks have passed (41_lifecycle.md R165 to R168, 10_state.md R44). -/
theorem actOk_latch {p : Params} {r : Regs} (hnull : r.initNull = false) (hvalid : validConfig p r = true)
    (hregions : initRegionsOk p r = true) : actOk p r.latch := by
  simp only [validConfig, Bool.and_eq_true] at hvalid
  obtain ⟨⟨hframe, hmintrack⟩, -⟩ := hvalid
  simp only [Regs.initNull, decide_eq_false_iff_not, not_or] at hnull
  refine ⟨hframe, fun hns => ?_, hregions, hnull, baseValue_mod_four _, baseValue_mod_four _, baseValue_mod_four _,
    baseValue_mod_four _⟩
  have hon : r.nsEn = true := hns
  rw [hon] at hmintrack
  exact of_decide_eq_true hmintrack

theorem inv_execInit {s t : State} (hI : s.Inv) (h : execInit s = .next t) : t.Inv := by
  obtain ⟨c, -, rfl⟩ | ⟨-, hnull, hvalid, -, hregions, rfl⟩ := execInit_cases s t h
  · exact hI
  · obtain ⟨hlegal, hmem, -⟩ := hI
    obtain ⟨hwf, htyped⟩ := postInit_windowOk s.params
    exact ⟨hlegal, hmem, hwf, fun _ => ⟨actOk_latch hnull hvalid hregions, htyped⟩⟩

theorem inv_execReset {s t : State} (hI : s.Inv) (h : execReset s = .next t) : t.Inv := by
  obtain ⟨-, rfl⟩ | ⟨hready, rfl⟩ := execReset_cases s t h
  · exact hI
  · obtain ⟨hlegal, hmem, -, hact⟩ := hI
    obtain ⟨hwf, htyped⟩ := postInit_windowOk s.params
    exact ⟨hlegal, hmem, hwf, fun _ => ⟨(hact hready).1, htyped⟩⟩

theorem inv_execFree {s t : State} (hI : s.Inv) (h : execFree s = .next t) : t.Inv := by
  obtain ⟨-, rfl⟩ | ⟨-, rfl⟩ := execFree_cases s t h
  · exact hI
  · obtain ⟨hlegal, hmem, hwin, -⟩ := hI
    exact ⟨hlegal, hmem, hwin, fun hready => by simp at hready⟩

theorem inv_execProcessHop {s t : State} (hI : s.Inv) (h : execProcessHop s = .next t) : t.Inv := by
  obtain ⟨c, -, rfl⟩ | ⟨hR, -, ⟨-, rfl⟩ | ⟨-, rfl⟩⟩ := execProcessHop_cases s t h
  · exact hI
  · exact inv_hopRaced hI hR
  · exact inv_hopEffect hI hR

/-- The engine commands one by one; an ALU command writes back what the invariant does not name. -/
theorem inv_exec (i : Instr) {s t : State} (hI : s.Inv) (h : exec i s = .next t) : t.Inv := by
  by_cases hi : i ∈ engineCommands
  · obtain rfl | rfl | rfl | rfl := engineCommands_cases hi
    · exact inv_execInit hI h
    · exact inv_execProcessHop hI h
    · exact inv_execReset hI h
    · exact inv_execFree hI h
  · obtain ⟨r, sat, dz, he⟩ := exec_alu i hi s
    cases he.symm.trans h
    exact hI

theorem inv_engineMove (r : Running) {s t : State} (hI : s.Inv) (h : engineMove r s = .next t) : t.Inv := by
  obtain ⟨-, -, rfl⟩ | ⟨i, u, -, hu, rfl⟩ := engineMove_cases r s t h
  · exact hI
  · have hIu : u.Inv := inv_exec i (inv_withSnapshot r hI) hu
    exact hIu

/-! ### The host keeps the invariant -/

theorem inv_busRead (addr : Nat) (size : AccessSize) {s : State} (hI : s.Inv) : (busRead addr size s).Inv := by
  unfold busRead
  split
  · exact hI
  · split
    · dsimp only
      split <;> exact hI
    · exact hI

theorem inv_writeReg (off : Nat) (v : Word) {s : State} (hI : s.Inv) : (s.writeReg off v).Inv := by
  unfold State.writeReg
  split
  · unfold State.writeStatus
    split <;> exact hI
  · split
    · unfold State.writeCmd
      split <;> exact hI
    · exact hI

theorem inv_writeDmem (a : Nat) (size : AccessSize) (v : Word) {s : State} (hI : s.Inv) :
    (s.writeDmem a size v).Inv := by
  obtain ⟨hlegal, hmem, hrest⟩ := hI
  have hmem' := hostDmemWrite_wf size.bytes s.dmem a v.toNat hmem
  unfold State.writeDmem
  dsimp only
  split <;> exact ⟨hlegal, hmem', hrest⟩

theorem inv_busWrite (addr : Nat) (size : AccessSize) (v : Word) {s : State} (hI : s.Inv) :
    (busWrite addr size v s).Inv := by
  cases ht : busTarget s.params addr with
  | none =>
    rw [busWrite_outside s addr size v ht]
    exact hI
  | some target =>
    by_cases hl : accessLegal target size = true
    · rw [busWrite_legal s addr size v target ht hl]
      cases target with
      | register off => exact inv_writeReg off v hI
      | stateWindow off => exact hI
      | dmem off => exact inv_writeDmem off size v hI
    · rw [busWrite_illegal s addr size v target ht (Bool.eq_false_iff.mpr hl)]
      exact hI

/-- The free window of a power-on reset fills its layout (10_state.md R55). -/
theorem drawWindow_wf (p : Params) (d : Nat) : windowWf p (drawWindow p d) := by
  have hfill : ∀ {w : Nat} (dflt : BitVec w) (arr : WindowArray) (n : Nat),
      sparseWf dflt n (sparsePut dflt [] 0 (drawRun w d arr 0 n)) := fun dflt arr n =>
    sparsePut_wf _ _ _ (sparseWf_nil n) (by rw [drawRun_length, Nat.zero_add])
  exact ⟨hfill _ _ _, hfill _ _ _, hfill _ _ _, hfill _ _ _, hfill _ _ _, hfill _ _ _, hfill _ _ _, hfill _ _ _,
    hfill _ _ _⟩

theorem inv_powerOnReset {s : State} (hI : s.Inv) : (powerOnReset s).Inv := by
  obtain ⟨hlegal, -⟩ := hI
  exact ⟨hlegal, drawRegion_wf _ _ _ (sparseWf_nil _) (by simp), drawWindow_wf _ _, fun hready => by simp at hready⟩

theorem inv_hostOp (op : HostOp) {s : State} (hI : s.Inv) : (hostOp op s).Inv := by
  cases op with
  | read addr size => exact inv_busRead addr size hI
  | write addr size v => exact inv_busWrite addr size v hI
  | wait => exact hI
  | por => exact inv_powerOnReset hI

/-- Settles O8: the engine's move by its command, the host's by its operation. -/
theorem stepKeepsInvariant : Obligations.StepKeepsInvariant := by
  intro s t hI h
  obtain ⟨r, -, hmove⟩ | ⟨op, rest, -, rfl⟩ | ⟨-, -, rfl⟩ := step_cases s t h
  · exact inv_engineMove r hI hmove
  · have hI' : (State.countDown { s with host := rest }).Inv := hI
    exact inv_hostOp op hI'
  · exact hI

/-- Settles O7: the default parameters are legal, and nothing is listed in the window or in DMEM. -/
theorem resetMeetsInvariant : Obligations.ResetMeetsInvariant :=
  ⟨by decide, sparseWf_nil _, (postInit_windowOk _).1, fun hready => absurd hready (by decide)⟩

end Sys2Proof.Machine
end

section
/-! PROOFS. Decoding and encoding (30_encoding.md R80 to R88): a word is its four fields, an encoding has its command's,
and the decoder answers a command exactly when the fields are those of that command. -/

namespace Sys2Proof

/-! ### The fields of a word -/

theorem opcodeOf_eq_mod (w : Word) : opcodeOf w = w.toNat % 2 ^ 8 := by
  simp [opcodeOf, BitVec.extractLsb'_toNat]

theorem funcOf_eq_div (w : Word) : funcOf w = w.toNat / 2 ^ 8 % 2 ^ 8 := by
  simp [funcOf, BitVec.extractLsb'_toNat, Nat.shiftRight_eq_div_pow]

theorem shamtOf_eq_div (w : Word) : shamtOf w = w.toNat / 2 ^ 16 % 2 ^ 5 := by
  simp [shamtOf, BitVec.extractLsb'_toNat, Nat.shiftRight_eq_div_pow]

theorem rsvdOf_eq_div (w : Word) : rsvdOf w = w.toNat / 2 ^ 21 % 2 ^ 11 := by
  simp [rsvdOf, BitVec.extractLsb'_toNat, Nat.shiftRight_eq_div_pow]

theorem shamtOf_le (w : Word) : shamtOf w ≤ 31 := by
  rw [shamtOf_eq_div]
  omega

/-- The four fields cover the word (30_encoding.md R81). -/
theorem word_ext_fields {w v : Word} (hop : opcodeOf w = opcodeOf v) (hfn : funcOf w = funcOf v)
    (hsh : shamtOf w = shamtOf v) (hrs : rsvdOf w = rsvdOf v) : w = v := by
  rw [opcodeOf_eq_mod, opcodeOf_eq_mod] at hop
  rw [funcOf_eq_div, funcOf_eq_div] at hfn
  rw [shamtOf_eq_div, shamtOf_eq_div] at hsh
  rw [rsvdOf_eq_div, rsvdOf_eq_div] at hrs
  have hw := w.isLt
  have hv := v.isLt
  refine BitVec.eq_of_toNat_eq ?_
  omega

/-! ### The fields of a command -/

/-- OPCODE of a command (30_encoding.md R82). -/
def Instr.opcode : Instr → Nat
  | .init => 0x01
  | .processHop => 0x02
  | .reset => 0x03
  | .free => 0x04
  | _ => 0x10

/-- FUNC of a command: 0 for a lifecycle command (30_encoding.md R83, R84). -/
def Instr.func : Instr → Nat
  | .init => 0x00
  | .processHop => 0x00
  | .reset => 0x00
  | .free => 0x00
  | .sat16 => 0x01
  | .sat32 => 0x02
  | .widen => 0x03
  | .narrow => 0x04
  | .mulq15 => 0x05
  | .mulq31 => 0x06
  | .mulw => 0x07
  | .mac2 => 0x08
  | .msu2 => 0x09
  | .adds32 => 0x0A
  | .subs32 => 0x0B
  | .negs32 => 0x0C
  | .adds16 => 0x0D
  | .subs16 => 0x0E
  | .asr32 _ => 0x0F
  | .shls32 _ => 0x10
  | .mulg => 0x11
  | .divg => 0x12
  | .powq31 => 0x13

/-- A word holds the fields of a command, with RSVD 0. -/
def HasFields (w : Word) (i : Instr) : Prop :=
  rsvdOf w = 0 ∧ opcodeOf w = i.opcode ∧ funcOf w = i.func ∧ shamtOf w = i.shamt

theorem HasFields.wellFormed {w : Word} {i : Instr} (h : HasFields w i) : i.WellFormed := by
  obtain ⟨-, -, -, hsh⟩ := h
  exact hsh.symm.trans_le (shamtOf_le w)

theorem HasFields.unique {w v : Word} {i : Instr} (hw : HasFields w i) (hv : HasFields v i) : w = v := by
  obtain ⟨hrs, hop, hfn, hsh⟩ := hw
  obtain ⟨hrs', hop', hfn', hsh'⟩ := hv
  exact word_ext_fields (hop.trans hop'.symm) (hfn.trans hfn'.symm) (hsh.trans hsh'.symm) (hrs.trans hrs'.symm)

/-- The encoding of a well-formed command has its fields (30_encoding.md R83 to R85). -/
theorem encode_hasFields {i : Instr} (h : i.WellFormed) : HasFields (encode i) i := by
  cases i with
  | asr32 s =>
    obtain ⟨hop, hfn, hsh, hrs⟩ := Laws.shiftWord_fields 0x0F s (.inl rfl) h
    exact ⟨hrs, hop, hfn, hsh⟩
  | shls32 s =>
    obtain ⟨hop, hfn, hsh, hrs⟩ := Laws.shiftWord_fields 0x10 s (.inr rfl) h
    exact ⟨hrs, hop, hfn, hsh⟩
  | _ => exact ⟨by decide, by decide, by decide, by decide⟩

/-- A word encodes a command exactly when it holds the command's fields. -/
theorem hasFields_iff_encode (w : Word) (i : Instr) : HasFields w i ↔ i.WellFormed ∧ encode i = w :=
  ⟨fun h => ⟨h.wellFormed, (encode_hasFields h.wellFormed).unique h⟩, fun ⟨hwf, he⟩ => he ▸ encode_hasFields hwf⟩

/-- A lifecycle command has FUNC and SHAMT 0; a function has OPCODE 0x10 and a FUNC of R84, and SHAMT 0 unless it shifts
(30_encoding.md R82 to R85). -/
theorem Instr.fields_cases (i : Instr) :
    (1 ≤ i.opcode ∧ i.opcode ≤ 4 ∧ i.func = 0 ∧ i.shamt = 0) ∨
    (i.opcode = 0x10 ∧ 1 ≤ i.func ∧ i.func ≤ 0x13 ∧ (i.func ≠ 0x0F → i.func ≠ 0x10 → i.shamt = 0)) := by
  cases i with
  | init | processHop | reset | free => exact .inl (by decide)
  | asr32 s => exact .inr ⟨rfl, show 1 ≤ 0x0F by decide, show 0x0F ≤ 0x13 by decide, fun h _ => absurd rfl h⟩
  | shls32 s => exact .inr ⟨rfl, show 1 ≤ 0x10 by decide, show 0x10 ≤ 0x13 by decide, fun _ h => absurd rfl h⟩
  | _ => exact .inr (by decide)

/-! ### The decoder's tables -/

theorem lifecycleOf_eq_some_iff (op : Nat) (i : Instr) :
    lifecycleOf op = some i ↔ i.opcode ≠ 0x10 ∧ op = i.opcode := by
  constructor
  · intro h
    unfold lifecycleOf at h
    split at h <;> cases h <;> decide
  · rintro ⟨hne, rfl⟩
    cases i with
    | init | processHop | reset | free => rfl
    | _ => exact absurd rfl hne

/-- The functions that shift take SHAMT as it is, the others give it no meaning (30_encoding.md R84, R85). -/
theorem functionOf_eq_some_iff (fn sh : Nat) (i : Instr) :
    functionOf fn sh = some i ↔
      i.opcode = 0x10 ∧ fn = i.func ∧ i.shamt = if fn = 0x0F ∨ fn = 0x10 then sh else 0 := by
  constructor
  · intro h
    unfold functionOf at h
    split at h <;> cases h <;> exact ⟨rfl, rfl, rfl⟩
  · rintro ⟨hop, rfl, hsh⟩
    cases i with
    | init | processHop | reset | free => exact absurd hop (by decide)
    | asr32 s => exact congrArg (fun n => some (Instr.asr32 n)) (Eq.symm hsh)
    | shls32 s => exact congrArg (fun n => some (Instr.shls32 n)) (Eq.symm hsh)
    | _ => rfl

theorem lifecycleOf_of_mem {op : Nat} (h1 : 1 ≤ op) (h4 : op ≤ 4) : lifecycleOf op ≠ none := by
  interval_cases op <;> exact Option.some_ne_none _

theorem functionOf_of_mem {fn : Nat} (sh : Nat) (h1 : 1 ≤ fn) (h13 : fn ≤ 0x13) : functionOf fn sh ≠ none := by
  interval_cases fn <;> exact Option.some_ne_none _

/-! ### The decoder -/

/-- The words of R87, by their fields. -/
def IllegalFields (w : Word) : Prop :=
  rsvdOf w ≠ 0 ∨
  (1 ≤ opcodeOf w ∧ opcodeOf w ≤ 4 ∧ (funcOf w ≠ 0 ∨ shamtOf w ≠ 0)) ∨
  (opcodeOf w = 0x10 ∧ (funcOf w = 0 ∨ 0x14 ≤ funcOf w)) ∨
  (opcodeOf w = 0x10 ∧ funcOf w ≠ 0x0F ∧ funcOf w ≠ 0x10 ∧ shamtOf w ≠ 0) ∨
  opcodeOf w = 0 ∨ (5 ≤ opcodeOf w ∧ opcodeOf w ≠ 0x10)

/-- What the decoder can answer (30_encoding.md R86): the command whose fields the word holds, or a refusal of a word of
R87. -/
theorem decode_cases (w : Word) :
    (∃ i, decode w = .ok i ∧ HasFields w i) ∨ (∃ e, decode w = .error e ∧ IllegalFields w) := by
  unfold decode
  split
  next hrs => exact .inr ⟨_, rfl, .inl hrs⟩
  next hrs =>
    split
    next i hlife =>
      obtain ⟨hne, hop⟩ := (lifecycleOf_eq_some_iff _ _).mp hlife
      obtain ⟨h1, h4, hfn, hsh⟩ | ⟨halu, -⟩ := i.fields_cases
      · split
        next hfield => exact .inr ⟨_, rfl, .inr (.inl ⟨hop ▸ h1, hop ▸ h4, hfield⟩)⟩
        next hzero =>
          refine .inl ⟨i, rfl, not_not.mp hrs, hop, ?_, ?_⟩ <;> omega
      · exact absurd halu hne
    next hlife =>
      have hout : ¬ (1 ≤ opcodeOf w ∧ opcodeOf w ≤ 4) := fun ⟨h1, h4⟩ => lifecycleOf_of_mem h1 h4 hlife
      split
      next hop =>
        split
        next hfun =>
          have hfn : ¬ (1 ≤ funcOf w ∧ funcOf w ≤ 0x13) := fun ⟨h1, h13⟩ => functionOf_of_mem _ h1 h13 hfun
          exact .inr ⟨_, rfl, .inr (.inr (.inl ⟨hop, by omega⟩))⟩
        next i hfun =>
          obtain ⟨halu, hfn, hsh⟩ := (functionOf_eq_some_iff _ _ _).mp hfun
          split
          next hunused => exact .inr ⟨_, rfl, .inr (.inr (.inr (.inl ⟨hop, hunused⟩)))⟩
          next hused =>
            refine .inl ⟨i, rfl, not_not.mp hrs, hop.trans halu.symm, hfn, ?_⟩
            split at hsh <;> omega
      next hop => exact .inr ⟨_, rfl, .inr (.inr (.inr (.inr (by omega))))⟩

theorem HasFields.not_illegalFields {w : Word} {i : Instr} (h : HasFields w i) : ¬ IllegalFields w := by
  obtain ⟨hrs, hop, hfn, hsh⟩ := h
  have hfields := i.fields_cases
  unfold IllegalFields
  omega

/-- The tables find the command whose fields a word holds. -/
theorem HasFields.listed {w : Word} {i : Instr} (h : HasFields w i) :
    lifecycleOf (opcodeOf w) = some i ∨ opcodeOf w = 0x10 ∧ functionOf (funcOf w) (shamtOf w) = some i := by
  obtain ⟨-, hop, hfn, hsh⟩ := h
  rw [lifecycleOf_eq_some_iff, functionOf_eq_some_iff]
  obtain ⟨-, h4, -⟩ | ⟨halu, -, -, hzero⟩ := i.fields_cases
  · exact .inl ⟨by omega, hop⟩
  · refine .inr ⟨hop.trans halu, halu, hfn, ?_⟩
    split <;> omega

/-- Fields of one command are not those of another (30_encoding.md R82, R84). -/
theorem HasFields.eq_command {w : Word} {i j : Instr} (hi : HasFields w i) (hj : HasFields w j) : i = j := by
  have hnone : lifecycleOf 0x10 = none := rfl
  obtain hi | ⟨hop, hi⟩ := hi.listed
  · obtain hj | ⟨hop, -⟩ := hj.listed
    · exact Option.some_injective _ (hi.symm.trans hj)
    · rw [hop, hnone] at hi
      cases hi
  · obtain hj | ⟨-, hj⟩ := hj.listed
    · rw [hop, hnone] at hj
      cases hj
    · exact Option.some_injective _ (hi.symm.trans hj)

/-- The decoder answers a command exactly for the words that hold its fields (30_encoding.md R86). -/
theorem decode_eq_ok_iff_hasFields (w : Word) (i : Instr) : decode w = .ok i ↔ HasFields w i := by
  obtain ⟨j, hj, hfields⟩ | ⟨e, he, hill⟩ := decode_cases w
  · rw [hj]
    constructor
    · rintro ⟨⟩
      exact hfields
    · exact fun hi => congrArg Except.ok (hfields.eq_command hi)
  · rw [he]
    exact ⟨fun h => (by cases h), fun hi => absurd hill hi.not_illegalFields⟩

/-- Settles O1: decoding and encoding are both told by the fields. -/
theorem decodeAcceptsExactlyTheEncodings : Obligations.DecodeAcceptsExactlyTheEncodings := fun w i =>
  (decode_eq_ok_iff_hasFields w i).trans (hasFields_iff_encode w i)

/-- Settles O2: the command words by their encodings, the illegal words by the decoder's tests. -/
theorem tableWordsDecode : Obligations.TableWordsDecode := by
  have hword := fun w i h => (decodeAcceptsExactlyTheEncodings w i).mpr h
  exact ⟨hword _ _ (by decide), hword _ _ (by decide), hword _ _ (by decide), hword _ _ (by decide),
    hword _ _ (by decide), hword _ _ (by decide), hword _ _ (by decide), hword _ _ (by decide), hword _ _ (by decide),
    by decide, by decide, by decide, by decide, by decide⟩

/-! ### Illegal words -/

/-- The words that encode no well-formed command are those the decoder refuses. -/
theorem no_encoding_iff_decode_error (w : Word) :
    (∀ i : Instr, i.WellFormed → encode i ≠ w) ↔ ∃ e, decode w = .error e := by
  constructor
  · intro hnone
    cases hd : decode w with
    | error e => exact ⟨e, rfl⟩
    | ok i =>
      obtain ⟨hwf, he⟩ := (decodeAcceptsExactlyTheEncodings w i).mp hd
      exact absurd he (hnone i hwf)
  · rintro ⟨e, he⟩ i hwf henc
    cases he.symm.trans ((decodeAcceptsExactlyTheEncodings w i).mpr ⟨hwf, henc⟩)

theorem no_encoding_iff_illegalFields (w : Word) :
    (∀ i : Instr, i.WellFormed → encode i ≠ w) ↔ IllegalFields w := by
  rw [no_encoding_iff_decode_error]
  obtain ⟨i, hi, hfields⟩ | ⟨e, he, hill⟩ := decode_cases w
  · rw [hi]
    exact ⟨fun ⟨_, h⟩ => (by cases h), fun hill => absurd hill hfields.not_illegalFields⟩
  · exact ⟨fun _ => hill, fun _ => ⟨e, he⟩⟩

end Sys2Proof

namespace Sys2Proof.Machine

/-! ### The engine's turn -/

theorem engineMove_illegal {r : Running} {e : DecodeError} (s : State) (h : decode r.word = .error e) :
    engineMove r s = .next (s.finish .illegalCmd) := by
  simp only [engineMove, h]

theorem engineMove_command {r : Running} {i : Instr} (s : State) (h : decode r.word = .ok i) :
    engineMove r s = onNext (State.withRegs s.regs) (exec i (State.withSnapshot r s)) := by
  simp only [engineMove, h]

/-- Settles O3: the words no command encodes are those the decoder refuses, and such a word ends in one `finish`. -/
theorem illegalWordOnlyReports : Obligations.IllegalWordOnlyReports := by
  refine ⟨no_encoding_iff_illegalFields, fun s r hturn hnone => ?_⟩
  obtain ⟨e, he⟩ := (no_encoding_iff_decode_error r.word).mp hnone
  exact (step_engine s r hturn).trans (engineMove_illegal s he)

/-- Settles O4: at its turn the engine runs the command it has decoded. -/
theorem stepRunsTheHeldCommand : Obligations.StepRunsTheHeldCommand := by
  intro s r i hturn hd
  refine ⟨(step_engine s r hturn).trans (engineMove_command s hd), ?_⟩
  obtain ⟨hrun, -⟩ := hturn
  simp only [State.raced, hrun]

end Sys2Proof.Machine
end

section
/-! PROOFS. Who writes what (10_state.md R42 to R57, 40_qformat_alu.md R110, 41_lifecycle.md R160, R174): the commands
case by case, and the bytes of the post-init window. -/

namespace Sys2Proof.Machine

/-! ### What a command leaves of the engine's side -/

/-- `t` has the state window, ACT, ESTATE and FFT_SHIFT of `s`. -/
def EngineSideKept (s t : State) : Prop :=
  t.win = s.win ∧ t.act = s.act ∧ t.estate = s.estate ∧ t.fftShift = s.fftShift

/-- What a command that answers `t` has done to the engine's side: nothing, or it is one of the four engine commands and
has succeeded (41_lifecycle.md R160, R161). -/
theorem exec_engineSide {i : Instr} {s t : State} (h : exec i s = .next t) :
    EngineSideKept s t ∨
    (i = .init ∧ t = initEffect s) ∨
    (i = .reset ∧ t = State.finish .ok s.postInitValues) ∨
    (i = .free ∧ t = State.finish .ok { s with estate := .freed }) ∨
    (i = .processHop ∧ (t = hopRaced s ∨ t = hopEffect s)) := by
  by_cases hi : i ∈ engineCommands
  · obtain rfl | rfl | rfl | rfl := engineCommands_cases hi
    · obtain ⟨c, -, rfl⟩ | ⟨-, -, -, -, -, rfl⟩ := execInit_cases s t h
      · exact .inl ⟨rfl, rfl, rfl, rfl⟩
      · exact .inr (.inl ⟨rfl, rfl⟩)
    · obtain ⟨c, -, rfl⟩ | ⟨-, -, ⟨-, rfl⟩ | ⟨-, rfl⟩⟩ := execProcessHop_cases s t h
      · exact .inl ⟨rfl, rfl, rfl, rfl⟩
      · exact .inr (.inr (.inr (.inr ⟨rfl, .inl rfl⟩)))
      · exact .inr (.inr (.inr (.inr ⟨rfl, .inr rfl⟩)))
    · obtain ⟨-, rfl⟩ | ⟨-, rfl⟩ := execReset_cases s t h
      · exact .inl ⟨rfl, rfl, rfl, rfl⟩
      · exact .inr (.inr (.inl ⟨rfl, rfl⟩))
    · obtain ⟨-, rfl⟩ | ⟨-, rfl⟩ := execFree_cases s t h
      · exact .inl ⟨rfl, rfl, rfl, rfl⟩
      · exact .inr (.inr (.inr (.inl ⟨rfl, rfl⟩)))
  · obtain ⟨r, sat, dz, he⟩ := exec_alu i hi s
    cases he.symm.trans h
    exact .inl ⟨rfl, rfl, rfl, rfl⟩

/-- Settles O12: of the commands that have succeeded, FREE alone keeps the window. -/
theorem persistentStateWriters : Obligations.PersistentStateWriters := by
  intro i s t h hwin
  obtain ⟨hkept, -⟩ | ⟨rfl, rfl⟩ | ⟨rfl, rfl⟩ | ⟨rfl, rfl⟩ | ⟨rfl, rfl | rfl⟩ := exec_engineSide h
  · exact absurd hkept hwin
  · exact ⟨.inl rfl, rfl⟩
  · exact ⟨.inr (.inl rfl), rfl⟩
  · exact absurd rfl hwin
  · exact ⟨.inr (.inr rfl), rfl⟩
  · exact ⟨.inr (.inr rfl), rfl⟩

/-- Settles O13, by what each command has done to the engine's side. -/
theorem engineStateWriters : Obligations.EngineStateWriters := by
  intro i s t h
  obtain ⟨-, hact, hestate, hfft⟩ | ⟨rfl, rfl⟩ | ⟨rfl, rfl⟩ | ⟨rfl, rfl⟩ | ⟨rfl, rfl | rfl⟩ := exec_engineSide h
  · exact ⟨fun hne => absurd hact hne, fun hne => absurd hestate hne, fun hne => absurd hfft hne⟩
  · exact ⟨fun _ => ⟨rfl, rfl, actLatched_latch s⟩, fun _ => .inl ⟨rfl, rfl⟩, fun _ => ⟨.inl rfl, rfl⟩⟩
  · exact ⟨fun hne => absurd rfl hne, fun hne => absurd rfl hne, fun _ => ⟨.inr (.inl rfl), rfl⟩⟩
  · exact ⟨fun hne => absurd rfl hne, fun _ => .inr ⟨rfl, rfl⟩, fun hne => absurd rfl hne⟩
  · exact ⟨fun hne => absurd rfl hne, fun hne => absurd rfl hne, fun _ => ⟨.inr (.inr rfl), rfl⟩⟩
  · exact ⟨fun hne => absurd rfl hne, fun hne => absurd rfl hne, fun _ => ⟨.inr (.inr rfl), rfl⟩⟩

/-! ### The ALU outputs and DMEM -/

/-- `t` has the ALU result and flags of `s`. -/
def AluOutputsKept (s t : State) : Prop :=
  t.aluRLo = s.aluRLo ∧ t.aluRHi = s.aluRHi ∧ t.aluSat = s.aluSat ∧ t.aluDz = s.aluDz

theorem execInit_kept {s t : State} (h : execInit s = .next t) : AluOutputsKept s t ∧ t.dmem = s.dmem := by
  obtain ⟨c, -, rfl⟩ | ⟨-, -, -, -, -, rfl⟩ := execInit_cases s t h
  · exact ⟨⟨rfl, rfl, rfl, rfl⟩, rfl⟩
  · exact ⟨⟨rfl, rfl, rfl, rfl⟩, rfl⟩

theorem execReset_kept {s t : State} (h : execReset s = .next t) : AluOutputsKept s t ∧ t.dmem = s.dmem := by
  obtain ⟨-, rfl⟩ | ⟨-, rfl⟩ := execReset_cases s t h
  · exact ⟨⟨rfl, rfl, rfl, rfl⟩, rfl⟩
  · exact ⟨⟨rfl, rfl, rfl, rfl⟩, rfl⟩

theorem execFree_kept {s t : State} (h : execFree s = .next t) : AluOutputsKept s t ∧ t.dmem = s.dmem := by
  obtain ⟨-, rfl⟩ | ⟨-, rfl⟩ := execFree_cases s t h
  · exact ⟨⟨rfl, rfl, rfl, rfl⟩, rfl⟩
  · exact ⟨⟨rfl, rfl, rfl, rfl⟩, rfl⟩

/-- A hop computes with the Q-format functions, but leaves ALU_R and ALU_FLAGS to the ALU commands (10_state.md R48). -/
theorem execProcessHop_kept {s t : State} (h : execProcessHop s = .next t) : AluOutputsKept s t := by
  obtain ⟨c, -, rfl⟩ | ⟨-, -, ⟨-, rfl⟩ | ⟨-, rfl⟩⟩ := execProcessHop_cases s t h
  · exact ⟨rfl, rfl, rfl, rfl⟩
  · exact ⟨rfl, rfl, rfl, rfl⟩
  · exact ⟨rfl, rfl, rfl, rfl⟩

/-- Settles O14: the engine commands one by one, and the write-back of every other. -/
theorem aluAndDmemWriters : Obligations.AluAndDmemWriters := by
  intro i s t h
  by_cases hi : i ∈ engineCommands
  · obtain rfl | rfl | rfl | rfl := engineCommands_cases hi
    · exact ⟨fun _ => (execInit_kept h).1, fun _ => (execInit_kept h).2⟩
    · exact ⟨fun _ => execProcessHop_kept h, fun hne => absurd rfl hne⟩
    · exact ⟨fun _ => (execReset_kept h).1, fun _ => (execReset_kept h).2⟩
    · exact ⟨fun _ => (execFree_kept h).1, fun _ => (execFree_kept h).2⟩
  · obtain ⟨r, sat, dz, he⟩ := exec_alu i hi s
    cases he.symm.trans h
    exact ⟨fun hin => absurd hin hi, fun _ => rfl⟩

/-! ### The post-init window byte by byte -/

/-- Every byte of an array that lists nothing and has default 0. -/
theorem elemByte_zero_nil (w n o : Nat) : elemByte n (0 : BitVec w) [] o = 0#8 := by
  simp [elemByte]

/-- MAXPOW, little-endian: the high byte is 0x7F, the others are 0xFF (10_state.md R54). -/
theorem elemByte_minDefault_nil (o : Nat) :
    elemByte 4 minDefault [] o = if o % 4 = 3 then 0x7F#8 else 0xFF#8 := by
  have hlt : o % 4 < 4 := Nat.mod_lt o (by norm_num)
  rw [elemByte, sparseGet_nil]
  interval_cases o % 4 <;> decide

theorem windowByte_postInit (p : Params) (o : Nat) :
    windowByte p postInit o =
      if 24 * p.maxChannels + 6 * (p.maxChannels * p.maxFrameLen) ≤ o ∧
          o < 24 * p.maxChannels + 6 * (p.maxChannels * p.maxFrameLen) + 4 * (p.maxChannels * p.maxBins) then
        (if (o - (24 * p.maxChannels + 6 * (p.maxChannels * p.maxFrameLen))) % 4 = 3 then 0x7F#8 else 0xFF#8)
      else 0#8 := by
  simp only [windowByte, postInit, elemByte_zero_nil, elemByte_minDefault_nil]
  by_cases hlow : o < 24 * p.maxChannels + 6 * (p.maxChannels * p.maxFrameLen)
  · rw [if_neg (show ¬ (_ ≤ o ∧ _) from fun h => absurd h.1 (not_le.mpr hlow))]
    simp only [if_pos hlow, ite_self]
  · have hbelow : ¬ o < 4 * p.maxChannels ∧ ¬ o < 8 * p.maxChannels ∧ ¬ o < 12 * p.maxChannels ∧
        ¬ o < 16 * p.maxChannels ∧ ¬ o < 24 * p.maxChannels ∧
        ¬ o < 24 * p.maxChannels + 2 * (p.maxChannels * p.maxFrameLen) := by omega
    simp only [hbelow, hlow, not_lt.mp hlow, if_false, true_and, ite_self]

theorem win_of_execInit_ok {s t : State} (h : execInit s = .next t) (hok : t.lastStatus = .ok) : t.win = postInit := by
  obtain ⟨c, hc, rfl⟩ | ⟨-, -, -, -, -, rfl⟩ := execInit_cases s t h
  · exact absurd hok hc
  · rfl

theorem win_of_execReset_ok {s t : State} (h : execReset s = .next t) (hok : t.lastStatus = .ok) :
    t.win = postInit := by
  obtain ⟨-, rfl⟩ | ⟨-, rfl⟩ := execReset_cases s t h
  · cases hok
  · rfl

/-- Settles O19: the bytes of the arrays that list nothing, and the window of both commands that write it so. -/
theorem postInitWindowBytes : Obligations.PostInitWindowBytes :=
  ⟨windowByte_postInit, fun _ _ h hok => h.elim (fun hi => win_of_execInit_ok hi hok)
    fun hr => win_of_execReset_ok hr hok⟩

/-! ### Fields of ACT without effect -/

/-- `s` with other values of the fields of ACT that no hop reads (10_state.md R27, R32). -/
def State.withUnused (bf aec : Bool) (fs : Word) (s : State) : State :=
  { s with act := { s.act with bfEn := bf, aecEn := aec, sampleRate := fs } }

section Unused

variable (bf aec : Bool) (fs : Word) (s : State)

/-- No stage of a channel reads the three fields, nor do OUT, its length and FFT_SHIFT. -/
theorem hopEffect_withUnused : hopEffect (s.withUnused bf aec fs) = (hopEffect s).withUnused bf aec fs := rfl

theorem hopRaced_withUnused : hopRaced (s.withUnused bf aec fs) = (hopRaced s).withUnused bf aec fs := rfl

/-- The checks of a hop do not read the fields either (46_synthesis_hop.md R300), so each outcome carries them along. -/
theorem execProcessHop_withUnused :
    execProcessHop (s.withUnused bf aec fs) = onNext (State.withUnused bf aec fs) (execProcessHop s) := by
  simp only [execProcessHop, apply_ite (onNext _), hopEffect_withUnused, hopRaced_withUnused]
  rfl

end Unused

/-- A hop keeps ACT. -/
theorem withUnused_of_execProcessHop (bf aec : Bool) (fs : Word) {s t : State} (h : execProcessHop s = .next t) :
    t.withUnused bf aec fs = { t with act := { s.act with bfEn := bf, aecEn := aec, sampleRate := fs } } := by
  obtain ⟨c, -, rfl⟩ | ⟨-, -, ⟨-, rfl⟩ | ⟨-, rfl⟩⟩ := execProcessHop_cases s t h
  · rfl
  · rfl
  · rfl

/-- Settles O28: a hop carries the values along, in the ACT it keeps. -/
theorem unusedFlagsDoNotMatter : Obligations.UnusedFlagsDoNotMatter := by
  intro s bf aec fs
  refine (execProcessHop_withUnused bf aec fs s).trans ?_
  change _ = onNext _ (execProcessHop s)
  cases h : execProcessHop s with
  | next t => rw [onNext_next, onNext_next, withUnused_of_execProcessHop bf aec fs h]
  | fault f => rfl
  | refused f => rfl

end Sys2Proof.Machine
end

section
/-! PROOFS. Constant frames through the overlap-add (46_synthesis_hop.md R291 to R293, R298; 10_state.md R29): the
accumulator after any number of hops, element by element, and the output from the hop on at which all frames overlap. -/

namespace Sys2Proof.Machine

/-! ### The accumulator -/

/-- Element `i` of a frame of `f` is still to be moved out by `(f - 1 - i) / h` hops: so many of the frames already summed
reach it (46_synthesis_hop.md R293). -/
def framesWaiting (f h i : Nat) : Nat := (f - 1 - i) / h

/-- The accumulator of `f` elements after `n` hops of frames that are each the constant `c`. -/
def constantOla (f h : Nat) (c : Int) (n : Nat) : List Int :=
  (List.range f).map fun i => c * (min n (framesWaiting f h i) : Nat)

theorem constantOla_zero (f h : Nat) (c : Int) : constantOla f h c 0 = List.replicate f 0 := by
  simp [constantOla, List.map_const']

section Frame

variable {f h : Nat} {c : Int} (hf : f ≤ 32768) (hh : 1 ≤ h) (hc : -32768 ≤ c ∧ c ≤ 32767)

/-- A hop takes each element `h` places down, so one more frame has been summed there. -/
theorem framesWaiting_add (hh : 1 ≤ h) {i : Nat} (hi : i + h < f) :
    framesWaiting f h (i + h) + 1 = framesWaiting f h i := by
  rw [framesWaiting, framesWaiting, ← Nat.add_div_right _ hh]
  congr 1
  omega

theorem framesWaiting_last {i : Nat} (hi : f ≤ i + h) (hif : i < f) : framesWaiting f h i = 0 :=
  Nat.div_eq_of_lt (by omega)

/-- A multiple of an int16 constant by a count of at most 32769 is an int32: storing it loses nothing (R291). -/
theorem stored32_multiple (hc : -32768 ≤ c ∧ c ≤ 32767) {k : Nat} (hk : k ≤ 32769) : stored32 (c * k) = c * k := by
  have hlo : -32768 * (k : Int) ≤ c * k := Int.mul_le_mul_of_nonneg_right hc.1 (by omega)
  have hhi : c * (k : Int) ≤ 32767 * k := Int.mul_le_mul_of_nonneg_right hc.2 (by omega)
  exact toInt_ofInt32 _ (by omega) (by omega)

include hf hc in
/-- The sums of a hop: each element has one more frame. -/
theorem olaAdd_constantOla (n : Nat) :
    olaAdd (constantOla f h c n) (List.replicate f c) =
      (List.range f).map fun i => c * (min n (framesWaiting f h i) + 1 : Nat) := by
  refine List.ext_getElem (by simp [constantOla]) fun i h1 h2 => ?_
  have hi : i < f := by simpa using h2
  have hle : framesWaiting f h i ≤ f := (Nat.div_le_self _ _).trans (by omega)
  have hsum : c * (min n (framesWaiting f h i) : Nat) + c = c * (min n (framesWaiting f h i) + 1 : Nat) := by
    push_cast
    ring
  simp only [olaAdd, constantOla, List.getElem_zipWith, List.getElem_map, List.getElem_range, List.getElem_replicate,
    hsum]
  exact stored32_multiple hc (by omega)

include hf hh hc in
theorem olaStep_constantOla (hhf : h ≤ f) (sym : Bool) (nsh n : Nat) :
    (olaStep sym h nsh (constantOla f h c n) (List.replicate f c)).2 = constantOla f h c (n + 1) := by
  simp only [olaStep, olaAdd_constantOla hf hc]
  refine List.ext_getElem (by simp [constantOla]; omega) fun i h1 h2 => ?_
  have hi : i < f := by simpa [constantOla] using h2
  obtain hlow | hhigh := Nat.lt_or_ge (i + h) f
  · have hwait := framesWaiting_add hh hlow
    rw [List.getElem_append_left (by simp; omega)]
    simp only [List.getElem_drop, List.getElem_map, List.getElem_range, constantOla, Nat.add_comm h i, ← hwait,
      Nat.add_min_add_right]
  · rw [List.getElem_append_right (by simp; omega)]
    simp only [List.getElem_replicate, constantOla, List.getElem_map, List.getElem_range,
      framesWaiting_last hhigh hi, Nat.min_zero, Nat.cast_zero, mul_zero]

include hf hh hc in
theorem olaRun_constant (hhf : h ≤ f) (sym : Bool) (nsh n : Nat) :
    olaRun sym h nsh (List.replicate f c) (List.replicate f 0) n = constantOla f h c n := by
  induction n with
  | zero => exact (constantOla_zero f h c).symm
  | succ n ih => rw [olaRun, ih, olaStep_constantOla hf hh hc hhf]

/-! ### The output -/

/-- The first `h` elements of a frame of `r` hops are reached by `r` frames, counting the new one. -/
theorem framesWaiting_first (hh : 1 ≤ h) {r i : Nat} (hr : f = r * h) (hrpos : 1 ≤ r) (hi : i < h) :
    framesWaiting f h i + 1 = r := by
  obtain ⟨q, rfl⟩ := Nat.exists_eq_add_of_le' hrpos
  have hf' : f - 1 - i = q * h + (h - 1 - i) := by
    rw [hr, Nat.succ_mul]
    omega
  rw [framesWaiting, hf', Nat.mul_comm, Nat.mul_add_div hh, Nat.div_eq_of_lt (by omega), Nat.add_zero]

include hf hh hc in
/-- From hop `r - 1` on every output sample is the sum of `r` frames, shifted and saturated (46_synthesis_hop.md R293). -/
theorem olaStep_constant_output {r : Nat} (hr : f = r * h) (hrpos : 1 ≤ r) (sym : Bool) (nsh : Nat) {n : Nat}
    (hn : r ≤ n + 1) :
    (olaStep sym h nsh (constantOla f h c n) (List.replicate f c)).1 =
      List.replicate h (sat16 sym (asr (c * r) nsh)) := by
  have hhf : h ≤ f := hr ▸ Nat.le_mul_of_pos_left h hrpos
  simp only [olaStep, olaAdd_constantOla hf hc]
  refine List.ext_getElem (by simp; omega) fun i h1 h2 => ?_
  have hi : i < h := by simpa using h2
  have hwait := framesWaiting_first hh hr hrpos hi
  have hcount : min n (framesWaiting f h i) + 1 = r := by omega
  simp only [List.getElem_map, List.getElem_take, List.getElem_range, List.getElem_replicate, hcount]

end Frame

/-- With OLA_NORM the shift divides by the overlap ratio, a power of two (46_synthesis_hop.md R292). -/
theorem asr_mul_log2 (c : Int) {r : Nat} (hr : 2 ^ r.log2 = r) : asr (c * r) r.log2 = c := by
  have hpos : (r : Int) ≠ 0 := by
    rw [← hr]
    positivity
  rw [asr, hr, Int.mul_ediv_cancel c hpos]

/-- Settles O38: from the hop on at which all R frames overlap, each sample is R times the constant before the
normalisation shift. -/
theorem constantFramesReproduced : Obligations.ConstantFramesReproduced := by
  refine ⟨by decide, fun p a c n hp hframe hlo hhi hn => ?_⟩
  obtain ⟨⟨L, -, hL⟩, hmax, hH, hdvd, h2, -⟩ := (frameOk_iff _ _ _ _).mp hframe
  obtain ⟨k, hk, hkL⟩ := exists_pow_of_dvd_two_pow L a.H (hL ▸ hdvd) (hL ▸ h2)
  have hF : a.F ≤ 32768 := hmax.trans hp.2.1
  have hc : -32768 ≤ c ∧ c ≤ 32767 := ⟨by split at hlo <;> omega, hhi⟩
  have hR : a.R = 2 ^ (L - k) := by
    rw [Act.R, hL, hk, Nat.pow_div hkL.le (by norm_num)]
  have hFR : a.F = a.R * a.H := (Nat.div_mul_cancel hdvd).symm
  have hRpos : 1 ≤ a.R := hR ▸ Nat.one_le_two_pow
  rw [olaRun_constant hF hH hc (by omega), olaStep_constant_output hF hH hc hFR hRpos _ _ hn]
  congr 1
  rw [Act.nsh]
  split
  · rw [asr_mul_log2 c (by rw [hR, Nat.log2_two_pow]), sat16_eq_boundedQ15, boundedQ15, bounded,
      if_neg (not_lt.mpr hlo), if_neg (not_lt.mpr hhi)]
  · rw [asr_eq_div, pow_zero, Int.ediv_one, mul_comm, sat16_eq_boundedQ15]
    rfl

end Sys2Proof.Machine
end

section
/-! PROOFS. The register window (10_state.md R22 to R49, R58, R59): which bits a register holds, what a write of it does
to every register, STATUS and the flags as numbers, and the sizing registers. -/

namespace Sys2Proof.Machine

/-! ### Masks -/

/-- The low `n` bits of a word. -/
def lowMask (n : Nat) : Word := BitVec.ofNat 32 (2 ^ n - 1)

/-- A field of the low `n` bits, read back, is what the mask keeps. -/
theorem setWidth_setWidth_eq_and (v : Word) (n : Nat) : (v.setWidth n).setWidth 32 = v &&& lowMask n := by
  refine BitVec.eq_of_getLsbD_eq fun i hi => ?_
  have hmask : (lowMask n).getLsbD i = decide (i < n) := by
    rw [lowMask, BitVec.getLsbD_ofNat, Nat.testBit_two_pow_sub_one, decide_eq_true hi, Bool.true_and]
  rw [BitVec.getLsbD_setWidth, BitVec.getLsbD_setWidth, BitVec.getLsbD_and, hmask, decide_eq_true hi, Bool.true_and,
    Bool.and_comm]

theorem setWidth_and_lowMask (v : Word) {n : Nat} (hn : n ≤ 32) : (v &&& lowMask n).setWidth n = v.setWidth n := by
  rw [← setWidth_setWidth_eq_and, BitVec.setWidth_setWidth_of_le _ hn, BitVec.setWidth_eq]

theorem field_and_lowMask {n : Nat} (x : BitVec n) (hn : n ≤ 32) : x.setWidth 32 &&& lowMask n = x.setWidth 32 := by
  rw [← setWidth_setWidth_eq_and, BitVec.setWidth_setWidth_of_le _ hn, BitVec.setWidth_eq]

/-- The bits of a base register that are not hardwired 0 (10_state.md R38). -/
def baseMask : Word := 0xFFFFFFFC#32

theorem baseMask_getLsbD (i : Nat) : baseMask.getLsbD i = decide (2 ≤ i ∧ i < 32) := by
  obtain hi | hi := Nat.lt_or_ge i 32
  · interval_cases i <;> decide
  · simp [BitVec.getLsbD_of_ge baseMask i hi, Nat.not_lt.mpr hi]

theorem baseValue_baseBits (v : Word) : baseValue (baseBits v) = v &&& baseMask := by
  refine BitVec.eq_of_getLsbD_eq fun i hi => ?_
  rw [baseValue, baseBits, BitVec.getLsbD_append, BitVec.getLsbD_and, baseMask_getLsbD]
  by_cases h2 : i < 2
  · simp [h2, show ¬ 2 ≤ i by omega]
  · simp [h2, hi, show 2 ≤ i by omega, show i - 2 < 30 by omega, show 2 + (i - 2) = i by omega]

theorem baseBits_baseValue (b : BitVec 30) : baseBits (baseValue b) = b := by
  refine BitVec.eq_of_getLsbD_eq fun i hi => ?_
  rw [baseValue, baseBits, BitVec.getLsbD_extractLsb', BitVec.getLsbD_append, if_neg (by omega), Nat.add_sub_cancel_left,
    decide_eq_true hi, Bool.true_and]

theorem baseBits_and_baseMask (v : Word) : baseBits (v &&& baseMask) = baseBits v := by
  rw [← baseValue_baseBits, baseBits_baseValue]

theorem baseValue_and_baseMask (b : BitVec 30) : baseValue b &&& baseMask = baseValue b := by
  rw [← baseValue_baseBits, baseBits_baseValue]

theorem and_fullMask (v : Word) : v &&& 0xFFFFFFFF#32 = v := BitVec.and_allOnes

/-- A number of two parts, high part first. -/
theorem toNat_append_eq {m n : Nat} (x : BitVec m) (y : BitVec n) : (x ++ y).toNat = x.toNat * 2 ^ n + y.toNat := by
  rw [BitVec.toNat_append, ← Nat.shiftLeft_add_eq_or_of_lt y.isLt, Nat.shiftLeft_eq]

/-! ### STATUS and the flags -/

theorem EState.bits_toNat (e : EState) : e.bits.toNat = e.number := by cases e <;> rfl

theorem StatusCode.bits_toNat (c : StatusCode) : c.bits.toNat = c.number := by cases c <;> rfl

theorem busy_toNat (s : State) : s.busy.toNat = if s.run = none then 0 else 1 := by
  cases h : s.run <;> simp [State.busy, h]

theorem statusWord_toNat (s : State) : s.statusWord.toNat = s.statusNumber := by
  simp only [State.statusWord, State.statusNumber, toNat_append_eq, BitVec.toNat_ofBool, EState.bits_toNat,
    StatusCode.bits_toNat, busy_toNat, BitVec.toNat_ofNat]
  cases s.ovr <;> simp <;> omega

theorem flagsWord_toNat (s : State) :
    s.flagsWord.toNat = (if s.aluSat then 1 else 0) + (if s.aluDz then 2 else 0) := by
  simp only [State.flagsWord, toNat_append_eq, BitVec.toNat_ofBool]
  cases s.aluSat <;> cases s.aluDz <;> rfl

/-- STATUS has nothing in bit 3 and from bit 9 on (10_state.md R24). -/
theorem statusWord_and (s : State) : s.statusWord &&& 0x000001F7#32 = s.statusWord := by
  refine BitVec.eq_of_getLsbD_eq fun i hi => ?_
  rw [BitVec.getLsbD_and]
  by_cases hbit : i = 3 ∨ 9 ≤ i
  · have hclear : s.statusWord.getLsbD i = false := by
      simp only [State.statusWord, BitVec.getLsbD_append]
      obtain rfl | h9 := hbit
      · simp
      · simp [show ¬ i < 1 by omega, show ¬ i - 1 < 2 by omega, show ¬ i - 1 - 2 < 1 by omega,
          show ¬ i - 1 - 2 - 1 < 4 by omega, show ¬ i - 1 - 2 - 1 - 4 < 1 by omega]
    rw [hclear, Bool.false_and]
  · have hset : (0x000001F7#32).getLsbD i = true := by
      have hall : ∀ j < 9, j ≠ 3 → (0x000001F7#32).getLsbD j = true := by decide
      exact hall i (by omega) (by omega)
    rw [hset, Bool.and_true]

theorem flagsWord_and (s : State) : s.flagsWord &&& 0x00000003#32 = s.flagsWord := by
  cases hs : s.aluSat <;> cases hd : s.aluDz <;> rw [State.flagsWord, hs, hd] <;> rfl

theorem versionWord_and (p : Params) : versionWord p &&& 0x00FFFFFF#32 = versionWord p := by
  have hhigh : versionWord p = (p.versionMajor ++ p.versionMinor ++ p.versionPatch).setWidth 32 := by
    refine BitVec.eq_of_toNat_eq ?_
    simp only [versionWord, toNat_append_eq, BitVec.toNat_setWidth]
    have h1 := p.versionMajor.isLt
    have h2 := p.versionMinor.isLt
    have h3 := p.versionPatch.isLt
    simp
    omega
  rw [hhigh]
  exact field_and_lowMask _ (by norm_num)

/-! ### The bits a register holds -/

/-- A register reads no bit it does not define (10_state.md R58). -/
theorem readReg_and_definedBits (s : State) (off : Nat) : s.readReg off &&& definedBits off = s.readReg off := by
  unfold State.readReg
  split
  case h_1 => exact versionWord_and _
  case h_2 => exact statusWord_and s
  case h_30 => exact flagsWord_and s
  case h_31 => exact BitVec.zero_and
  case h_3 | h_5 | h_8 | h_9 | h_10 | h_11 | h_21 => exact field_and_lowMask _ (by norm_num)
  case h_12 | h_13 | h_14 | h_15 | h_17 | h_18 => exact baseValue_and_baseMask _
  all_goals exact and_fullMask _

/-- A register takes the bits it defines and drops the others; a write where none are defined changes nothing
(10_state.md R22, R58). -/
theorem regsWrite_definedBits (r : Regs) (off : Nat) (v : Word) :
    r.write off (v &&& definedBits off) = r.write off v ∧ (definedBits off = 0 → r.write off v = r) := by
  unfold Regs.write
  split
  case h_23 => exact ⟨rfl, fun _ => rfl⟩
  all_goals refine ⟨?_, fun h => absurd h (by decide)⟩; congr 1
  case h_1 | h_3 | h_6 | h_7 | h_8 | h_9 => exact setWidth_and_lowMask v (by norm_num)
  case h_10 | h_11 | h_12 | h_13 | h_15 | h_16 => exact baseBits_and_baseMask v
  all_goals exact and_fullMask v

/-! ### Writes by register -/

theorem writeReg_status (s : State) (v : Word) : State.writeReg 0x004 v s = { s with ovr := s.ovr && !v.getLsbD 8 } := by
  change State.writeStatus v s = _
  unfold State.writeStatus
  cases hb : v.getLsbD 8
  · simp
  · simp

theorem writeReg_cmd (s : State) (v : Word) : State.writeReg 0x008 v s = State.writeCmd v s := rfl

theorem writeReg_regs (s : State) (v : Word) {off : Nat} (h4 : off ≠ 0x004) (h8 : off ≠ 0x008) :
    State.writeReg off v s = { s with regs := s.regs.write off v } := by
  rw [State.writeReg, if_neg h4, if_neg h8]

theorem writeReg_and_definedBits (s : State) (off : Nat) (v : Word) :
    State.writeReg off v s = State.writeReg off (v &&& definedBits off) s := by
  by_cases h4 : off = 0x004
  · subst h4
    have hbit : (v &&& definedBits 0x004).getLsbD 8 = v.getLsbD 8 := by
      rw [BitVec.getLsbD_and]
      exact Bool.and_true _
    rw [writeReg_status, writeReg_status, hbit]
  · by_cases h8 : off = 0x008
    · subst h8
      rw [show v &&& definedBits 0x008 = v from and_fullMask v]
    · rw [writeReg_regs s v h4 h8, writeReg_regs s _ h4 h8, (regsWrite_definedBits s.regs off v).1]

/-- An offset that defines no bits reads 0 (10_state.md R58). -/
theorem readReg_of_undefined (s : State) {off : Nat} (h : definedBits off = 0) : s.readReg off = 0#32 := by
  rw [← readReg_and_definedBits, h]
  exact BitVec.and_zero

/-- A write of an offset that defines no bits changes nothing: STATUS and CMD define some (10_state.md R58). -/
theorem writeReg_of_undefined (s : State) {off : Nat} (v : Word) (h : definedBits off = 0) :
    State.writeReg off v s = s := by
  have h4 : off ≠ 0x004 := by
    rintro rfl
    exact absurd h (by decide)
  have h8 : off ≠ 0x008 := by
    rintro rfl
    exact absurd h (by decide)
  rw [writeReg_regs s v h4 h8, (regsWrite_definedBits s.regs off v).2 h]

/-- Settles O52: a register reads and takes no bit it does not define. -/
theorem reservedBitsReadZero : Obligations.ReservedBitsReadZero := by
  refine ⟨fun s off => ?_, writeReg_and_definedBits,
    fun s off v h => ⟨readReg_of_undefined s h, writeReg_of_undefined s v h⟩⟩
  rw [← readReg_and_definedBits, BitVec.and_assoc, BitVec.and_not_self]
  exact BitVec.and_zero

/-! ### The listed offsets -/

/-- The read-write registers of fewer than 32 bits from bit 0 on. -/
def lowOffsets : List Nat := [0x00C, 0x014, 0x020, 0x024, 0x028, 0x02C]

/-- The base registers (10_state.md R38). -/
def baseOffsets : List Nat := [0x030, 0x034, 0x038, 0x03C, 0x044, 0x048]

/-- The read-write registers of 32 bits. -/
def fullOffsets : List Nat := [0x010, 0x018, 0x01C, 0x040, 0x060, 0x064, 0x068, 0x06C, 0x070, 0x074]

theorem readWriteOffsets_cases {off : Nat} (h : off ∈ readWriteOffsets) :
    off ∈ lowOffsets ∨ off ∈ baseOffsets ∨ off ∈ fullOffsets := by
  have hall : ∀ o ∈ readWriteOffsets, o ∈ lowOffsets ∨ o ∈ baseOffsets ∨ o ∈ fullOffsets := by decide
  exact hall off h

/-! ### A register after a write -/

theorem writeReg_readWrite (s : State) (v : Word) {off : Nat} (h : off ∈ readWriteOffsets) :
    State.writeReg off v s = { s with regs := s.regs.write off v } := by
  refine writeReg_regs s v ?_ ?_
  · rintro rfl
    exact absurd h (by decide)
  · rintro rfl
    exact absurd h (by decide)

/-- A read-write register reads the bits of the value that it defines. -/
theorem readReg_writeReg_same (s : State) (v : Word) {off : Nat} (h : off ∈ readWriteOffsets) :
    (State.writeReg off v s).readReg off = v &&& definedBits off := by
  rw [writeReg_readWrite s v h]
  obtain h | h | h := readWriteOffsets_cases h
  · simp only [lowOffsets, List.mem_cons, List.not_mem_nil, or_false] at h
    obtain rfl | rfl | rfl | rfl | rfl | rfl := h <;> exact setWidth_setWidth_eq_and v _
  · simp only [baseOffsets, List.mem_cons, List.not_mem_nil, or_false] at h
    obtain rfl | rfl | rfl | rfl | rfl | rfl := h <;> exact baseValue_baseBits v
  · simp only [fullOffsets, List.mem_cons, List.not_mem_nil, or_false] at h
    obtain rfl | rfl | rfl | rfl | rfl | rfl | rfl | rfl | rfl | rfl := h <;> exact (and_fullMask v).symm

/-- A write field by field: each takes the value at its own offset and keeps its own at every other. -/
theorem regsWrite_eq_ite (r : Regs) (off : Nat) (v : Word) :
    r.write off v =
      {
        cfgCtrl := if off = 0x00C then v.setWidth 6 else r.cfgCtrl
        cfgFrame := if off = 0x010 then v else r.cfgFrame
        cfgChan := if off = 0x014 then v.setWidth 8 else r.cfgChan
        cfgFs := if off = 0x018 then v else r.cfgFs
        dcAlpha := if off = 0x01C then v else r.dcAlpha
        peAlpha := if off = 0x020 then v.setWidth 16 else r.peAlpha
        nsOversub := if off = 0x024 then v.setWidth 16 else r.nsOversub
        nsFloor := if off = 0x028 then v.setWidth 31 else r.nsFloor
        nsMintrack := if off = 0x02C then v.setWidth 16 else r.nsMintrack
        winBase := if off = 0x030 then baseBits v else r.winBase
        twcBase := if off = 0x034 then baseBits v else r.twcBase
        twsBase := if off = 0x038 then baseBits v else r.twsBase
        scratchBase := if off = 0x03C then baseBits v else r.scratchBase
        scratchSize := if off = 0x040 then v else r.scratchSize
        inBase := if off = 0x044 then baseBits v else r.inBase
        outBase := if off = 0x048 then baseBits v else r.outBase
        aluALo := if off = 0x060 then v else r.aluALo
        aluAHi := if off = 0x064 then v else r.aluAHi
        aluBLo := if off = 0x068 then v else r.aluBLo
        aluBHi := if off = 0x06C then v else r.aluBHi
        aluC := if off = 0x070 then v else r.aluC
        aluD := if off = 0x074 then v else r.aluD } := by
  unfold Regs.write
  split
  case h_23 =>
    simp only [imp_false] at *
    simp only [*, if_false]
  all_goals rfl

/-- Each register reads a field of its own: a write of another one is not seen, but in SCRATCH_BYTES, which is computed
from three (10_state.md R41). -/
theorem readReg_regsWrite_other (s : State) (v : Word) {off off' : Nat} (hne : off' ≠ off) (hcomputed : off' ≠ 0x050) :
    State.readReg { s with regs := s.regs.write off v } off' = s.readReg off' := by
  rw [regsWrite_eq_ite]
  unfold State.readReg
  split
  case h_20 => exact absurd rfl hcomputed
  case h_1 | h_2 | h_19 | h_21 | h_28 | h_29 | h_30 | h_31 => rfl
  all_goals simp only [if_neg hne.symm]

/-! ### The registers over the bus -/

theorem busWrite_register (s : State) (v : Word) {off : Nat} (hoff : off < 0x080000) (hal : off % 4 = 0) :
    busWrite (s.params.blockBase + off) .word v s = (State.writeReg off v s).respond false 0 :=
  busWrite_legal s _ .word v _ (busTarget_register s.params off hoff)
    ((accessLegal_register_iff off .word).mpr ⟨rfl, hal⟩)

theorem writeReg_readOnly (s : State) (v : Word) {off : Nat} (h : off ∈ readOnlyOffsets) :
    State.writeReg off v s = s := by
  simp only [readOnlyOffsets, List.mem_cons, List.not_mem_nil, or_false] at h
  obtain rfl | rfl | rfl | rfl | rfl | rfl | rfl := h <;> rfl

/-- Settles O53: a write of each register, STATUS and the flags as numbers, and the register window on the bus. -/
theorem registerWriteReadsBack : Obligations.RegisterWriteReadsBack := by
  refine ⟨fun s off off' v h => ⟨readReg_writeReg_same s v h, fun hne hcomputed => ?_⟩,
    fun s v => ⟨statusWord_toNat s, writeReg_status s v⟩,
    fun s => ⟨rfl, rfl, rfl, rfl, rfl, rfl, rfl, rfl, rfl, rfl, flagsWord_toNat s⟩,
    fun s off v h => writeReg_readOnly s v h,
    fun s off v hoff hal => ⟨fun hidle => busRead_register_idle s off hidle hoff hal, busWrite_register s v hoff hal⟩⟩
  rw [writeReg_readWrite s v h, readReg_regsWrite_other s v hne hcomputed]

/-! ### A write of CMD -/

theorem writeCmd_idle (s : State) (v : Word) (h : s.run = none) :
    s.writeCmd v =
      { s with
        run := some { word := v, snap := s.regs, raced := false, left := Config.cmdDuration s.draws }
        draws := s.draws + 1 } := by
  rw [State.writeCmd, busy_eq_false s h]
  rfl

theorem busy_eq_true (s : State) (h : s.run ≠ none) : s.busy = true := Option.isSome_iff_ne_none.mpr h

theorem writeCmd_running (s : State) (v : Word) (h : s.run ≠ none) : s.writeCmd v = { s with ovr := true } := by
  rw [State.writeCmd, busy_eq_true s h, if_pos rfl]

/-- Settles O50: the bus write of CMD, by whether a command runs. -/
theorem cmdWriteStartsOrOverruns : Obligations.CmdWriteStartsOrOverruns := by
  intro s v
  have hbus : busWrite (s.params.blockBase + 0x008) .word v s = (s.writeCmd v).respond false 0 :=
    busWrite_register s v (by norm_num) (by norm_num)
  refine ⟨fun hidle => ⟨⟨v, s.regs, false, Config.cmdDuration s.draws⟩, rfl, rfl, rfl, ?_⟩, fun hrun => ?_, rfl⟩
  · exact hbus.trans (congrArg (State.respond false 0) (writeCmd_idle s v hidle))
  · exact hbus.trans (congrArg (State.respond false 0) (writeCmd_running s v hrun))

/-! ### The sizing registers -/

/-- The scratch of the largest frame and channel count a register can hold is below 2^32 (10_state.md R41). -/
theorem scratchBytes_lt (r : Regs) : r.scratchBytes < 2 ^ 32 := by
  have hf := r.frameLen.isLt
  have hc := r.cfgChan.isLt
  have hgain : 4 * r.cfgChan.toNat * (r.frameLen.toNat / 2 + 1) ≤ 1020 * 32768 :=
    Nat.mul_le_mul (by omega) (by omega)
  rw [Regs.scratchBytes, scratchBytes]
  split <;> omega

theorem readReg_scratchBytes (s : State) : (s.readReg 0x050).toNat = s.scratchNeed := by
  rw [scratchNeed_eq]
  exact (BitVec.toNat_ofNat _ _).trans (Nat.mod_eq_of_lt (scratchBytes_lt s.regs))

theorem readReg_stateBytes (s : State) (hp : s.params.Legal) : (s.readReg 0x04C).toNat = s.params.stateBytes := by
  obtain ⟨-, -, -, -, -, -, -, -, -, hsize⟩ := hp
  exact (BitVec.toNat_ofNat _ _).trans (Nat.mod_eq_of_lt (by omega))

/-- Settles O54: neither sum reaches 2^32. -/
theorem sizingRegistersAreExact : Obligations.SizingRegistersAreExact := fun s =>
  ⟨readReg_scratchBytes s, readReg_stateBytes s, by decide⟩

/-! ### Power-on reset -/

/-- A register reads parameters, host registers and engine fields that power-on reset sets (10_state.md R59): ACT, the
window, DMEM and what is pending are not seen. -/
theorem readReg_powerOnReset (s : State) (off : Nat) :
    (powerOnReset s).readReg off = (State.powerOn s.params).readReg off := rfl

theorem statusWord_powerOn (p : Params) : (State.powerOn p).statusWord = 0#32 :=
  BitVec.eq_of_toNat_eq (statusWord_toNat (State.powerOn p))

theorem flagsWord_powerOn (p : Params) : (State.powerOn p).flagsWord = 0#32 :=
  BitVec.eq_of_toNat_eq (flagsWord_toNat (State.powerOn p))

theorem baseValue_zero : baseValue 0 = 0#32 := by decide

theorem resetRegs_scratchBytes : resetRegs.scratchBytes = 0 := by decide

/-- Every register but VERSION, CFG_CTRL and STATE_BYTES is 0 after power-on reset (10_state.md R59). -/
theorem readReg_powerOn_zero (p : Params) {off : Nat} (hversion : off ≠ 0x000) (hctrl : off ≠ 0x00C)
    (hstate : off ≠ 0x04C) : (State.powerOn p).readReg off = 0#32 := by
  unfold State.readReg
  split
  case h_1 => exact absurd rfl hversion
  case h_2 => exact statusWord_powerOn p
  case h_3 => exact absurd rfl hctrl
  case h_12 | h_13 | h_14 | h_15 | h_17 | h_18 => exact baseValue_zero
  case h_19 => exact absurd rfl hstate
  case h_20 => exact congrArg (BitVec.ofNat 32) resetRegs_scratchBytes
  case h_30 => exact flagsWord_powerOn p
  all_goals rfl

/-- Settles O60: the registers of the power-on state, which a later reset sets again. -/
theorem powerOnResetValues : Obligations.PowerOnResetValues :=
  ⟨fun p => ⟨rfl, statusWord_powerOn p, rfl, rfl, fun _ hversion hctrl hstate => readReg_powerOn_zero p hversion hctrl hstate,
    rfl, rfl⟩,
    fun s => ⟨rfl, rfl, rfl, readReg_powerOnReset s⟩⟩

end Sys2Proof.Machine
end

section
/-! PROOFS. The state window over the bus (10_state.md R53, 20_memory.md R60, R64, R65) with the engine idle, and what a
host reads while a command runs (70_reset_and_hazards.md R345). -/

namespace Sys2Proof.Machine

/-! ### Bytes as numbers -/

theorem bytesLE_lt (f : Nat → Byte) (o n : Nat) : bytesLE f o n < 256 ^ n := by
  induction n generalizing o with
  | zero => simp [bytesLE]
  | succ n ih =>
    have hb := (f o).isLt
    have hrest := ih (o + 1)
    rw [bytesLE, Nat.pow_succ]
    omega

/-- Byte `k` of a little-endian number. -/
theorem bytesLE_byte (f : Nat → Byte) (o n k : Nat) (hk : k < n) :
    bytesLE f o n / 256 ^ k % 256 = (f (o + k)).toNat := by
  induction k generalizing o n with
  | zero =>
    obtain ⟨m, rfl⟩ := Nat.exists_eq_add_of_le' hk
    have hb := (f o).isLt
    rw [bytesLE, Nat.pow_zero, Nat.div_one, Nat.add_mul_mod_self_left, Nat.mod_eq_of_lt hb, Nat.add_zero]
  | succ k ih =>
    obtain ⟨m, rfl⟩ := Nat.exists_eq_add_of_le' (Nat.one_le_of_lt hk)
    have hb := (f o).isLt
    rw [bytesLE, Nat.pow_succ', ← Nat.div_div_eq_div_mul, Nat.add_mul_div_left _ _ (by norm_num),
      Nat.div_eq_of_lt hb, Nat.zero_add, ih (o + 1) m (by omega), Nat.add_assoc, Nat.add_comm 1 k]

/-- The number of the bytes `i .. i + n - 1` of an element. -/
theorem bytesLE_of_element {w : Nat} {f : Nat → Byte} (x : BitVec w) (o i n : Nat)
    (h : ∀ k, k < n → f (o + k) = x.extractLsb' (8 * (i + k)) 8) : bytesLE f o n = x.toNat / 256 ^ i % 256 ^ n := by
  induction n generalizing o i with
  | zero => simp [bytesLE, Nat.mod_one]
  | succ n ih =>
    have hrest : bytesLE f (o + 1) n = x.toNat / 256 ^ (i + 1) % 256 ^ n := ih (o + 1) (i + 1) fun k hk => by
      rw [Nat.add_assoc, Nat.add_assoc, Nat.add_comm 1 k]
      exact h (k + 1) (by omega)
    have hfirst : (f o).toNat = x.toNat / 256 ^ i % 256 := by
      have h0 : f o = x.extractLsb' (8 * i) 8 := h 0 (Nat.succ_pos n)
      rw [h0, BitVec.extractLsb'_toNat, Nat.shiftRight_eq_div_pow, two_pow_eight_mul]
    rw [bytesLE, hfirst, hrest, Nat.pow_succ' (n := n), Nat.mod_mul, Nat.div_div_eq_div_mul, ← Nat.pow_succ]

/-! ### The bytes of the window -/

/-- STATE_BYTES is the end of the nine arrays (10_state.md R40, R53). -/
theorem stateBytes_eq_layout (p : Params) :
    p.stateBytes = 24 * p.maxChannels + 6 * (p.maxChannels * p.maxFrameLen) + 8 * (p.maxChannels * p.maxBins) := by
  rw [Params.stateBytes, Params.maxBins]
  ring

theorem windowByte_beyond (p : Params) (w : Window) {o : Nat} (h : p.stateBytes ≤ o) : windowByte p w o = 0#8 := by
  rw [stateBytes_eq_layout] at h
  simp only [windowByte]
  rw [if_neg (by omega), if_neg (by omega), if_neg (by omega), if_neg (by omega), if_neg (by omega),
    if_neg (by omega), if_neg (by omega), if_neg (by omega), if_neg (by omega)]

theorem hostWindowByte_idle (s : State) (h : s.run = none) : hostWindowByte s = windowByte s.params s.win := by
  funext o
  rw [hostWindowByte, busy_eq_false s h]
  split
  next hbeyond => exact (windowByte_beyond _ _ hbeyond).symm
  next => rfl

/-- Byte `k` of element `j` of an array (20_memory.md R64). -/
theorem elemByte_element {w : Nat} (n : Nat) (d : BitVec w) (m : Sparse w) (j k : Nat) (hk : k < n) :
    elemByte n d m (n * j + k) = (sparseGet d m j).extractLsb' (8 * k) 8 := by
  rw [elemByte, Nat.mul_add_div (by omega), Nat.div_eq_of_lt hk, Nat.mul_add_mod, Nat.mod_eq_of_lt hk, Nat.add_zero]

section Layout

variable (p : Params) (w : Window) {o : Nat}

theorem windowByte_dcX (h : o < 4 * p.maxChannels) : windowByte p w o = elemByte 4 0 w.dcX o := if_pos h

theorem windowByte_dcY (h : o < 4 * p.maxChannels) :
    windowByte p w (4 * p.maxChannels + o) = elemByte 4 0 w.dcY o := by
  simp only [windowByte]
  rw [if_neg (by omega), if_pos (by omega), Nat.add_sub_cancel_left]

theorem windowByte_peX (h : o < 4 * p.maxChannels) :
    windowByte p w (8 * p.maxChannels + o) = elemByte 4 0 w.peX o := by
  simp only [windowByte]
  rw [if_neg (by omega), if_neg (by omega), if_pos (by omega), Nat.add_sub_cancel_left]

theorem windowByte_nsCnt (h : o < 4 * p.maxChannels) :
    windowByte p w (12 * p.maxChannels + o) = elemByte 4 0 w.nsCnt o := by
  simp only [windowByte]
  rw [if_neg (by omega), if_neg (by omega), if_neg (by omega), if_pos (by omega), Nat.add_sub_cancel_left]

theorem windowByte_nsTpa (h : o < 8 * p.maxChannels) :
    windowByte p w (16 * p.maxChannels + o) = elemByte 8 0 w.nsTpa o := by
  simp only [windowByte]
  rw [if_neg (by omega), if_neg (by omega), if_neg (by omega), if_neg (by omega), if_pos (by omega),
    Nat.add_sub_cancel_left]

theorem windowByte_buf (h : o < 2 * (p.maxChannels * p.maxFrameLen)) :
    windowByte p w (24 * p.maxChannels + o) = elemByte 2 0 w.buf o := by
  simp only [windowByte]
  rw [if_neg (by omega), if_neg (by omega), if_neg (by omega), if_neg (by omega), if_neg (by omega), if_pos (by omega),
    Nat.add_sub_cancel_left]

theorem windowByte_ola (h : o < 4 * (p.maxChannels * p.maxFrameLen)) :
    windowByte p w (24 * p.maxChannels + 2 * (p.maxChannels * p.maxFrameLen) + o) = elemByte 4 0 w.ola o := by
  simp only [windowByte]
  rw [if_neg (by omega), if_neg (by omega), if_neg (by omega), if_neg (by omega), if_neg (by omega), if_neg (by omega),
    if_pos (by omega), Nat.add_sub_cancel_left]

theorem windowByte_min (h : o < 4 * (p.maxChannels * p.maxBins)) :
    windowByte p w (24 * p.maxChannels + 6 * (p.maxChannels * p.maxFrameLen) + o) = elemByte 4 minDefault w.min o := by
  simp only [windowByte]
  rw [if_neg (by omega), if_neg (by omega), if_neg (by omega), if_neg (by omega), if_neg (by omega), if_neg (by omega),
    if_neg (by omega), if_pos (by omega), Nat.add_sub_cancel_left]

theorem windowByte_est (h : o < 4 * (p.maxChannels * p.maxBins)) :
    windowByte p w (24 * p.maxChannels + 6 * (p.maxChannels * p.maxFrameLen) + 4 * (p.maxChannels * p.maxBins) + o) =
      elemByte 4 0 w.est o := by
  simp only [windowByte]
  rw [if_neg (by omega), if_neg (by omega), if_neg (by omega), if_neg (by omega), if_neg (by omega), if_neg (by omega),
    if_neg (by omega), if_neg (by omega), if_pos (by omega), Nat.add_sub_cancel_left]

end Layout

/-! ### The window over the bus, with the engine idle -/

/-- The host's read of `size` at an offset of the state window answers `v`, and changes only the response. -/
def WindowReads (s : State) (o : Nat) (size : AccessSize) (v : Word) : Prop :=
  busRead (s.params.blockBase + 0x080000 + o) size s = s.respond false v

section Reads

variable {s : State} (hidle : s.run = none) {o : Nat}
include hidle

theorem windowReads_bytes {size : AccessSize} (ho : o < 0x080000) (hal : o % size.bytes = 0) :
    WindowReads s o size (BitVec.ofNat 32 (bytesLE (windowByte s.params s.win) o size.bytes)) := by
  rw [WindowReads, busRead_legal_idle s _ size _ hidle (busTarget_stateWindow s.params o ho)
    ((accessLegal_stateWindow_iff o size).mpr hal), busReadData, hostWindowByte_idle s hidle]

/-- An access that covers the bytes from byte `i` of an element on reads that part of it. -/
theorem windowReads_part {w : Nat} (size : AccessSize) (x : BitVec w) (i : Nat) (ho : o < 0x080000)
    (hal : o % size.bytes = 0)
    (h : ∀ k, k < size.bytes → windowByte s.params s.win (o + k) = x.extractLsb' (8 * (i + k)) 8) :
    WindowReads s o size ((x.extractLsb' (8 * i) (8 * size.bytes)).setWidth 32) := by
  have hdata : BitVec.ofNat 32 (bytesLE (windowByte s.params s.win) o size.bytes) =
      (x.extractLsb' (8 * i) (8 * size.bytes)).setWidth 32 := by
    refine BitVec.eq_of_toNat_eq ?_
    rw [bytesLE_of_element x o i size.bytes h, BitVec.toNat_setWidth, BitVec.extractLsb'_toNat,
      Nat.shiftRight_eq_div_pow, two_pow_eight_mul, two_pow_eight_mul, BitVec.toNat_ofNat]
  rw [← hdata]
  exact windowReads_bytes hidle ho hal

theorem windowReads_byte (ho : o < 0x080000) :
    WindowReads s o .byte ((windowByte s.params s.win o).setWidth 32) := by
  have hread := windowReads_part hidle .byte (windowByte s.params s.win o) 0 ho (Nat.mod_one o) fun k hk => by
    obtain rfl : k = 0 := Nat.lt_one_iff.mp hk
    exact BitVec.extractLsb'_eq_self.symm
  rwa [show (windowByte s.params s.win o).extractLsb' (8 * 0) (8 * AccessSize.byte.bytes) =
    windowByte s.params s.win o from BitVec.extractLsb'_eq_self] at hread

/-- The bytes of an aligned access are what reads of one byte give. -/
theorem windowReads_sized (size : AccessSize) (ho : o < 0x080000) (hal : o % size.bytes = 0) :
    ∃ data : Word, WindowReads s o size data ∧ data.toNat < 2 ^ (8 * size.bytes) ∧
      ∀ k, k < size.bytes → WindowReads s (o + k) .byte ((data.extractLsb' (8 * k) 8).setWidth 32) := by
  have hlt := bytesLE_lt (windowByte s.params s.win) o size.bytes
  have hle : 256 ^ size.bytes ≤ 2 ^ 32 := by cases size <;> decide
  have hnat : (BitVec.ofNat 32 (bytesLE (windowByte s.params s.win) o size.bytes)).toNat =
      bytesLE (windowByte s.params s.win) o size.bytes := by
    rw [BitVec.toNat_ofNat, Nat.mod_eq_of_lt (hlt.trans_le hle)]
  refine ⟨_, windowReads_bytes hidle ho hal, by rwa [hnat, two_pow_eight_mul], fun k hk => ?_⟩
  have hin : o + k < 0x080000 := by
    cases size <;> simp only [AccessSize.bytes] at hal hk <;> omega
  have hbyte : (BitVec.ofNat 32 (bytesLE (windowByte s.params s.win) o size.bytes)).extractLsb' (8 * k) 8 =
      windowByte s.params s.win (o + k) := by
    refine BitVec.eq_of_toNat_eq ?_
    rw [BitVec.extractLsb'_toNat, hnat, Nat.shiftRight_eq_div_pow, two_pow_eight_mul]
    exact bytesLE_byte _ _ _ _ hk
  rw [hbyte]
  exact windowReads_byte hidle hin

/-- A word of an array of int32 or uint32 elements. -/
theorem windowReads_word {d : Word} {m : Sparse 32} (base j : Nat) (ho : base + 4 * j < 0x080000) (hal : base % 4 = 0)
    (h : ∀ k, k < 4 → windowByte s.params s.win (base + (4 * j + k)) = elemByte 4 d m (4 * j + k)) :
    WindowReads s (base + 4 * j) .word (sparseGet d m j) := by
  have hread := windowReads_part hidle .word (sparseGet d m j) 0 ho
    (show (base + 4 * j) % 4 = 0 by omega) fun k hk => by
      rw [Nat.add_assoc, h k hk, elemByte_element 4 d m j k hk, Nat.zero_add]
  rwa [show ((sparseGet d m j).extractLsb' (8 * 0) (8 * AccessSize.word.bytes)).setWidth 32 = sparseGet d m j from
    (BitVec.setWidth_eq _).trans BitVec.extractLsb'_eq_self] at hread

/-- An element of an array of int16 elements. -/
theorem windowReads_half {d : BitVec 16} {m : Sparse 16} (base j : Nat) (ho : base + 2 * j < 0x080000)
    (hal : base % 2 = 0)
    (h : ∀ k, k < 2 → windowByte s.params s.win (base + (2 * j + k)) = elemByte 2 d m (2 * j + k)) :
    WindowReads s (base + 2 * j) .half ((sparseGet d m j).setWidth 32) := by
  have hread := windowReads_part hidle .half (sparseGet d m j) 0 ho
    (show (base + 2 * j) % 2 = 0 by omega) fun k hk => by
      rw [Nat.add_assoc, h k hk, elemByte_element 2 d m j k hk, Nat.zero_add]
  rwa [show (sparseGet d m j).extractLsb' (8 * 0) (8 * AccessSize.half.bytes) = sparseGet d m j from
    BitVec.extractLsb'_eq_self] at hread

/-- A half of an element of an array of uint64 elements: `i` is 0 for the low one and 4 for the high one. -/
theorem windowReads_dword {d : BitVec 64} {m : Sparse 64} (base j i : Nat) (hi : i = 0 ∨ i = 4)
    (ho : base + 8 * j + i < 0x080000) (hal : base % 4 = 0)
    (h : ∀ k, k < 8 → windowByte s.params s.win (base + (8 * j + k)) = elemByte 8 d m (8 * j + k)) :
    WindowReads s (base + 8 * j + i) .word ((sparseGet d m j).extractLsb' (8 * i) 32) := by
  have hread := windowReads_part hidle .word (sparseGet d m j) i ho
    (show (base + 8 * j + i) % 4 = 0 by omega) fun k hk => by
      have hk4 : k < 4 := hk
      rw [Nat.add_assoc, Nat.add_assoc, h (i + k) (by omega), elemByte_element 8 d m j (i + k) (by omega)]
  rwa [show ((sparseGet d m j).extractLsb' (8 * i) (8 * AccessSize.word.bytes)).setWidth 32 =
    (sparseGet d m j).extractLsb' (8 * i) 32 from BitVec.setWidth_eq _] at hread

end Reads

/-- The largest frame is even, being a power of two of at least 2 (00_scope.md R6). -/
theorem maxFrameLen_even {p : Params} (hp : p.Legal) : p.maxFrameLen % 2 = 0 := by
  obtain ⟨h2, -, hpow, -⟩ := hp
  have hlog : p.maxFrameLen.log2 ≠ 0 := fun h0 => by
    rw [h0] at hpow
    omega
  obtain ⟨k, hk⟩ := Nat.exists_eq_succ_of_ne_zero hlog
  rw [← hpow, hk, Nat.pow_succ]
  exact Nat.mul_mod_left _ 2

/-- Settles O56: each array by its place in the layout, whose arrays of words start at multiples of 4. -/
theorem windowReadsItsElements : Obligations.WindowReadsItsElements := by
  intro s hp hidle cm cf cb reads
  have hsize : 24 * cm + 6 * cf + 8 * cb ≤ 0x080000 := by
    obtain ⟨-, -, -, -, -, -, -, -, -, hmax⟩ := hp
    exact stateBytes_eq_layout s.params ▸ hmax
  have heven : cf % 2 = 0 := by
    rw [Nat.mul_mod, maxFrameLen_even hp, Nat.mul_zero, Nat.zero_mod]
  refine ⟨fun o ho => windowReads_byte hidle ho, fun o size hal ho => windowReads_sized hidle size ho hal,
    fun c hc => ⟨?_, ?_, ?_, ?_, ?_, ?_⟩, fun j hj => ⟨?_, ?_⟩, fun j hj => ⟨?_, ?_⟩⟩
  · have hread := windowReads_word hidle (d := 0) (m := s.win.dcX) 0 c (by omega) (by omega) fun k hk => by
      rw [Nat.zero_add]
      exact windowByte_dcX _ _ (show 4 * c + k < 4 * cm by omega)
    rwa [Nat.zero_add] at hread
  · exact windowReads_word hidle (4 * cm) c (by omega) (by omega) fun k hk =>
      windowByte_dcY _ _ (show 4 * c + k < 4 * cm by omega)
  · exact windowReads_word hidle (8 * cm) c (by omega) (by omega) fun k hk =>
      windowByte_peX _ _ (show 4 * c + k < 4 * cm by omega)
  · exact windowReads_word hidle (12 * cm) c (by omega) (by omega) fun k hk =>
      windowByte_nsCnt _ _ (show 4 * c + k < 4 * cm by omega)
  · exact windowReads_dword hidle (16 * cm) c 0 (.inl rfl) (by omega) (by omega) fun k hk =>
      windowByte_nsTpa _ _ (show 8 * c + k < 8 * cm by omega)
  · exact windowReads_dword hidle (16 * cm) c 4 (.inr rfl) (by omega) (by omega) fun k hk =>
      windowByte_nsTpa _ _ (show 8 * c + k < 8 * cm by omega)
  · exact windowReads_half hidle (24 * cm) j (by omega) (by omega) fun k hk =>
      windowByte_buf _ _ (show 2 * j + k < 2 * cf by omega)
  · exact windowReads_word hidle (24 * cm + 2 * cf) j (by omega) (by omega) fun k hk =>
      windowByte_ola _ _ (show 4 * j + k < 4 * cf by omega)
  · exact windowReads_word hidle (24 * cm + 6 * cf) j (by omega) (by omega) fun k hk =>
      windowByte_min _ _ (show 4 * j + k < 4 * cb by omega)
  · exact windowReads_word hidle (24 * cm + 6 * cf + 4 * cb) j (by omega) (by omega) fun k hk =>
      windowByte_est _ _ (show 4 * j + k < 4 * cb by omega)

/-! ### Reads while a command runs -/

/-- The bytes a running command writes are those of a hop whose checks pass, in OUT and SCR of its snapshot. -/
theorem commandWrites_iff (s : State) (r : Running) (a : Nat) (hr : s.run = some r) :
    commandWrites s a = true ↔ RunsHop s r ∧ HopWrites (State.withSnapshot r s) a := by
  obtain ⟨hruns, hnot⟩ := runningHop_eq s r hr
  by_cases hhop : RunsHop s r
  · rw [hopWrites_iff]
    simp only [commandWrites, hruns hhop, hhop, true_and, State.withSnapshot_act, State.withSnapshot_regs]
  · simp only [commandWrites, hnot hhop, hhop, false_and, Bool.false_eq_true]

/-- Where the running command writes nothing a host read sees the number in memory. -/
theorem bytesLE_of_not_written (s : State) (a n : Nat) (ha : a + n ≤ s.params.dmemBytes)
    (h : ∀ k, k < n → commandWrites s (a + k) = false) : bytesLE (hostDmemByte s) a n = memRead s.dmem a n := by
  induction n generalizing a with
  | zero => rfl
  | succ n ih =>
    have hbyte : hostDmemByte s a = Memory.byte s.dmem a := by
      have h0 : commandWrites s a = false := h 0 (Nat.succ_pos n)
      rw [hostDmemByte, if_neg (by omega), h0, if_neg Bool.false_ne_true]
    rw [bytesLE, memRead, hbyte, ih (a + 1) (by omega) fun k hk => ?_]
    rw [Nat.add_assoc, Nat.add_comm 1 k]
    exact h (k + 1) (by omega)

/-- A read records a response and, while a command runs, counts a draw (log 10). -/
theorem busRead_frame (s : State) (addr : Nat) (size : AccessSize) :
    busRead addr size s = { s with resp := (busRead addr size s).resp, draws := (busRead addr size s).draws } := by
  unfold busRead
  split
  · rfl
  · split
    · dsimp only
      split <;> rfl
    · rfl

/-- A register that is not drawn reads its value, with the engine idle or running. -/
theorem hostReg_of_not_drawn (s : State) {off : Nat} (h : busyDrawn off = false) : hostReg s off = s.readReg off := by
  rw [hostReg, h, Bool.and_false, if_neg Bool.false_ne_true]

/-- Settles O58: the registers that are not drawn, the bytes the command does not write, and the frame of a read. -/
theorem readsWhileBusy : Obligations.ReadsWhileBusy := by
  intro s r hp hr
  refine ⟨fun off hoff hal h1 h2 h3 h4 => ?_, fun a size hal ha hfree => ?_, ?_, busRead_frame s⟩
  · have hkept : busyDrawn off = false := by simp [busyDrawn, h1, h2, h3, h4]
    rw [busRead_legal_resp s _ .word _ (busTarget_register s.params off hoff)
      ((accessLegal_register_iff off .word).mpr ⟨rfl, hal⟩), busReadData, hostReg_of_not_drawn s hkept]
  · obtain ⟨-, -, -, -, -, -, hmax, -⟩ := hp
    have hpos := size.bytes_pos
    have hnumber := bytesLE_of_not_written s a size.bytes ha fun k hk => Bool.eq_false_iff.mpr fun hw => by
      obtain ⟨hhop, hwrites⟩ := (commandWrites_iff s r _ hr).mp hw
      exact hfree hhop k hk hwrites
    refine ⟨BitVec.ofNat 32 (memRead s.dmem a size.bytes), ?_, ?_, fun k hk => extractByte_memRead s.dmem a k size hk⟩
    · rw [busRead_legal_resp s _ size _ (busTarget_dmem s.params a (by omega)) (accessLegal_dmem a size hal), busReadData,
        hnumber]
    · rw [memRead_toNat_word, two_pow_eight_mul]
      exact memRead_lt _ _ _
  · have hstatus : (s.readReg 0x004).toNat = s.statusNumber := statusWord_toNat s
    rw [hstatus, State.statusNumber, hr, if_neg (Option.some_ne_none r)]

end Sys2Proof.Machine
end
